-- ==== Sys2Proof/Word.lean ====
section
/-! DEFINITION. The value types of the spec's notation (00_scope.md rule R10): u1, u8 and u32. -/

namespace Sys2Proof

/-- `u1` of rule R10: one bit, a sampled level or a bit on the line. -/
abbrev Bit := BitVec 1

/-- `u8` of rule R10. -/
abbrev Byte := BitVec 8

/-- `u32` of rule R10: a word of the host register space. -/
abbrev Word := BitVec 32

end Sys2Proof
end

