-- ==== Sys2Proof/Syntax.lean ====
section
/-! DEFINITION. The fifteen commands of 30_encoding.md rule R103, one constructor per row of opcode_table.json.
A field a command ignores (rule R101) is no argument of its constructor. -/

namespace Sys2Proof

/-- A command, with the operands rule R103 gives it. -/
inductive Instr where
  /-- 0x01 CHECK_PRESENCE (R140). -/
  | checkPresence
  /-- 0x02 WRITE_BIT, the bit in `A[0]` (R143). -/
  | writeBit (v : Bit)
  /-- 0x03 READ_BIT (R146). -/
  | readBit
  /-- 0x04 SEND_BYTE, the byte in A (R160). -/
  | sendByte (b : Byte)
  /-- 0x05 READ_BYTE (R161). -/
  | readByte
  /-- 0x06 CLEAR (R170). -/
  | clear
  /-- 0x07 SELECT, the registry slot in A (R172). -/
  | select (k : Byte)
  /-- 0x08 COUNT (R174). -/
  | count
  /-- 0x09 SEARCH_PASS, the registry slot in A and the last deviation in B (R180). -/
  | searchPass (k last : Byte)
  /-- 0x0A DISCOVER (R190). -/
  | discover
  /-- 0x0B READ_ALL (R200). -/
  | readAll
  /-- 0x0C START_CONVERSION (R204). -/
  | startConversion
  /-- 0x0D GET_TEMPERATURE, the device index in A (R207). -/
  | getTemperature (i : Byte)
  /-- 0x0E PROCESS (R212). -/
  | process
  /-- 0x0F CRC8_UPDATE, the checksum so far in A and the byte in B (R220). -/
  | crc8Update (c b : Byte)
  deriving DecidableEq, Repr

end Sys2Proof
end

