-- ==== Sys2Proof/Decode.lean ====
section
/-! DEFINITION. The command word (30_encoding.md section 1): its four fields, the decoder, the encoder. -/

namespace Sys2Proof

/-- Why a command word is rejected: the four causes of 60_exceptions.md rule R240, in the order they are tested. -/
inductive RejectCause where
  | busy
  | reserved
  | opcode
  | operand
  deriving DecidableEq, Repr

/-- `OP`, bits 7:0 of the command word (R100). -/
def opField (w : Word) : Byte := w.extractLsb' 0 8

/-- `A`, bits 15:8 of the command word (R100). -/
def aField (w : Word) : Byte := w.extractLsb' 8 8

/-- `B`, bits 23:16 of the command word (R100). -/
def bField (w : Word) : Byte := w.extractLsb' 16 8

/-- `Z`, bits 31:24 of the command word (R100), reserved. -/
def zField (w : Word) : Byte := w.extractLsb' 24 8

/-- The fifteen codes of rule R103 with their operands; any other code is the cause OPCODE (R104). -/
def decodeOp (op a b : Byte) : Except RejectCause Instr :=
  match op.toNat with
  | 0x01 => .ok .checkPresence
  | 0x02 => .ok (.writeBit (a.extractLsb' 0 1))
  | 0x03 => .ok .readBit
  | 0x04 => .ok (.sendByte a)
  | 0x05 => .ok .readByte
  | 0x06 => .ok .clear
  | 0x07 => .ok (.select a)
  | 0x08 => .ok .count
  | 0x09 => .ok (.searchPass a b)
  | 0x0A => .ok .discover
  | 0x0B => .ok .readAll
  | 0x0C => .ok .startConversion
  | 0x0D => .ok (.getTemperature a)
  | 0x0E => .ok .process
  | 0x0F => .ok (.crc8Update a b)
  | _ => .error .opcode

/-- Conditions (2) and (3) of rule R102, in that order: the reserved field first, then the code. -/
def decode (w : Word) : Except RejectCause Instr :=
  if zField w = 0#8 then decodeOp (opField w) (aField w) (bField w) else .error .reserved

/-- The word of fields `OP`, `A`, `B` with `Z = 0` (R100). -/
def packWord (op a b : Byte) : Word := 0#8 ++ b ++ a ++ op

/-- The code of a command (R103). -/
def Instr.opcode : Instr → Byte
  | .checkPresence => 0x01#8
  | .writeBit _ => 0x02#8
  | .readBit => 0x03#8
  | .sendByte _ => 0x04#8
  | .readByte => 0x05#8
  | .clear => 0x06#8
  | .select _ => 0x07#8
  | .count => 0x08#8
  | .searchPass _ _ => 0x09#8
  | .discover => 0x0A#8
  | .readAll => 0x0B#8
  | .startConversion => 0x0C#8
  | .getTemperature _ => 0x0D#8
  | .process => 0x0E#8
  | .crc8Update _ _ => 0x0F#8

/-- The first operand as an assembler writes it (R101, R106): 0 where the command has none. -/
def Instr.operandA : Instr → Byte
  | .writeBit v => v.zeroExtend 8
  | .sendByte b => b
  | .select k => k
  | .searchPass k _ => k
  | .getTemperature i => i
  | .crc8Update c _ => c
  | .checkPresence => 0#8
  | .readBit => 0#8
  | .readByte => 0#8
  | .clear => 0#8
  | .count => 0#8
  | .discover => 0#8
  | .readAll => 0#8
  | .startConversion => 0#8
  | .process => 0#8

/-- The second operand as an assembler writes it (R101, R106): 0 where the command has none. -/
def Instr.operandB : Instr → Byte
  | .searchPass _ last => last
  | .crc8Update _ b => b
  | .checkPresence => 0#8
  | .writeBit _ => 0#8
  | .readBit => 0#8
  | .sendByte _ => 0#8
  | .readByte => 0#8
  | .clear => 0#8
  | .select _ => 0#8
  | .count => 0#8
  | .discover => 0#8
  | .readAll => 0#8
  | .startConversion => 0#8
  | .getTemperature _ => 0#8
  | .process => 0#8

/-- The word an assembler writes for a command (R103, R106). -/
def encode (i : Instr) : Word := packWord i.opcode i.operandA i.operandB

/-- The command of a row of opcode_table.json whose `nbits` bits are `w`; bits at or above `nbits` are 0.
A command is one 32-bit word, so a longer row is none. -/
def decodeTableWord (nbits w : Nat) : Option Instr :=
  if nbits ≤ 32 then
    match decode (BitVec.ofNat 32 (w % 2 ^ nbits)) with
    | .ok i => some i
    | .error _ => none
  else none

end Sys2Proof
end

