-- ==== Sys2Proof/Config.lean ====
section
/-! DEFINITION. The build-time parameters of OWC (00_scope.md rules R5 to R8) and the free values of the model.
The parameters rule R5 fixes (ID_LEN 8, ID_BITS 64, TEMP_OFF 0, TEMP_LEN 2) stand as numbers where they are used. -/

namespace Sys2Proof

/-- `SEARCH_VARIANT` (rules R8 and R187): the search rule as the source states it, or with the two changes of rule R187. -/
inductive SearchVariant where
  | source
  | standard
  deriving DecidableEq, Repr

/-- The parameters of rules R5 to R8 that are OPEN.
A machine is built with one value of each, and none can change while OWC runs (log 2). -/
structure Config where
  /-- `CAP`, registry capacity (R5). -/
  cap : Byte
  /-- `SP_LEN`, scratchpad bytes read per device (R5). -/
  spLen : Byte
  /-- `T_RSTL`: presence check, low (R6). -/
  tRstl : Nat
  /-- `T_PDS`: presence check, released before the sample (R6). -/
  tPds : Nat
  /-- `T_RSTR`: presence check, after the sample (R6). -/
  tRstr : Nat
  /-- `T_WL`: write slot, initial low (R6). -/
  tWl : Nat
  /-- `T_WX`: write slot, the additional interval (R6). -/
  tWx : Nat
  /-- `T_WREC`: write slot, released tail (R6). -/
  tWrec : Nat
  /-- `T_RL`: read slot, initial low (R6). -/
  tRl : Nat
  /-- `T_RS`: read slot, released before the sample (R6). -/
  tRs : Nat
  /-- `T_RP`: read slot, pad after the sample (R6). -/
  tRp : Nat
  /-- `TICK`: real-time length of one tick (R6), here in nanoseconds (log 15). -/
  tickNs : Nat
  /-- `CMD_MATCH` (R7). -/
  cmdMatch : Byte
  /-- `CMD_SEARCH` (R7). -/
  cmdSearch : Byte
  /-- `CMD_READ_MEM` (R7). -/
  cmdReadMem : Byte
  /-- `CMD_SKIP` (R7). -/
  cmdSkip : Byte
  /-- `CMD_CONVERT` (R7). -/
  cmdConvert : Byte
  /-- `PARASITE` (R8). -/
  parasite : Bool
  /-- `HIRES_FAMILY` (R8). -/
  hiresFamily : Byte
  /-- `SEARCH_VARIANT` (R8). -/
  variant : SearchVariant
  deriving DecidableEq, Repr

/-- `SENTINEL` (rule R8, decision D15). -/
def sentinel : Byte := 0xFF#8

/-- The ranges rules R5 and R6 give the parameters: CAP 1..255, SP_LEN 3..255, every duration at least 1. -/
def Config.wf (c : Config) : Bool :=
  decide (c.cap ≠ 0#8) && decide (3 ≤ c.spLen.toNat) &&
  decide (1 ≤ c.tRstl ∧ 1 ≤ c.tPds ∧ 1 ≤ c.tRstr) &&
  decide (1 ≤ c.tWl ∧ 1 ≤ c.tWx ∧ 1 ≤ c.tWrec) &&
  decide (1 ≤ c.tRl ∧ 1 ≤ c.tRs ∧ 1 ≤ c.tRp) && decide (1 ≤ c.tickNs)

/-- The five wire commands are pairwise distinct, which only the reference responders need (rule R7). -/
def Config.wiresDistinct (c : Config) : Bool :=
  decide ([c.cmdMatch, c.cmdSearch, c.cmdReadMem, c.cmdSkip, c.cmdConvert].Nodup)

/-- `T_P` (rule R6): duration of a presence check. -/
def Config.tP (c : Config) : Nat := c.tRstl + c.tPds + c.tRstr

/-- `T_W` (rule R6): duration of a write slot. -/
def Config.tW (c : Config) : Nat := c.tWl + c.tWx + c.tWrec

/-- `T_R` (rule R6): duration of a read slot. -/
def Config.tR (c : Config) : Nat := c.tRl + c.tRs + c.tRp

/-- `BASE` of 43_rom_search.md: 0 for SOURCE, 1 for STANDARD. -/
def Config.base (c : Config) : Nat :=
  match c.variant with
  | .source => 0
  | .standard => 1

/-- PRESUMED, unsafe (log 2). The defaults of rules R5 to R8 and the `CAP = 4` of 95_test_vectors.md.
The numbers the source does not give are the spec's general knowledge G1 to G4 and G12. -/
def Config.default : Config where
  cap := 4
  spLen := 9
  tRstl := 480
  tPds := 70
  tRstr := 410
  tWl := 6
  tWx := 54
  tWrec := 10
  tRl := 6
  tRs := 9
  tRp := 55
  tickNs := 1000
  cmdMatch := 0x55
  cmdSearch := 0xF0
  cmdReadMem := 0xBE
  cmdSkip := 0xCC
  cmdConvert := 0x44
  parasite := false
  hiresFamily := 0x28
  variant := .source

/-- Free value (U7, log 5), safe: at the n-th draw, whether at least one responder pulls the line low at the sample. -/
opaque Config.freeLow : Nat → Bool

/-- Free value (U12, log 12), safe: how many conversions a reference responder started between a slot of its cut short and the
next presence check. -/
opaque Config.freeConversions : Nat → Nat

/-- Free value (U6, rule R77, log 9), safe: the level of a line driven high and pulled low at once. -/
opaque Config.freeLevel : Nat → Bit

/-- Free value (U5, rule R69, log 7), safe: what a host read returns while an operation runs. -/
opaque Config.freeRead : Nat → Word

/-- Free value (U1, rule R209, log 8), safe: the temperature of a device index at or beyond COUNT. -/
opaque Config.freeTemp : Nat → Word

end Sys2Proof
end

