-- ==== Sys2Proof/Machine/State.lean ====
section
/-! DEFINITION. The state of OWC (10_state.md), of the line's other side (20_memory.md section 6) and of the host's
coming actions, as plain data; and the state after reset (rule R46). -/

namespace Sys2Proof.Machine

/-- `DRV`, the line driver (rule R42): released, pulling low, driving actively high. -/
inductive Drv where
  | rel
  | low
  | high
  deriving DecidableEq, Repr

/-- `SEQ`, the operation sequencer (rule R40).
The loop counters of a running operation are the datapath registers. -/
inductive Seq where
  | idle
  | busy (op : Instr)
  deriving DecidableEq, Repr

/-- A bus event (rule R80): presence check (1 when sampled low), write slot, read slot, line left driven high. -/
inductive BusEvent where
  | rst (p : Bit)
  | w (b : Bit)
  | r (v : Bit)
  | spu
  deriving DecidableEq, Repr

/-- A piece of waveform (rules R110 to R113): the driver held in one state for some ticks, or one sample of the line. -/
inductive WaveItem where
  | hold (d : Drv) (ticks : Nat)
  | sample (v : Bit)
  deriving DecidableEq, Repr

/-- The datapath registers (10_state.md section 2): dead at IDLE (rule R45). -/
structure Datapath where
  /-- `SR` (R26). -/
  sr : Byte
  /-- `BITCNT`: bits 2:0 count, bit 3 is the terminal flag (R27, log 10). -/
  bitcnt : BitVec 4
  /-- `CRC`, the accumulator (R28). -/
  crc : Byte
  /-- `STG[0]` (R29). -/
  stg0 : Byte
  /-- `STG[1]` (R29). -/
  stg1 : Byte
  /-- `POS`: bits 5:0 count, bit 6 is the terminal flag (R30, log 10). -/
  pos : BitVec 7
  /-- `BA` (R30). -/
  ba : Bit
  /-- `BB` (R30). -/
  bb : Bit
  /-- `CH` (R30). -/
  ch : Bit
  /-- `LASTIN` (R31). -/
  lastin : Byte
  /-- `NEWDEV` (R31). -/
  newdev : Byte
  /-- `WSLOT` (R32). -/
  wslot : Byte
  /-- `NPASS` (R32). -/
  npass : Byte
  /-- `DEVIDX` (R32). -/
  devidx : Byte
  /-- `BYTEIDX` (R32). -/
  byteidx : Byte
  /-- `TICKCNT` (R32, R252). -/
  tickcnt : Nat
  deriving DecidableEq, Repr

/-- Where a reference responder is in a search position (rule R92): sending the bit, sending its complement, awaiting the
written bit. -/
inductive SearchPhase where
  | bit
  | complement
  | choice
  deriving DecidableEq, Repr

/-- The mode of a reference responder (rule R90).
`romCmd` and `funcCmd` hold how many bits have been collected and the receive register. -/
inductive RMode where
  | idle
  | romCmd (n : Nat) (rx : Byte)
  | search (p : Nat) (phase : SearchPhase)
  | matching (p : Nat)
  | funcCmd (n : Nat) (rx : Byte)
  | tx (n : Nat)
  deriving DecidableEq, Repr

/-- PRESUMED (log 6). A reference responder (rules R90 to R93): identity, scratchpad, mode, conversions started. -/
structure Responder where
  /-- The identity, bit p of rule R63 at bit p. -/
  rid : BitVec 64
  /-- The scratchpad, byte 0 first. -/
  pad : List Byte
  /-- The mode. -/
  mode : RMode
  /-- How many conversions it has started (R93). -/
  conversions : Nat
  deriving DecidableEq, Repr

/-- The line's other side (rule R43): an oracle whose script says, for each coming sample, whether some responder pulls low,
and that is free beyond its script; a list of reference responders; or reference responders in whose time slot a reset of OWC cut
(rules R79, R272): whatever they answer is free until the next presence check (U12, log 12). -/
inductive Env where
  | oracle (script : List Bool)
  | responders (rs : List Responder)
  | unsettled (rs : List Responder)
  deriving DecidableEq, Repr

/-- The bus outside OWC, the virtual clock (rule R76) and the histories of the line (rules R80, R110 to R113), oldest first.
Model's own fields (log 5, log 15). -/
structure Bus where
  /-- The line's other side. -/
  env : Env
  /-- How many free values have been drawn. -/
  draws : Nat
  /-- Ticks since the start. -/
  clock : Nat
  /-- The bus event history. -/
  events : List BusEvent
  /-- The waveform history. -/
  wave : List WaveItem
  deriving DecidableEq, Repr

/-- An action of the host (rules R65, R270): an access of `size` bytes at byte offset `off`, or the reset input asserted
(`reset true`) or released (`reset false`). -/
inductive HostAct where
  | read (off size : Nat)
  | write (off size : Nat) (w : Word)
  | reset (asserted : Bool)
  deriving DecidableEq, Repr

/-- When an action of the host comes (log 3, log 4): `polled gap`, `gap` ticks after the host has read BUSY = 0 (the polling of
R83, R106 and R280); `timed delay`, `delay` ticks after the host's previous action, whether or not OWC is BUSY then. -/
inductive Arrival where
  | polled (gap : Nat)
  | timed (delay : Nat)
  deriving DecidableEq, Repr

/-- An action of the host and when it comes. -/
structure HostEvent where
  arrival : Arrival
  act : HostAct
  deriving DecidableEq, Repr

/-- The whole state. -/
structure State where
  /-- The build-time parameters: fixed for a machine, written by nothing (R5 to R8, log 2). -/
  cfg : Config
  /-- The reset input is asserted (R270, log 19). -/
  inReset : Bool
  /-- `STATUS.ILL` (R22). -/
  ill : Bool
  /-- `RESULT` (R23). -/
  result : Word
  /-- `COUNT` (R24). -/
  count : Byte
  /-- `LASTDEV` (R25). -/
  lastdev : Byte
  /-- The registry byte memory (R34, R60), in canonical form; an unlisted address reads 0x00 (log 13). -/
  mem : List Host.Cell
  /-- `SEQ` (R40); `STATUS.BUSY` is `SEQ` not IDLE. -/
  seq : Seq
  /-- `DRV` (R42); `STATUS.SPU` is `DRV` HIGH. -/
  drv : Drv
  /-- The datapath registers. -/
  dp : Datapath
  /-- The line's other side, the clock and the histories: the model's own. -/
  bus : Bus
  /-- The host's coming actions: the model's own. -/
  host : List HostEvent
  /-- What host reads have returned, with their offsets, oldest first: the model's own. -/
  readLog : List (Nat × Word)
  deriving DecidableEq, Repr

/-- Why a step stops with a fault. -/
inductive Fault where
  /-- An operation would address a registry slot that does not exist (R60).
  Raised by DISCOVER with `CAP = 0` and by READ_ALL, GET_TEMPERATURE and PROCESS with `COUNT > CAP`, which no run from
  reset reaches (R24): safe (log 13). -/
  | registryRange
  deriving DecidableEq, Repr

/-- Why a step is refused. -/
inductive Refusal where
  /-- The instruction of this mnemonic has no meaning yet: safe. -/
  | notModelled (mnemonic : String)
  /-- A host access narrower than 32 bits or not 4-aligned, which rule R65 says a model refuses.
  Raised by the step on such an access: safe. -/
  | unsupportedAccess
  deriving DecidableEq, Repr

/-- The datapath registers after reset (R46). -/
def Datapath.reset : Datapath where
  sr := 0#8
  bitcnt := 0#4
  crc := 0#8
  stg0 := 0#8
  stg1 := 0#8
  pos := 0#7
  ba := 0#1
  bb := 0#1
  ch := 0#1
  lastin := 0#8
  newdev := 0#8
  wslot := 0#8
  npass := 0#8
  devidx := 0#8
  byteidx := 0#8
  tickcnt := 0

/-- DESIGN CHOICE, safe (log 5, log 15). The line's other side is free, the clock and the histories start empty. -/
def Bus.start : Bus where
  env := .oracle []
  draws := 0
  clock := 0
  events := []
  wave := []

/-- The state after reset of a machine built with the parameters `c` (R46, R270), the reset input released, nothing pending from
the host. -/
def State.resetWith (c : Config) : State where
  cfg := c
  inReset := false
  ill := false
  result := 0#32
  count := 0#8
  lastdev := 0#8
  mem := []
  seq := .idle
  drv := .rel
  dp := Datapath.reset
  bus := Bus.start
  host := []
  readLog := []

/-- The state after reset of the machine with the default parameters (R46, R270, log 2). -/
def State.reset : State := State.resetWith Config.default

end Sys2Proof.Machine
end

