-- ==== Sys2Proof/Machine/Flags.lean ====
section
/-! DEFINITION. The STATUS register (10_state.md rules R22 and R47): its fields, its word, its write. -/

namespace Sys2Proof.Machine

/-- `STATUS.BUSY` (R22): `SEQ` is not IDLE. -/
def isBusy (s : State) : Bool :=
  match s.seq with
  | .idle => false
  | .busy _ => true

/-- `STATUS.SPU` (R22, R42): `DRV` is HIGH. -/
def isSpu (s : State) : Bool :=
  match s.drv with
  | .high => true
  | .rel => false
  | .low => false

/-- The word a read of STATUS returns (R20, R22): BUSY at bit 0, ILL at bit 1, SPU at bit 2, zeros above. -/
def statusWord (s : State) : Word :=
  0#29 ++ BitVec.ofBool (isSpu s) ++ BitVec.ofBool s.ill ++ BitVec.ofBool (isBusy s)

/-- A write to STATUS (R22): a 1 in bit 1 clears ILL, every other bit is ignored. -/
def writeStatus (w : Word) (s : State) : State :=
  { s with ill := s.ill && !w.getLsbD 1 }

end Sys2Proof.Machine
end

