-- ==== Sys2Proof/Machine/Operands.lean ====
section
/-! DEFINITION. Bit fields, extensions and byte order (00_scope.md rule R10, 20_memory.md rules R61, R63, R67, R70 to R72). -/

namespace Sys2Proof.Machine

/-- `v[i]` of rule R10. -/
def bitOf (v : Byte) (i : Nat) : Bit := v.extractLsb' i 1

/-- `v` with bit `i` set to `b` and the other bits as they were (R11, R62), for `i < 8`. -/
def setBitOf (v : Byte) (i : Nat) (b : Bit) : Byte :=
  (v &&& ~~~(1#8 <<< i)) ||| (b.zeroExtend 8 <<< i)

/-- A byte shifted right with `b` entering at bit 7 (R71). -/
def shiftIn (b : Bit) (v : Byte) : Byte := (v >>> 1) ||| (b.zeroExtend 8 <<< 7)

/-- `zext_32` of a bit (R10, R23). -/
def zextBit (b : Bit) : Word := b.zeroExtend 32

/-- `zext_32` of a byte (R10, R23). -/
def zextByte (b : Byte) : Word := b.zeroExtend 32

/-- Four bytes as a little-endian word, the first lowest (R67). -/
def leWord (b0 b1 b2 b3 : Byte) : Word := b3 ++ b2 ++ b1 ++ b0

/-- The raw temperature: two bytes, low first, as a two's-complement integer (R72, R207). -/
def rawTemp (lo hi : Byte) : Int := (hi ++ lo : BitVec 16).toInt

/-- Base address of registry slot `k` (R61). -/
def slotBase (k : Byte) : Nat := 16 * k.toNat

/-- Address of `ID[k][j]` (R61). -/
def idAddr (k : Byte) (j : Nat) : Nat := slotBase k + j

/-- Address of `CACHE[k][j]` (R61). -/
def cacheAddr (k : Byte) (j : Nat) : Nat := slotBase k + 8 + j

end Sys2Proof.Machine
end

