-- ==== Sys2Proof/Machine/Responder.lean ====
section
/-! DEFINITION. What stands on the line's other side: the reference responders of 20_memory.md rules R90 to R93, and how the
environment answers a presence check, a write slot and a read slot (rules R13, R43). -/

namespace Sys2Proof.Machine

/-- A responder after a presence check (R91). -/
def Responder.onReset (r : Responder) : Responder := { r with mode := .romCmd 0 0#8 }

/-- The mode a ROM-level command byte selects (R92). -/
def romMode (c : Config) (b : Byte) : RMode :=
  if b = c.cmdSearch then .search 0 .bit
  else if b = c.cmdMatch then .matching 0
  else if b = c.cmdSkip then .funcCmd 0 0#8
  else .idle

/-- A responder after a function command byte (R93). -/
def Responder.onFunc (c : Config) (b : Byte) (r : Responder) : Responder :=
  if b = c.cmdReadMem then { r with mode := .tx 0 }
  else if b = c.cmdConvert then { r with mode := .idle, conversions := r.conversions + 1 }
  else { r with mode := .idle }

/-- A responder after a write slot of bit `b` (R91 to R93).
PRESUMED (log 6): a slot its mode does not expect leaves it as it was. -/
def Responder.onWrite (c : Config) (b : Bit) (r : Responder) : Responder :=
  match r.mode with
  | .idle => r
  | .romCmd n rx =>
    if n = 7 then { r with mode := romMode c (shiftIn b rx) } else { r with mode := .romCmd (n + 1) (shiftIn b rx) }
  | .search p .choice =>
    if b ≠ r.rid.extractLsb' p 1 then { r with mode := .idle }
    else if p = 63 then { r with mode := .funcCmd 0 0#8 }
    else { r with mode := .search (p + 1) .bit }
  | .search _ .bit => r
  | .search _ .complement => r
  | .matching p =>
    if b ≠ r.rid.extractLsb' p 1 then { r with mode := .idle }
    else if p = 63 then { r with mode := .funcCmd 0 0#8 }
    else { r with mode := .matching (p + 1) }
  | .funcCmd n rx =>
    if n = 7 then r.onFunc c (shiftIn b rx) else { r with mode := .funcCmd (n + 1) (shiftIn b rx) }
  | .tx _ => r

/-- Whether a responder pulls the line low in a read slot, that is, sends 0 (R92, R93). -/
def Responder.pulls (r : Responder) : Bool :=
  match r.mode with
  | .search p .bit => r.rid.extractLsb' p 1 == 0#1
  | .search p .complement => r.rid.extractLsb' p 1 == 1#1
  | .tx n => decide (n / 8 < r.pad.length) && bitOf (r.pad.getD (n / 8) 0xFF#8) (n % 8) == 0#1
  | .search _ .choice => false
  | .idle => false
  | .romCmd _ _ => false
  | .matching _ => false
  | .funcCmd _ _ => false

/-- A responder after a read slot (R92, R93).
PRESUMED (log 6): a slot its mode does not expect leaves it as it was. -/
def Responder.onRead (r : Responder) : Responder :=
  match r.mode with
  | .search p .bit => { r with mode := .search p .complement }
  | .search p .complement => { r with mode := .search p .choice }
  | .tx n => { r with mode := .tx (n + 1) }
  | .search _ .choice => r
  | .idle => r
  | .romCmd _ _ => r
  | .matching _ => r
  | .funcCmd _ _ => r

/-- What the line's other side answers to one sample: whether some responder pulls low, what becomes of it, and the counter of
free values. -/
structure Answer where
  low : Bool
  env : Env
  draws : Nat
  deriving DecidableEq, Repr

/-- The oracle's answer: the script's head, or a free value when the script is spent (R43, U7, log 5). -/
def oracleAnswer (script : List Bool) (draws : Nat) : Answer :=
  match script with
  | [] => { low := Config.freeLow draws, env := .oracle [], draws := draws + 1 }
  | x :: rest => { low := x, env := .oracle rest, draws := draws }

/-- The free answer of responders whose slot was cut short (U12, log 12). -/
def unsettledAnswer (rs : List Responder) (draws : Nat) : Answer :=
  { low := Config.freeLow draws, env := .unsettled rs, draws := draws + 1 }

/-- Responders whose slot was cut short, after the next presence check (R79, R91, R271): in their initial mode, with the identity
and the scratchpad they had, and a free number of conversions more (log 12). -/
def settle : Nat → List Responder → List Responder
  | _, [] => []
  | n, r :: rs => { r.onReset with conversions := r.conversions + Config.freeConversions n } :: settle (n + 1) rs

/-- What a slot cut short makes of the line's other side (R272, U12, log 12). -/
def Env.unsettle : Env → Env
  | .oracle _ => .oracle []
  | .responders rs => .unsettled rs
  | .unsettled rs => .unsettled rs

/-- The line's other side through a presence check (R91): every responder pulls low at the sample, whatever its mode. -/
def envReset (e : Env) (draws : Nat) : Answer :=
  match e with
  | .oracle script => oracleAnswer script draws
  | .responders rs => { low := !rs.isEmpty, env := .responders (rs.map Responder.onReset), draws := draws }
  | .unsettled rs => { low := !rs.isEmpty, env := .responders (settle draws rs), draws := draws + rs.length }

/-- The line's other side through a read slot (R92, R93): low when any responder sends 0. -/
def envRead (e : Env) (draws : Nat) : Answer :=
  match e with
  | .oracle script => oracleAnswer script draws
  | .responders rs =>
    { low := rs.any Responder.pulls, env := .responders (rs.map Responder.onRead), draws := draws }
  | .unsettled rs => unsettledAnswer rs draws

/-- The line's other side through a write slot of bit `v` (R92, R93). -/
def envWrite (c : Config) (v : Bit) (e : Env) : Env :=
  match e with
  | .oracle script => .oracle script
  | .responders rs => .responders (rs.map (Responder.onWrite c v))
  | .unsettled rs => .unsettled rs

end Sys2Proof.Machine
end

