-- ==== Sys2Proof/Machine/Ops.lean ====
section
/-! DEFINITION. The named operations every meaning is built from: the registry byte memory, the line primitives `Drive`,
`Wait`, `Sample` of 00_scope.md rule R12, the bus event history, the acceptance, completion and rejection of a command. -/

namespace Sys2Proof.Machine

/-- The byte a canonical list holds at an address: 0x00 where it lists none (R46). -/
def Memory.read : List Host.Cell → Nat → Byte
  | [], _ => 0#8
  | c :: m, a => if c.1 = a then c.2 else Memory.read m a

/-- A list with the byte at an address replaced, in canonical form again. -/
def Memory.write : List Host.Cell → Nat → Byte → List Host.Cell
  | [], a, v => if v = 0#8 then [] else [(a, v)]
  | c :: m, a, v =>
    if a < c.1 then (if v = 0#8 then c :: m else (a, v) :: c :: m)
    else if a = c.1 then (if v = 0#8 then m else (a, v) :: m)
    else c :: Memory.write m a v

/-- The canonical form from a lower bound on: addresses strictly rising, no 0x00 listed. -/
def Memory.wfFrom : Nat → List Host.Cell → Bool
  | _, [] => true
  | lo, c :: m => decide (lo ≤ c.1) && decide (c.2 ≠ 0#8) && Memory.wfFrom (c.1 + 1) m

/-- The canonical form (log 13): addresses strictly rising, no entry equal to what an unlisted address reads as. -/
def Memory.wf (m : List Host.Cell) : Bool := Memory.wfFrom 0 m

/-- The registry byte addresses that hold storage (R60, R61): below `16*CAP`, offsets 0 to 9 of a slot. -/
def implemented (c : Config) (a : Nat) : Bool := decide (a < 16 * c.cap.toNat) && decide (a % 16 < 10)

/-- `MemRead(a, 1)` of rule R11; bytes 10 to 15 of a slot read 0 (R61). -/
def memRead (a : Nat) (s : State) : Byte := if implemented s.cfg a then Memory.read s.mem a else 0#8

/-- `MemWrite(a, 1, v)` of rule R11; bytes 10 to 15 of a slot are not written (R61). -/
def memWrite (a : Nat) (v : Byte) (s : State) : State :=
  if implemented s.cfg a then { s with mem := Memory.write s.mem a v } else s

/-- `ID[k][j]` (R11, R61). -/
def idByte (k : Byte) (j : Nat) (s : State) : Byte := memRead (idAddr k j) s

/-- `CACHE[k][j]` (R11, R61). -/
def cacheByte (k : Byte) (j : Nat) (s : State) : Byte := memRead (cacheAddr k j) s

/-- `IDBIT(k, p)` (R11, R63). -/
def idBit (k : Byte) (p : Nat) (s : State) : Bit := bitOf (idByte k (p / 8) s) (p % 8)

/-- `IDBIT(k, p) <- b` (R11, R62, R63). -/
def setIdBit (k : Byte) (p : Nat) (b : Bit) (s : State) : State :=
  memWrite (idAddr k (p / 8)) (setBitOf (idByte k (p / 8) s) (p % 8) b) s

/-- `ow_pull_low` (R75). -/
def owPullLow (d : Drv) : Bool := decide (d = .low)

/-- `ow_drive_high` (R75). -/
def owDriveHigh (d : Drv) : Bool := decide (d = .high)

/-- The level of the line (R77): `low` says whether some responder pulls low, `free` is the level in contention (log 9). -/
def lineLevel (d : Drv) (low : Bool) (free : Bit) : Bit :=
  match d, low with
  | .low, _ => 0#1
  | .rel, true => 0#1
  | .rel, false => 1#1
  | .high, false => 1#1
  | .high, true => free

/-- `Drive(d)` (R12). -/
def drive (d : Drv) (s : State) : State := { s with drv := d }

/-- `Wait(n)` (R12, R76, R252): the clock advances n ticks with the driver as it stands, and TICKCNT has counted down to 0. -/
def wait (n : Nat) (s : State) : State :=
  { s with
    dp := { s.dp with tickcnt := 0 }
    bus := { s.bus with clock := s.bus.clock + n, wave := s.bus.wave ++ [.hold s.drv n] } }

/-- The number of free values a sample takes: one when OWC drives high while a responder pulls low (R77, log 9). -/
def contentionDraws (d : Drv) (low : Bool) : Nat :=
  match d, low with
  | .high, true => 1
  | .high, false => 0
  | .low, _ => 0
  | .rel, _ => 0

/-- `Sample()` (R12, R77): the level of the line now, `low` saying whether some responder pulls low. -/
def sample (low : Bool) (s : State) : Bit × State :=
  let v := lineLevel s.drv low (Config.freeLevel s.bus.draws)
  (v, { s with
    bus := { s.bus with
      draws := s.bus.draws + contentionDraws s.drv low
      wave := s.bus.wave ++ [.sample v] } })

/-- Append to the bus event history (R80). -/
def emit (e : BusEvent) (s : State) : State := { s with bus := { s.bus with events := s.bus.events ++ [e] } }

/-- A transfer between datapath registers (R26 to R32). -/
def onDp (f : Datapath → Datapath) (s : State) : State := { s with dp := f s.dp }

/-- `COUNT <- v` (R24). -/
def setCount (v : Byte) (s : State) : State := { s with count := v }

/-- `LASTDEV <- v` (R25). -/
def setLastdev (v : Byte) (s : State) : State := { s with lastdev := v }

/-- `RESULT <- w` (R23). -/
def setResult (w : Word) (s : State) : State := { s with result := w }

/-- Acceptance of a command (R21, R40): BUSY becomes 1. -/
def accept (op : Instr) (s : State) : State := { s with seq := .busy op }

/-- The end of an operation (R40): SEQ returns to IDLE. -/
def complete (s : State) : State := { s with seq := .idle }

/-- Rejection of a command word (R240), whatever the cause: ILL is set and nothing else changes.
It is all OWC has of an exception: nothing is saved, there is no handler and no return (R247, R248). -/
def reject (s : State) : State := { s with ill := true }

/-- The host issues a command whose operation is `body` (R21, R40, R240): rejected while BUSY, else run to completion. -/
def issue (op : Instr) (body : State → State) (s : State) : Host.Outcome State Fault Refusal :=
  if isBusy s then .next (reject s) else .next (complete (body (accept op s)))

/-- The same for an operation that addresses registry slots: it faults where one does not exist (R60, log 13). -/
def issueWithin (inRange : Bool) (op : Instr) (body : State → State) (s : State) :
    Host.Outcome State Fault Refusal :=
  if isBusy s then .next (reject s)
  else if inRange then .next (complete (body (accept op s)))
  else .fault .registryRange

/-- The same for a command with a registry slot operand (R102 (4), R240): rejected when the slot does not exist. -/
def issueSlot (k : Byte) (op : Instr) (body : State → State) (s : State) : Host.Outcome State Fault Refusal :=
  if isBusy s then .next (reject s)
  else if k < s.cfg.cap then .next (complete (body (accept op s)))
  else .next (reject s)

end Sys2Proof.Machine
end

