-- ==== Sys2Proof/Machine/Crc.lean ====
section
/-! DEFINITION. The CRC-8 generator (45_crc8.md): CRC8_UPDATE. -/

namespace Sys2Proof.Machine

/-- One iteration of `Crc8Update` (R220): shift right, and exclusive or with 0x8C when the bit shifted out was 1. -/
def crcShift (x : Byte) : Byte := if bitOf x 0 = 1#1 then (x >>> 1) ^^^ 0x8C#8 else x >>> 1

/-- `n` iterations of `Crc8Update`. -/
def crcShifts : Nat → Byte → Byte
  | 0, x => x
  | n + 1, x => crcShifts n (crcShift x)

/-- `Crc8Update(c, b)` (R220). -/
def crc8Update (c b : Byte) : Byte := crcShifts 8 (c ^^^ b)

/-- `fold(bs)` of rule R221, from the accumulator `c`. -/
def crcFold (c : Byte) (bs : List Byte) : Byte := bs.foldl crc8Update c

/-- CRC8_UPDATE (R220). -/
def execCrc8Update (c b : Byte) (s : State) : Host.Outcome State Fault Refusal :=
  issue (.crc8Update c b) (setResult (zextByte (crc8Update c b))) s

end Sys2Proof.Machine
end

