-- ==== Sys2Proof/Machine/Timing.lean ====
section
/-! DEFINITION. The Bus Timing Layer (40_bus_timing.md): CHECK_PRESENCE, WRITE_BIT, READ_BIT. -/

namespace Sys2Proof.Machine

/-- The state after the line's other side has answered. -/
def answered (a : Answer) (s : State) : State :=
  { s with bus := { s.bus with env := a.env, draws := a.draws } }

/-- The responders' part in a write slot (R92, R93). -/
def lineWrite (v : Bit) (s : State) : State :=
  { s with bus := { s.bus with env := envWrite s.cfg v s.bus.env } }

/-- `CheckPresence()` (R140). -/
def checkPresence (s : State) : Bit × State :=
  let s1 := wait s.cfg.tRstl (drive .low s)
  let s2 := wait s.cfg.tPds (drive .rel s1)
  let a := envReset s2.bus.env s2.bus.draws
  let v := sample a.low (answered a s2)
  let s3 := wait s.cfg.tRstr v.2
  let p : Bit := if v.1 = 0#1 then 1#1 else 0#1
  (p, emit (.rst p) s3)

/-- `WriteBit(v)` (R143). -/
def writeBit (v : Bit) (s : State) : State :=
  let s1 := wait s.cfg.tWl (drive .low s)
  let s2 := if v = 0#1 then wait s.cfg.tWx s1 else s1
  let s3 := wait s.cfg.tWrec (drive .rel s2)
  let s4 := if v = 1#1 then wait s.cfg.tWx s3 else s3
  emit (.w v) (lineWrite v s4)

/-- `ReadBit()` (R146). -/
def readBit (s : State) : Bit × State :=
  let s1 := wait s.cfg.tRl (drive .low s)
  let s2 := wait s.cfg.tRs (drive .rel s1)
  let a := envRead s2.bus.env s2.bus.draws
  let v := sample a.low (answered a s2)
  let s3 := wait s.cfg.tRp v.2
  (v.1, emit (.r v.1) s3)

/-- The operation of CHECK_PRESENCE (R140, R23). -/
def checkPresenceBody (s : State) : State :=
  let p := checkPresence s
  setResult (zextBit p.1) p.2

/-- CHECK_PRESENCE (R140). -/
def execCheckPresence (s : State) : Host.Outcome State Fault Refusal :=
  issue .checkPresence checkPresenceBody s

/-- WRITE_BIT (R143). -/
def execWriteBit (v : Bit) (s : State) : Host.Outcome State Fault Refusal :=
  issue (.writeBit v) (writeBit v) s

/-- The operation of READ_BIT (R146, R23). -/
def readBitBody (s : State) : State :=
  let v := readBit s
  setResult (zextBit v.1) v.2

/-- READ_BIT (R146). -/
def execReadBit (s : State) : Host.Outcome State Fault Refusal :=
  issue .readBit readBitBody s

end Sys2Proof.Machine
end

