-- ==== Sys2Proof/Machine/Framing.lean ====
section
/-! DEFINITION. The Byte Framing Layer (41_byte_framing.md): SEND_BYTE, READ_BYTE. -/

namespace Sys2Proof.Machine

/-- The last `n` iterations of `SendByte`'s loop (R160): send bit 0 of SR, shift SR right. -/
def sendBits : Nat → State → State
  | 0, s => s
  | n + 1, s =>
    sendBits n (onDp (fun d => { d with sr := d.sr >>> 1, bitcnt := d.bitcnt + 1#4 }) (writeBit (bitOf s.dp.sr 0) s))

/-- `SendByte(b)` (R160). -/
def sendByte (b : Byte) (s : State) : State :=
  sendBits 8 (onDp (fun d => { d with sr := b, bitcnt := 0#4 }) s)

/-- The last `n` iterations of `ReadByte`'s loop (R161): shift SR right, the bit read entering at bit 7. -/
def readBits : Nat → State → State
  | 0, s => s
  | n + 1, s =>
    let v := readBit s
    readBits n (onDp (fun d => { d with sr := shiftIn v.1 d.sr, bitcnt := d.bitcnt + 1#4 }) v.2)

/-- `ReadByte()` (R161). -/
def readByte (s : State) : Byte × State :=
  let s1 := readBits 8 (onDp (fun d => { d with sr := 0#8, bitcnt := 0#4 }) s)
  (s1.dp.sr, s1)

/-- SEND_BYTE (R160). -/
def execSendByte (b : Byte) (s : State) : Host.Outcome State Fault Refusal :=
  issue (.sendByte b) (sendByte b) s

/-- The operation of READ_BYTE (R161, R23). -/
def readByteBody (s : State) : State :=
  let v := readByte s
  setResult (zextByte v.1) v.2

/-- READ_BYTE (R161). -/
def execReadByte (s : State) : Host.Outcome State Fault Refusal :=
  issue .readByte readByteBody s

end Sys2Proof.Machine
end

