-- ==== Sys2Proof/Machine/Registry.lean ====
section
/-! DEFINITION. The Device Registry operations (42_registry.md): CLEAR, SELECT, COUNT. -/

namespace Sys2Proof.Machine

/-- Zero identity bytes 0 to `n - 1` of slot `k`. -/
def clearId (k : Byte) : Nat → State → State
  | 0, s => s
  | n + 1, s => memWrite (idAddr k n) 0#8 (clearId k n s)

/-- Zero the identities of slots 0 to `n - 1`. -/
def clearSlots : Nat → State → State
  | 0, s => s
  | n + 1, s => clearId (BitVec.ofNat 8 n) 8 (clearSlots n s)

/-- `Clear()` (R170). -/
def clearRegistry (s : State) : State := setCount 0#8 (clearSlots s.cfg.cap.toNat s)

/-- The last `n` iterations of `Select`'s loop (R172): send `ID[k][BYTEIDX]`. -/
def sendId (k : Byte) : Nat → State → State
  | 0, s => s
  | n + 1, s =>
    sendId k n
      (onDp (fun d => { d with byteidx := d.byteidx + 1#8 }) (sendByte (idByte k s.dp.byteidx.toNat s) s))

/-- `Select(k)` (R172). -/
def selectDevice (k : Byte) (s : State) : State :=
  sendId k 8 (onDp (fun d => { d with byteidx := 0#8 }) (sendByte s.cfg.cmdMatch s))

/-- CLEAR (R170). -/
def execClear (s : State) : Host.Outcome State Fault Refusal :=
  issue .clear clearRegistry s

/-- SELECT (R172): rejected when the slot does not exist. -/
def execSelect (k : Byte) (s : State) : Host.Outcome State Fault Refusal :=
  issueSlot k (.select k) (selectDevice k) s

/-- The operation of COUNT (R174). -/
def countBody (s : State) : State := setResult (zextByte s.count) s

/-- COUNT (R174). -/
def execCount (s : State) : Host.Outcome State Fault Refusal :=
  issue .count countBody s

end Sys2Proof.Machine
end

