-- ==== Sys2Proof/Machine/Convert.lean ====
section
/-! DEFINITION. The Read/Convert Protocol (44_read_convert.md): READ_ALL, START_CONVERSION, GET_TEMPERATURE, PROCESS. -/

namespace Sys2Proof.Machine

/-- Stage one of the first two scratchpad bytes (R29, R200). -/
def stage (b : Byte) (s : State) : State :=
  if s.dp.byteidx = 0#8 then onDp (fun d => { d with stg0 := b }) s
  else if s.dp.byteidx = 1#8 then onDp (fun d => { d with stg1 := b }) s
  else s

/-- The last `n` scratchpad bytes of a device (R200): read, stage, fold. -/
def readScratch : Nat → State → State
  | 0, s => s
  | n + 1, s =>
    let v := readByte s
    readScratch n
      (onDp (fun d => { d with crc := crc8Update d.crc v.1, byteidx := d.byteidx + 1#8 }) (stage v.1 v.2))

/-- The verdict on a block (R200, R202): commit the staged bytes when the accumulator is 0, else leave the cache. -/
def commitCache (s : State) : State :=
  if s.dp.crc = 0#8 then
    memWrite (cacheAddr s.dp.devidx 1) s.dp.stg1 (memWrite (cacheAddr s.dp.devidx 0) s.dp.stg0 s)
  else s

/-- One device of READ_ALL whose presence check answered (R200): select, read command, block, verdict. -/
def readBlock (s : State) : State :=
  commitCache (readScratch s.cfg.spLen.toNat
    (onDp (fun d => { d with crc := 0#8, byteidx := 0#8 }) (sendByte s.cfg.cmdReadMem (selectDevice s.dp.devidx s))))

/-- One device of READ_ALL (R200, R201): its presence check, then its block when present. -/
def readDevice (s : State) : State :=
  let p := checkPresence s
  if p.1 = 1#1 then readBlock p.2 else p.2

/-- The last `n` devices of READ_ALL, from DEVIDX on (R200). -/
def readDevices : Nat → State → State
  | 0, s => s
  | n + 1, s =>
    readDevices n (onDp (fun d => { d with devidx := d.devidx + 1#8 }) (readDevice s))

/-- `ReadAll()` (R200). -/
def readAll (s : State) : State :=
  readDevices s.count.toNat (onDp (fun d => { d with devidx := 0#8 }) s)

/-- The line left actively driven high when PARASITE is 1, and the event of it (R204, R205). -/
def strongPullUp (s : State) : State :=
  if s.cfg.parasite then emit .spu (drive .high s) else s

/-- `StartConversion()` (R204). -/
def startConversion (s : State) : State :=
  let p := checkPresence s
  if p.1 = 1#1 then
    strongPullUp (sendByte s.cfg.cmdConvert (sendByte s.cfg.cmdSkip p.2))
  else p.2

/-- The decode of two cached bytes for a device of family byte `family` (R207, R208, R210): exact, truncated toward zero. -/
def decodeTemp (c : Config) (family lo hi : Byte) : Word :=
  let t := rawTemp lo hi * 5
  BitVec.ofInt 32 (if family = c.hiresFamily then t.tdiv 8 else t)

/-- The operation of GET_TEMPERATURE (R207): the decode of an index below COUNT, else a free value (R209, log 8). -/
def getTemperatureBody (i : Byte) (s : State) : State :=
  if i < s.count then
    setResult (decodeTemp s.cfg (idByte i 0 s) (cacheByte i 0 s) (cacheByte i 1 s)) s
  else
    setResult (Config.freeTemp s.bus.draws) { s with bus := { s.bus with draws := s.bus.draws + 1 } }

/-- The operation of PROCESS (R212). -/
def processBody (s : State) : State :=
  let s1 := readAll s
  let p := checkPresence s1
  let s2 := if p.1 = 1#1 then startConversion p.2 else p.2
  setResult (zextByte s2.count) s2

/-- READ_ALL (R200). -/
def execReadAll (s : State) : Host.Outcome State Fault Refusal :=
  issueWithin (decide (s.count ≤ s.cfg.cap)) .readAll readAll s

/-- START_CONVERSION (R204). -/
def execStartConversion (s : State) : Host.Outcome State Fault Refusal :=
  issue .startConversion startConversion s

/-- GET_TEMPERATURE (R207). -/
def execGetTemperature (i : Byte) (s : State) : Host.Outcome State Fault Refusal :=
  issueWithin (decide (i < s.count → i < s.cfg.cap)) (.getTemperature i) (getTemperatureBody i) s

/-- PROCESS (R212). -/
def execProcess (s : State) : Host.Outcome State Fault Refusal :=
  issueWithin (decide (s.count ≤ s.cfg.cap)) .process processBody s

end Sys2Proof.Machine
end

