-- ==== Sys2Proof/Machine/Search.lean ====
section
/-! DEFINITION. The ROM Search Engine (43_rom_search.md): SEARCH_PASS, DISCOVER. -/

namespace Sys2Proof.Machine

/-- The number position `p` goes by in deviation values: `POS + BASE` (R180, R187). -/
def posNumber (c : Config) (p : Nat) : Byte := BitVec.ofNat 8 (p + c.base)

/-- The choice at a position that does not abort (the table of R181, with R187's recording on replay): the bit chosen and the
new deviation value. `n` is the position's number, `cur` the bit the slot holds there. -/
def searchChoice (v : SearchVariant) (n lastin : Byte) (cur ba bb : Bit) (newdev : Byte) : Bit × Byte :=
  if ba ≠ bb then (ba, newdev)
  else if n = lastin then (1#1, newdev)
  else if lastin < n then (0#1, n)
  else if v = .standard ∧ cur = 0#1 then (cur, n)
  else (cur, newdev)

/-- The two reads of a position into BA and BB (R180). -/
def readPair (s : State) : State :=
  let a := readBit s
  let b := readBit (onDp (fun d => { d with ba := a.1 }) a.2)
  onDp (fun d => { d with bb := b.1 }) b.2

/-- The choice, the write into the slot and the write slot of a position that does not abort (R180, R183). -/
def takeBranch (s : State) : State :=
  let c := searchChoice s.cfg.variant (posNumber s.cfg s.dp.pos.toNat) s.dp.lastin
    (idBit s.dp.wslot s.dp.pos.toNat s) s.dp.ba s.dp.bb s.dp.newdev
  let s1 := onDp (fun d => { d with ch := c.1, newdev := c.2 }) s
  onDp (fun d => { d with pos := d.pos + 1#7 }) (writeBit s1.dp.ch (setIdBit s1.dp.wslot s1.dp.pos.toNat s1.dp.ch s1))

/-- The last `n` positions of a pass (R180, R184): the value returned and the state. -/
def searchFrom : Nat → State → Byte × State
  | 0, s => (s.dp.newdev, setLastdev s.dp.newdev s)
  | n + 1, s =>
    let s1 := readPair s
    if s1.dp.ba = 1#1 ∧ s1.dp.bb = 1#1 then (sentinel, setLastdev sentinel s1)
    else searchFrom n (takeBranch s1)

/-- `SearchPass(k, last)` (R180). -/
def searchPass (k last : Byte) (s : State) : Byte × State :=
  searchFrom 64 (onDp (fun d => { d with pos := 0#7 })
    (sendByte s.cfg.cmdSearch (onDp (fun d => { d with wslot := k, lastin := last, newdev := 0#8 }) s)))

/-- Copy identity bytes 0 to `n - 1` of slot `src` to slot `dst` (R191). -/
def copyId (src dst : Byte) : Nat → State → State
  | 0, s => s
  | n + 1, s =>
    let s1 := copyId src dst n s
    memWrite (idAddr dst n) (idByte src n s1) s1

/-- Seed slot NPASS from the prior pass's identity, except before the first pass (R190, R191). -/
def seedSlot (s : State) : State :=
  if s.dp.npass = 0#8 then s else copyId (s.dp.npass - 1#8) s.dp.npass 8 s

/-- `COUNT <- NPASS` (R190). -/
def takeCount (s : State) : State := setCount s.dp.npass s

/-- At most `fuel` more passes of `Discover`'s loop (R190, R192). With `fuel` the passes CAP still allows, the loop ends by
one of its own exits before the fuel does. -/
def discoverLoop : Nat → Byte → State → State
  | 0, _, s => takeCount s
  | fuel + 1, last, s =>
    let p := checkPresence s
    if p.1 = 0#1 then setCount 0#8 p.2
    else
      let s1 := seedSlot p.2
      let d := searchPass s1.dp.npass last s1
      if d.1 = sentinel then takeCount d.2
      else
        let s2 := onDp (fun r => { r with npass := r.npass + 1#8 }) d.2
        if d.1 = 0#8 then takeCount s2
        else if s2.dp.npass = s2.cfg.cap then takeCount s2
        else discoverLoop fuel d.1 s2

/-- `Discover()` (R190). -/
def discover (s : State) : State :=
  discoverLoop s.cfg.cap.toNat 0#8
    (onDp (fun d => { d with npass := 0#8 }) (setLastdev 0#8 (clearRegistry s)))

/-- The operation of SEARCH_PASS (R180, R23). -/
def searchPassBody (k last : Byte) (s : State) : State :=
  let d := searchPass k last s
  setResult (zextByte d.1) d.2

/-- SEARCH_PASS (R180): rejected when the slot does not exist. -/
def execSearchPass (k last : Byte) (s : State) : Host.Outcome State Fault Refusal :=
  issueSlot k (.searchPass k last) (searchPassBody k last) s

/-- The operation of DISCOVER (R190, R23). -/
def discoverBody (s : State) : State :=
  let s1 := discover s
  setResult (zextByte s1.count) s1

/-- DISCOVER (R190). -/
def execDiscover (s : State) : Host.Outcome State Fault Refusal :=
  issueWithin (decide (0 < s.cfg.cap.toNat)) .discover discoverBody s

end Sys2Proof.Machine
end

