-- ==== Sys2Proof/Machine/Dispatch.lean ====
section
/-! DEFINITION. One arm per command: the host issues command i in state s (10_state.md rule R21),
the reset input released: while it is asserted no command is issued (rule R270, HostBus.lean). -/

namespace Sys2Proof.Machine

def exec (i : Instr) (s : State) : Host.Outcome State Fault Refusal :=
  match i with
  | .checkPresence => Sys2Proof.Machine.execCheckPresence s
  | .writeBit v => Sys2Proof.Machine.execWriteBit v s
  | .readBit => Sys2Proof.Machine.execReadBit s
  | .sendByte b => Sys2Proof.Machine.execSendByte b s
  | .readByte => Sys2Proof.Machine.execReadByte s
  | .clear => Sys2Proof.Machine.execClear s
  | .select k => Sys2Proof.Machine.execSelect k s
  | .count => Sys2Proof.Machine.execCount s
  | .searchPass k last => Sys2Proof.Machine.execSearchPass k last s
  | .discover => Sys2Proof.Machine.execDiscover s
  | .readAll => Sys2Proof.Machine.execReadAll s
  | .startConversion => Sys2Proof.Machine.execStartConversion s
  | .getTemperature k => Sys2Proof.Machine.execGetTemperature k s
  | .process => Sys2Proof.Machine.execProcess s
  | .crc8Update c b => Sys2Proof.Machine.execCrc8Update c b s

end Sys2Proof.Machine
end

