-- ==== Sys2Proof/Machine/HostBus.lean ====
section
/-! DEFINITION. What the host does to OWC: the register space (20_memory.md section 2), the command register
(10_state.md rule R21), the reset input (70_reset_and_hazards.md section 1), and when its actions land. -/

namespace Sys2Proof.Machine

/-- The only host accesses there are (R65): 32 bits wide, at a multiple of 4. -/
def supported (off size : Nat) : Bool := decide (size = 4) && decide (off % 4 = 0)

/-- The word of the registry window over registry byte address `a` (R67). -/
def windowWord (a : Nat) (s : State) : Word :=
  leWord (memRead a s) (memRead (a + 1) s) (memRead (a + 2) s) (memRead (a + 3) s)

/-- What a host read returns at IDLE (R20, R66, R67): CMD and every reserved offset read 0. -/
def regRead (off : Nat) (s : State) : Word :=
  if off = 0x04 then statusWord s
  else if off = 0x08 then s.result
  else if off = 0x0C then zextByte s.count
  else if off = 0x10 then zextByte s.lastdev
  else if 0x100 ≤ off then windowWord (off - 0x100) s
  else 0#32

/-- The offsets whose read is a draw while BUSY (R69): every register but STATUS, and the window (log 7). -/
def drawnWhileBusy (c : Config) (off : Nat) : Bool :=
  decide (off = 0x00) || decide (off = 0x08) || decide (off = 0x0C) || decide (off = 0x10) ||
  (decide (0x100 ≤ off) && decide (off < 0x100 + 16 * c.cap.toNat))

/-- `HostRead(off)` (R65 to R69): the value returned goes to the log of host reads. -/
def hostRead (off : Nat) (s : State) : State :=
  if isBusy s && drawnWhileBusy s.cfg off then
    { s with
      readLog := s.readLog ++ [(off, Config.freeRead s.bus.draws)]
      bus := { s.bus with draws := s.bus.draws + 1 } }
  else { s with readLog := s.readLog ++ [(off, regRead off s)] }

/-- `HostWrite(off, w)` at any offset but CMD's (R22, R66 to R68): STATUS takes its write, every other offset ignores it.
While reset is asserted no write has an effect: every piece of state has its reset value then (R270). -/
def hostWrite (off : Nat) (w : Word) (s : State) : State :=
  if s.inReset then s else if off = 0x04 then writeStatus w s else s

/-- A write of `w` to CMD (R21, R102, R240): rejected, or the command it encodes.
While reset is asserted it starts nothing and sets nothing (R270). -/
def hostCommand (w : Word) (s : State) : Host.Outcome State Fault Refusal :=
  if s.inReset then .next s
  else if isBusy s then .next (reject s)
  else
    match decode w with
    | .error _ => .next (reject s)
    | .ok i => exec i s

/-- Reset with no operation running (R270, R271): every piece of OWC's state at its reset value, the parameters and the
line's other side as they were. -/
def resetMachine (s : State) : State :=
  { State.resetWith s.cfg with bus := s.bus, host := s.host, readLog := s.readLog }

/-- The reset input takes a level with no operation running (R270): asserted, OWC is in its reset state; released, it is so at
that moment; released again, nothing happens. -/
def setReset (asserted : Bool) (s : State) : State :=
  if asserted then { resetMachine s with inReset := true }
  else if s.inReset then resetMachine s
  else s

/-- One action of the host in state `s`, IDLE or BUSY (R65 to R69, R240, R270). -/
def hostAccess (act : HostAct) (s : State) : Host.Outcome State Fault Refusal :=
  match act with
  | .read off size => if supported off size then .next (hostRead off s) else .refused .unsupportedAccess
  | .write off size w =>
    if supported off size then (if off = 0 then hostCommand w s else .next (hostWrite off w s))
    else .refused .unsupportedAccess
  | .reset asserted => .next (setReset asserted s)

/-- The gap the host leaves before an action (R82, R113): the driver holds its state and the clock runs on. -/
def idleFor (n : Nat) (s : State) : State :=
  if n = 0 then s
  else { s with bus := { s.bus with clock := s.bus.clock + n, wave := s.bus.wave ++ [.hold s.drv n] } }

/-- The duration of an event's time slot (R80, R301). -/
def eventTicks (c : Config) : BusEvent → Nat
  | .rst _ => c.tP
  | .w _ => c.tW
  | .r _ => c.tR
  | .spu => 0

/-- The events of a running operation whose slots are complete `d` ticks into it (R247, R272). -/
def cutEvents (c : Config) : Nat → List BusEvent → List BusEvent
  | _, [] => []
  | d, e :: es => if eventTicks c e ≤ d then e :: cutEvents c (d - eventTicks c e) es else []

/-- The first `d` ticks of a waveform (R272). -/
def cutWave : Nat → List WaveItem → List WaveItem
  | _, [] => []
  | d, .sample v :: ws => if d = 0 then [] else .sample v :: cutWave d ws
  | d, .hold x n :: ws =>
    if d = 0 then [] else if n < d then .hold x n :: cutWave (d - n) ws else [.hold x d]

/-- The line's other side after the time slots of these events. -/
def lineAfter (c : Config) : List BusEvent → Env → Nat → Env
  | [], e, _ => e
  | .rst _ :: es, e, n => lineAfter c es (envReset e n).env (envReset e n).draws
  | .r _ :: es, e, n => lineAfter c es (envRead e n).env (envRead e n).draws
  | .w v :: es, e, n => lineAfter c es (envWrite c v e) n
  | .spu :: es, e, n => lineAfter c es e n

/-- Reset asserted `d` ticks into an operation that led from `s0` to `t` (R270, R272): OWC is in its reset state at once, and the
current slot is cut short.
The line's other side has seen the slots that were complete; what it makes of the cut one is free (U12, log 12). -/
def cutByReset (s0 t : State) (d : Nat) (rest : List HostEvent) : State :=
  { State.resetWith t.cfg with
    inReset := true
    bus :=
      { env := (lineAfter t.cfg (cutEvents t.cfg d (t.bus.events.drop s0.bus.events.length)) s0.bus.env
          s0.bus.draws).unsettle
        draws := t.bus.draws
        clock := s0.bus.clock + d
        events := s0.bus.events ++ cutEvents t.cfg d (t.bus.events.drop s0.bus.events.length)
        wave := s0.bus.wave ++ cutWave d (t.bus.wave.drop s0.bus.wave.length) }
    host := rest
    readLog := t.readLog }

/-- The state as the host meets it while `op` runs (R69): BUSY is 1, and SPU is 0, since an operation that takes time begins
with `Drive(LOW)` and drives HIGH only at its very end (R204, log 4). -/
def busyView (op : Instr) (t : State) : State := { t with seq := .busy op, drv := .rel }

/-- The host's actions that land while `op` runs (R69, R240 (1), R272): `s0` is the state at acceptance, `dur` how long the
operation takes, `t` the state at its end, `el` the ticks elapsed at the last action served.
An action that waits for BUSY = 0, or that lands at the end or later, stays in the queue (log 4). -/
def serveBusy (op : Instr) (s0 : State) (dur : Nat) :
    List HostEvent → Nat → State → Host.Outcome State Fault Refusal
  | [], _, t => .next { t with host := [] }
  | e :: rest, el, t =>
    match e.arrival with
    | .polled _ => .next { t with host := e :: rest }
    | .timed delay =>
      if el + delay < dur then
        match e.act with
        | .reset true => .next (cutByReset s0 t (el + delay) rest)
        | .reset false => serveBusy op s0 dur rest (el + delay) t
        | .read off size =>
          match hostAccess (.read off size) (busyView op t) with
          | .next v => serveBusy op s0 dur rest (el + delay) { v with seq := t.seq, drv := t.drv }
          | .fault f => .fault f
          | .refused r => .refused r
        | .write off size w =>
          match hostAccess (.write off size w) (busyView op t) with
          | .next v => serveBusy op s0 dur rest (el + delay) { v with seq := t.seq, drv := t.drv }
          | .fault f => .fault f
          | .refused r => .refused r
      else .next { t with host := { e with arrival := .timed (el + delay - dur) } :: rest }

/-- The command a host action starts, if the machine takes it: the one its word encodes when the offset is CMD's (R21). -/
def commandOf : HostAct → Option Instr
  | .read _ _ => none
  | .reset _ => none
  | .write off _ w =>
    if off = 0 then
      match decode w with
      | .ok i => some i
      | .error _ => none
    else none

/-- The ticks the host lets pass before an action that finds OWC at IDLE (R82). -/
def gapOf : Arrival → Nat
  | .polled gap => gap
  | .timed delay => delay

/-- The host's action `e` when its turn comes, `s.host` being the actions after it: the gap before it, the action, and for a
command the actions that land while it runs. -/
def serveHost (e : HostEvent) (s : State) : Host.Outcome State Fault Refusal :=
  let s1 := idleFor (gapOf e.arrival) s
  match if s.inReset then none else commandOf e.act with
  | none => hostAccess e.act s1
  | some op =>
    match hostAccess e.act s1 with
    | .next t => serveBusy op s1 (t.bus.clock - s1.bus.clock) s.host 0 t
    | .fault f => .fault f
    | .refused r => .refused r

/-- The next action of the host, or waiting for one (R255, R270). -/
def serveNext (s : State) : Host.Outcome State Fault Refusal :=
  match s.host with
  | [] => .next s
  | e :: rest => serveHost e { s with host := rest }

/-- The host's write of a command word, to be served next, at IDLE with reset released (R21). -/
def placeCommand (w : Word) (s : State) : State :=
  { s with seq := .idle, inReset := false, host := { arrival := .polled 0, act := .write 0 4 w } :: s.host }

/-- Real time since the start, in nanoseconds: the clock in ticks of `TICK` (R6, R76, log 15). -/
def elapsedNs (s : State) : Nat := s.bus.clock * s.cfg.tickNs

end Sys2Proof.Machine
end

