-- ==== Sys2Proof/Machine/Step.lean ====
section
/-! DEFINITION. One step of the machine: the host's next action (10_state.md rules R40, R41). -/

namespace Sys2Proof.Machine

/-- One step: the host's next action, a command being run to completion (R41); with none, OWC waits (R255). -/
def step (s : State) : Host.Outcome State Fault Refusal := serveNext s

/-- The state with a command word of `nbits` bits written to CMD as the host's next action (R21, log 3).
Bits at or above `nbits` are 0. -/
def State.withFetchWord (s : State) (nbits w : Nat) : State :=
  placeCommand (BitVec.ofNat 32 (w % 2 ^ nbits)) s

end Sys2Proof.Machine
end

