-- ==== Sys2Proof/Machine/Devices.lean ====
section
/-! DEFINITION. The reference responders as 20_memory.md rule R90 describes them: what a scratchpad holds (log 6). -/

namespace Sys2Proof.Machine

/-- A scratchpad of `SP_LEN` bytes (R90): the data, filled up with zeros or cut, and the CRC-8 of it. -/
def scratchpad (c : Config) (data : List Byte) : List Byte :=
  let d := (data ++ List.replicate (c.spLen.toNat - 1) 0x00#8).take (c.spLen.toNat - 1)
  d ++ [crcFold 0x00#8 d]

/-- A reference responder (R90) of this identity with this data in its scratchpad, idle. -/
def newResponder (c : Config) (rid : BitVec 64) (data : List Byte) : Responder :=
  { rid := rid, pad := scratchpad c data, mode := .idle, conversions := 0 }

/-- What R90 says of a scratchpad: `SP_LEN` bytes, the last one the CRC-8 of the others. -/
def Responder.wf (c : Config) (r : Responder) : Bool :=
  decide (r.pad.length = c.spLen.toNat) && decide (r.pad = r.pad.dropLast ++ [crcFold 0x00#8 r.pad.dropLast])

/-- The reference responders on the line, where there are any, are as R90 says. -/
def Env.wf (c : Config) : Env → Bool
  | .oracle _ => true
  | .responders rs => rs.all (Responder.wf c)
  | .unsettled rs => rs.all (Responder.wf c)

end Sys2Proof.Machine
end

