-- ==== Sys2Proof/Safety.lean ====
section
/-! DEFINITION. What the statements are made in terms of: the invariant of the machine, which parts of the state two states
share, and the sequences the spec's frames put on the line. -/

namespace Sys2Proof.Machine

/-- The values LASTDEV may hold (R126): under SOURCE 0..63 or the sentinel, under STANDARD 0..64 or the sentinel. -/
def legalDeviation (v : SearchVariant) (d : Byte) : Bool :=
  match v with
  | .source => decide (d.toNat ≤ 63) || decide (d = sentinel)
  | .standard => decide (d.toNat ≤ 64) || decide (d = sentinel)

/-- Every listed address holds storage (R60, R61). -/
def memInside (c : Config) (m : List Host.Cell) : Bool := m.all (fun x => implemented c x.1)

/-- The invariant of the machine between steps. -/
structure State.Inv (s : State) : Prop where
  /-- The parameters are in the ranges of R5 and R6. -/
  cfgOk : s.cfg.wf = true
  /-- The registry byte memory is in canonical form. -/
  memWf : Memory.wf s.mem = true
  /-- It lists only addresses that hold storage (R60, R61). -/
  memIn : memInside s.cfg s.mem = true
  /-- `COUNT <= CAP` (R24, R35). -/
  countLe : s.count ≤ s.cfg.cap
  /-- LASTDEV is a deviation value (R126). -/
  lastdevOk : legalDeviation s.cfg.variant s.lastdev = true
  /-- SEQ is IDLE between steps (R40, R41). -/
  seqIdle : s.seq = .idle
  /-- DRV is released, or high where PARASITE is 1 (R42, R204). -/
  drvOk : s.drv = .rel ∨ (s.drv = .high ∧ s.cfg.parasite = true)
  /-- TICKCNT does not run between operations (R252). -/
  tickIdle : s.dp.tickcnt = 0
  /-- While the reset input is asserted every piece of OWC's state has its reset value (R270). -/
  resetHeld : s.inReset = true →
    s = { State.resetWith s.cfg with inReset := true, bus := s.bus, host := s.host, readLog := s.readLog }

/-- What no operation on the line alone changes: everything but the driver, the datapath, the line's other side, the clock
and the histories. -/
structure SameOutsideLine (s t : State) : Prop where
  cfg : t.cfg = s.cfg
  inReset : t.inReset = s.inReset
  ill : t.ill = s.ill
  result : t.result = s.result
  count : t.count = s.count
  lastdev : t.lastdev = s.lastdev
  mem : t.mem = s.mem
  seq : t.seq = s.seq
  host : t.host = s.host
  readLog : t.readLog = s.readLog

/-- What R45 calls live, with what the model adds around OWC: everything but the datapath registers. -/
structure SameLive (s t : State) : Prop where
  cfg : t.cfg = s.cfg
  ill : t.ill = s.ill
  result : t.result = s.result
  count : t.count = s.count
  lastdev : t.lastdev = s.lastdev
  mem : t.mem = s.mem
  seq : t.seq = s.seq
  drv : t.drv = s.drv
  bus : t.bus = s.bus
  host : t.host = s.host
  readLog : t.readLog = s.readLog
  inReset : t.inReset = s.inReset

/-- The commands one after the other, if each answers a next state. -/
def execAll : List Instr → State → Option State
  | [], s => some s
  | i :: is, s =>
    match exec i s with
    | .next t => execAll is t
    | .fault _ => none
    | .refused _ => none

/-- The commands with no bus activity in a state (R205). -/
def noBusActivity (s : State) : Instr → Bool
  | .clear => true
  | .count => true
  | .getTemperature _ => true
  | .crc8Update _ _ => true
  | .readAll => decide (s.count = 0#8)
  | .checkPresence => false
  | .writeBit _ => false
  | .readBit => false
  | .sendByte _ => false
  | .readByte => false
  | .select _ => false
  | .searchPass _ _ => false
  | .discover => false
  | .startConversion => false
  | .process => false

/-- The registry slot holds the identity of this responder (R63, R90). -/
def holdsIdentity (k : Byte) (s : State) (r : Responder) : Bool :=
  (List.range 64).all (fun p => decide (idBit k p s = r.rid.extractLsb' p 1))

/-- The state after reset of a machine built with `c`, reference responders of these identities on the line, their scratchpads
holding zeros. -/
def resetWithDevices (c : Config) (rids : List (BitVec 64)) : State :=
  { State.resetWith c with bus := { Bus.start with env := .responders (rids.map (fun rid => newResponder c rid [])) } }

/-- Two outcomes that agree in kind, reason and live state. -/
def SameOutcome : Host.Outcome State Fault Refusal → Host.Outcome State Fault Refusal → Prop
  | .next s, .next t => SameLive s t
  | .fault f, .fault g => f = g
  | .refused f, .refused g => f = g
  | .next _, .fault _ => False
  | .next _, .refused _ => False
  | .fault _, .next _ => False
  | .fault _, .refused _ => False
  | .refused _, .next _ => False
  | .refused _, .fault _ => False

/-- The datapath registers SEND_BYTE, READ_BYTE and START_CONVERSION may change (R160, R161, R204). -/
def ByteRegs (d e : Datapath) : Prop := e = { d with sr := e.sr, bitcnt := e.bitcnt, tickcnt := e.tickcnt }

/-- The datapath registers SELECT may change (R172). -/
def SelectRegs (d e : Datapath) : Prop :=
  e = { d with sr := e.sr, bitcnt := e.bitcnt, byteidx := e.byteidx, tickcnt := e.tickcnt }

/-- The datapath registers SEARCH_PASS may change (R180). -/
def PassRegs (d e : Datapath) : Prop :=
  e = { d with
    sr := e.sr, bitcnt := e.bitcnt, pos := e.pos, ba := e.ba, bb := e.bb, ch := e.ch, lastin := e.lastin
    newdev := e.newdev, wslot := e.wslot, tickcnt := e.tickcnt }

/-- The datapath registers DISCOVER may change (R190): those of its passes, and NPASS. -/
def DiscoverRegs (d e : Datapath) : Prop :=
  e = { d with
    sr := e.sr, bitcnt := e.bitcnt, pos := e.pos, ba := e.ba, bb := e.bb, ch := e.ch, lastin := e.lastin
    newdev := e.newdev, wslot := e.wslot, npass := e.npass, tickcnt := e.tickcnt }

/-- The datapath registers READ_ALL and PROCESS may change (R200, R212). -/
def ReadRegs (d e : Datapath) : Prop :=
  e = { d with
    sr := e.sr, bitcnt := e.bitcnt, crc := e.crc, stg0 := e.stg0, stg1 := e.stg1, devidx := e.devidx
    byteidx := e.byteidx, tickcnt := e.tickcnt }

/-- The waveform of a presence check (R110), `low` saying whether some responder pulls low at the sample. -/
def presenceWave (c : Config) (low : Bool) : List WaveItem :=
  [.hold .low c.tRstl, .hold .rel c.tPds, .sample (BitVec.ofBool !low), .hold .rel c.tRstr]

/-- The waveform of a write slot (R111): the additional interval is low for a 0 and released for a 1. -/
def writeWave (c : Config) (v : Bit) : List WaveItem :=
  if v = 1#1 then [.hold .low c.tWl, .hold .rel c.tWrec, .hold .rel c.tWx]
  else [.hold .low c.tWl, .hold .low c.tWx, .hold .rel c.tWrec]

/-- The waveform of a read slot (R112), `low` saying whether some responder pulls low at the sample. -/
def readWave (c : Config) (low : Bool) : List WaveItem :=
  [.hold .low c.tRl, .hold .rel c.tRs, .sample (BitVec.ofBool !low), .hold .rel c.tRp]

/-- The waveform of an event's time slot (R80, R110 to R112). -/
def eventWave (c : Config) : BusEvent → List WaveItem
  | .rst p => presenceWave c (decide (p = 1#1))
  | .w v => writeWave c v
  | .r v => readWave c (decide (v = 0#1))
  | .spu => []

/-- How long a piece of waveform lasts. -/
def waveTicks : WaveItem → Nat
  | .hold _ n => n
  | .sample _ => 0

/-- What the line answered in an event: whether some responder pulled low at its sample, if it has one (R80, R77). -/
def heard : BusEvent → List Bool
  | .rst p => [decide (p = 1#1)]
  | .r v => [decide (v = 0#1)]
  | .w _ => []
  | .spu => []

/-- These events are the answers of an oracle with this script, as far as it goes, and `env` is the oracle after them (R43). -/
def Answered (script : List Bool) (new : List BusEvent) (env : Env) : Prop :=
  (new.flatMap heard).take script.length = script.take (new.flatMap heard).length ∧
    env = .oracle (script.drop (new.flatMap heard).length)

/-- The oracle script that answers the two reads of each position with these pairs, true where a responder pulls low. -/
def pairScript (pairs : List (Bool × Bool)) : List Bool := pairs.flatMap (fun x => [x.1, x.2])

/-- The eight bits of a byte in the order they travel (R70). -/
def lsbFirst (b : Byte) : List Bit := (List.range 8).map (bitOf b)

/-- `TX(b)` of 30_encoding.md section 4 as bus events. -/
def txEvents (b : Byte) : List BusEvent := (lsbFirst b).map .w

/-- The oracle script that answers eight read slots with the bits of `b` (R71, R112): a responder pulls low for a 0. -/
def byteScript (b : Byte) : List Bool := (lsbFirst b).map (fun v => decide (v = 0#1))

/-- What a loop-back environment answers in the read slot for an event (R162): it pulls low for a 0 that was written. -/
def echo : BusEvent → Bool
  | .w v => decide (v = 0#1)
  | .rst _ => false
  | .r _ => false
  | .spu => false

/-- The identity of a slot, byte 0 first (R124). -/
def identity (k : Byte) (s : State) : List Byte := (List.range 8).map (fun j => idByte k j s)

/-- The select frame (R120) as bus events. -/
def selectEvents (k : Byte) (s : State) : List BusEvent :=
  txEvents s.cfg.cmdMatch ++ (identity k s).flatMap txEvents

/-- `RX` of 30_encoding.md section 4 as bus events: eight read slots that sample the bits of `b`. -/
def rxEvents (b : Byte) : List BusEvent := (lsbFirst b).map .r

/-- The read frame of slot `k` (R122) as bus events: no responder present, or a block of scratchpad bytes. -/
def readFrame (k : Byte) (s : State) : Option (List Byte) → List BusEvent
  | none => [.rst 0#1]
  | some block =>
    .rst 1#1 :: (selectEvents k s ++ (txEvents s.cfg.cmdReadMem ++ block.flatMap rxEvents))

/-- The read frames of the slots `k`, `k + 1`, ..., one for each of the line's answers (R200). -/
def readFrames (s : State) : Nat → List (Option (List Byte)) → List BusEvent
  | _, [] => []
  | k, a :: as => readFrame (BitVec.ofNat 8 k) s a ++ readFrames s (k + 1) as

/-- The oracle script by which the line gives that answer: the presence sample, then the bits of the block (R71, R112). -/
def answerScript : Option (List Byte) → List Bool
  | none => [false]
  | some block => true :: block.flatMap byteScript

/-- The convert frame (R123, R204) as bus events, `p` saying what its presence check sampled. -/
def convertFrame (c : Config) (p : Bit) : List BusEvent :=
  .rst p ::
    (if p = 1#1 then txEvents c.cmdSkip ++ (txEvents c.cmdConvert ++ if c.parasite then [.spu] else []) else [])

/-- The line's answer for one device lets its block be committed (R200, R221): present, and the block folds to 0. -/
def committed : Option (List Byte) → Bool
  | none => false
  | some block => decide (crcFold 0#8 block = 0#8)

/-- A position of a search pass that did not abort: the two reads and the bit written (R121, R180). -/
structure Position where
  ba : Bit
  bb : Bit
  ch : Bit
  deriving DecidableEq, Repr

/-- The three time slots of a position (R121). -/
def Position.events (x : Position) : List BusEvent := [.r x.ba, .r x.bb, .w x.ch]

/-- Position `p` obeys the table of R181: `last` is the deviation value given to the pass, `seed` the bit the slot held. -/
structure Position.Follows (c : Config) (last : Byte) (seed : Bit) (p : Nat) (x : Position) : Prop where
  noAbort : ¬ (x.ba = 1#1 ∧ x.bb = 1#1)
  noChoice : x.ba ≠ x.bb → x.ch = x.ba
  atLast : x.ba = 0#1 → x.bb = 0#1 → posNumber c p = last → x.ch = 1#1
  beyond : x.ba = 0#1 → x.bb = 0#1 → last < posNumber c p → x.ch = 0#1
  replay : x.ba = 0#1 → x.bb = 0#1 → posNumber c p < last → x.ch = seed

/-- Position `p` records itself as the new deviation point (R181, and R187 (2) under STANDARD). -/
def Position.records (c : Config) (last : Byte) (p : Nat) (x : Position) : Bool :=
  decide (x.ba = 0#1) && decide (x.bb = 0#1) &&
    (decide (last < posNumber c p) ||
      (decide (c.variant = .standard) && decide (posNumber c p < last) && decide (x.ch = 0#1)))

/-- The deviation value after positions `p`, `p + 1`, ...: the number of the last one that records itself, else `d`. -/
def devAfter (c : Config) (last : Byte) : Nat → Byte → List Position → Byte
  | _, d, [] => d
  | p, d, x :: xs => devAfter c last (p + 1) (if x.records c last p then posNumber c p else d) xs

/-- The bits a pass chose, position 0 first: the identity it resolved (R183). -/
def passBits (p : List Position) : List Bit := p.map Position.ch

/-- Complete passes one after the other (R190, R191): the first with deviation value `last` over the seed `seed`, each later one
with the value the pass before it returned over the identity that pass resolved; none goes on after a pass that returned 0. -/
def passesFrom (c : Config) : Byte → List Bit → List (List Position) → Prop
  | _, _, [] => True
  | last, seed, p :: ps =>
    p.length = 64 ∧ (∀ i (h : i < p.length), (p[i]).Follows c last (seed.getD i 0#1) i) ∧
    (ps ≠ [] → devAfter c last 0 0#8 p ≠ 0#8) ∧ passesFrom c (devAfter c last 0 0#8 p) (passBits p) ps

/-- The deviation value the last of these passes returned. -/
def lastAfter (c : Config) : Byte → List (List Position) → Byte
  | last, [] => last
  | last, p :: ps => lastAfter c (devAfter c last 0 0#8 p) ps

/-- The identity the last of these passes resolved. -/
def seedAfter : List Bit → List (List Position) → List Bit
  | seed, [] => seed
  | _, p :: ps => seedAfter (passBits p) ps

/-- How a discovery ends (R192): presence failed, a pass aborted after the positions `xs`, a pass returned 0, CAP reached. -/
inductive DiscoveryEnd where
  | absent
  | collision (xs : List Position)
  | noMore
  | capacity
  deriving DecidableEq, Repr

/-- A complete pass of a discovery with its presence check, as bus events (R121, R190). -/
def passEvents (c : Config) (p : List Position) : List BusEvent :=
  .rst 1#1 :: (txEvents c.cmdSearch ++ p.flatMap Position.events)

/-- What the end of a discovery puts on the line. -/
def DiscoveryEnd.events (c : Config) : DiscoveryEnd → List BusEvent
  | .absent => [.rst 0#1]
  | .collision xs => .rst 1#1 :: (txEvents c.cmdSearch ++ (xs.flatMap Position.events ++ [.r 1#1, .r 1#1]))
  | .noMore => []
  | .capacity => []

/-- How many slots the end of a discovery writes: the one an aborted pass was filling (R194). -/
def DiscoveryEnd.slots : DiscoveryEnd → Nat
  | .absent => 0
  | .collision _ => 1
  | .noMore => 0
  | .capacity => 0

/-- Address `a` is an identity byte of one of the slots `k` to `k + n - 1`. -/
def isIdIn (k n a : Nat) : Prop := ∃ i j : Nat, k ≤ i ∧ i < k + n ∧ j < 8 ∧ a = 16 * i + j

/-- COUNT, LASTDEV and the slot of an aborted pass at the end of a discovery that began its loop with `n` slots filled, the
deviation value `last` and the seed `seed`, and completed the passes `ps` (R192 to R195). -/
def DiscoveryEnd.Holds (c : Config) (n : Nat) (last : Byte) (seed : List Bit) (ps : List (List Position)) (t : State) :
    DiscoveryEnd → Prop
  | .absent =>
    n + ps.length < c.cap.toNat ∧ t.count = 0#8 ∧ t.lastdev = lastAfter c last ps ∧
      (ps ≠ [] → lastAfter c last ps ≠ 0#8)
  | .collision xs =>
    n + ps.length < c.cap.toNat ∧ t.count.toNat = n + ps.length ∧ t.lastdev = sentinel ∧
      (ps ≠ [] → lastAfter c last ps ≠ 0#8) ∧ xs.length < 64 ∧
      (∀ i (h : i < xs.length), (xs[i]).Follows c (lastAfter c last ps) ((seedAfter seed ps).getD i 0#1) i) ∧
      ∀ q, q < 64 → idBit (BitVec.ofNat 8 (n + ps.length)) q t =
        if h : q < xs.length then (xs[q]).ch else (seedAfter seed ps).getD q 0#1
  | .noMore =>
    n + ps.length ≤ c.cap.toNat ∧ t.count.toNat = n + ps.length ∧ ps ≠ [] ∧ t.lastdev = 0#8 ∧
      lastAfter c last ps = 0#8
  | .capacity =>
    n + ps.length = c.cap.toNat ∧ t.count = c.cap ∧ ps ≠ [] ∧ t.lastdev = lastAfter c last ps ∧
      t.lastdev ≠ 0#8 ∧ t.lastdev ≠ sentinel

/-- Duration of a complete search pass (R301). -/
def passTicks (c : Config) : Nat := 8 * c.tW + 64 * (2 * c.tR + c.tW)

/-- Duration of a search pass aborted at position `q` (R301). -/
def abortTicks (c : Config) (q : Nat) : Nat := 8 * c.tW + q * (2 * c.tR + c.tW) + 2 * c.tR

end Sys2Proof.Machine
end

