-- ==== Sys2Proof/WellFormed.lean ====
section
/-! DEFINITION. Well-formed commands: condition (4) of 30_encoding.md rule R102. -/

namespace Sys2Proof

/-- Rule R102 (4): the registry slot of SELECT and of SEARCH_PASS exists; every other operand is legal. -/
def Instr.wellFormed (c : Config) : Instr → Bool
  | .select k => decide (k < c.cap)
  | .searchPass k _ => decide (k < c.cap)
  | .checkPresence => true
  | .writeBit _ => true
  | .readBit => true
  | .sendByte _ => true
  | .readByte => true
  | .clear => true
  | .count => true
  | .discover => true
  | .readAll => true
  | .startConversion => true
  | .getTemperature _ => true
  | .process => true
  | .crc8Update _ _ => true

end Sys2Proof
end

