-- ==== Sys2Proof/Certificates/Slice0/Obligations.lean ====
section
/-! DEFINITION. The statements about OWC for the provers, from the numbered rules of the spec.
"Idle" below is `SEQ = IDLE`; `State.Inv` is the invariant, itself a statement (`EveryStepKeepsTheInvariant`). -/

open Sys2Proof Sys2Proof.Machine

/-! ## The command word -/

/-- R100, R103, R106: the decoder reads every command back from the word an assembler writes for it. -/
def Obligations.EncodedCommandDecodes : Prop := ∀ i : Instr, decode (encode i) = .ok i

/-- R105: a word selects an operation exactly when mask 0xFF0000FF leaves its code. -/
def Obligations.MaskAndMatchSelectTheOperation : Prop :=
  ∀ (w : Word) (op : Byte), 1 ≤ op.toNat → op.toNat ≤ 0x0F →
    (w &&& 0xFF0000FF#32 = op.zeroExtend 32 ↔ ∃ i, decode w = .ok i ∧ i.opcode = op)

/-- R101, R103: the operands each code takes, every field it does not use and A[7:1] of WRITE_BIT being ignored. -/
def Obligations.CommandTakesOnlyTheOperandsItUses : Prop :=
  ∀ a b : Byte,
    decode (packWord 0x01#8 a b) = .ok .checkPresence ∧
    decode (packWord 0x02#8 a b) = .ok (.writeBit (bitOf a 0)) ∧
    decode (packWord 0x03#8 a b) = .ok .readBit ∧
    decode (packWord 0x04#8 a b) = .ok (.sendByte a) ∧
    decode (packWord 0x05#8 a b) = .ok .readByte ∧
    decode (packWord 0x06#8 a b) = .ok .clear ∧
    decode (packWord 0x07#8 a b) = .ok (.select a) ∧
    decode (packWord 0x08#8 a b) = .ok .count ∧
    decode (packWord 0x09#8 a b) = .ok (.searchPass a b) ∧
    decode (packWord 0x0A#8 a b) = .ok .discover ∧
    decode (packWord 0x0B#8 a b) = .ok .readAll ∧
    decode (packWord 0x0C#8 a b) = .ok .startConversion ∧
    decode (packWord 0x0D#8 a b) = .ok (.getTemperature a) ∧
    decode (packWord 0x0E#8 a b) = .ok .process ∧
    decode (packWord 0x0F#8 a b) = .ok (.crc8Update a b)

/-- Words the spec writes out (30_encoding.md R106, 95_test_vectors.md) and the commands it says they are. -/
def Obligations.WordsOfTheSpecDecode : Prop :=
  decode 0x0000CC04#32 = .ok (.sendByte 0xCC#8) ∧
  decode 0x00030109#32 = .ok (.searchPass 1#8 3#8) ∧
  decode 0x0050000F#32 = .ok (.crc8Update 0x00#8 0x50#8) ∧
  decode 0x00000102#32 = .ok (.writeBit 1#1) ∧
  decode 0x00000002#32 = .ok (.writeBit 0#1) ∧
  decode 0x00AB0001#32 = .ok .checkPresence ∧
  decode 0x0000010D#32 = .ok (.getTemperature 1#8) ∧
  decode 0x00000307#32 = .ok (.select 3#8) ∧
  decode 0x0000000A#32 = .ok .discover ∧
  decode 0x0000000E#32 = .ok .process

/-- R240: the four causes of a rejection; its effect, ILL and nothing else; the order in which RESERVED and OPCODE are tested;
and what ends ILL: a write of 1 to STATUS bit 1, or the reset input asserted. -/
def Obligations.RejectionSetsIllAndNothingElse : Prop :=
  (∀ (w : Word) (s : State), s.inReset = false →
    (isBusy s = true ∨ zField w ≠ 0#8 ∨ opField w = 0#8 ∨ 0x0F#8 < opField w ∨
      ((opField w = 0x07#8 ∨ opField w = 0x09#8) ∧ s.cfg.cap ≤ aField w)) →
    hostCommand w s = .next { s with ill := true }) ∧
  (∀ w, zField w ≠ 0#8 → decode w = .error .reserved) ∧
  (∀ w, zField w = 0#8 → (opField w = 0#8 ∨ 0x0F#8 < opField w) → decode w = .error .opcode) ∧
  (∀ (act : HostAct) (s t : State), s.Inv → s.ill = true → hostAccess act s = .next t →
    t.ill = true ∨ act = .reset true ∨ ∃ w : Word, act = .write 0x04 4 w ∧ w.getLsbD 1 = true)

/-- R102, R104: a word that meets the four conditions starts its command and leaves ILL; any other is rejected. -/
def Obligations.WordIsAcceptedExactlyOnTheFourConditions : Prop :=
  (∀ (w : Word) (s : State), s.Inv → s.inReset = false →
    ((zField w = 0#8 ∧ (1 ≤ (opField w).toNat ∧ (opField w).toNat ≤ 0x0F) ∧
        ((opField w = 0x07#8 ∨ opField w = 0x09#8) → aField w < s.cfg.cap)) →
      ∃ i t, decode w = .ok i ∧ i.opcode = opField w ∧ i.wellFormed s.cfg = true ∧ hostCommand w s = exec i s ∧
        exec i s = .next t ∧ t.ill = s.ill ∧ t.seq = .idle) ∧
    (¬ (zField w = 0#8 ∧ (1 ≤ (opField w).toNat ∧ (opField w).toNat ≤ 0x0F) ∧
        ((opField w = 0x07#8 ∨ opField w = 0x09#8) → aField w < s.cfg.cap)) →
      hostCommand w s = .next { s with ill := true })) ∧
  (∀ (w : Word) (s : State), s.inReset = false → isBusy s = true → hostCommand w s = .next { s with ill := true })

/-! ## The step -/

/-- A step runs the decoded command: at IDLE, when the host's next action writes a word to CMD that decodes to `i`, the gap the
host leaves passes, `i` is executed, and the host's actions that land while it runs are served. -/
def Obligations.StepRunsTheDecodedCommand : Prop :=
  ∀ (s : State) (e : HostEvent) (rest : List HostEvent) (w : Word) (i : Instr),
    s.seq = .idle → s.inReset = false → s.host = e :: rest → e.act = .write 0 4 w → decode w = .ok i →
    step s =
      match exec i (idleFor (gapOf e.arrival) { s with host := rest }) with
      | .next t =>
        serveBusy i (idleFor (gapOf e.arrival) { s with host := rest })
          (t.bus.clock - (idleFor (gapOf e.arrival) { s with host := rest }).bus.clock) rest 0 t
      | .fault f => .fault f
      | .refused r => .refused r

/-- With nothing else coming from the host, a step on a placed command word is `exec` of the command, the reset input released. -/
def Obligations.StepOfAPlacedCommandIsExec : Prop :=
  ∀ (s : State) (nbits w : Nat) (i : Instr), s.Inv → s.host = [] → decodeTableWord nbits w = some i →
    step (s.withFetchWord nbits w) = exec i { s with inReset := false }

/-- R255, R270: with no action of the host OWC waits; an action that starts no command is served after the gap before it. -/
def Obligations.StepWaitsOrServesTheHost : Prop :=
  (∀ s : State, s.host = [] → step s = .next s) ∧
  (∀ (s : State) (e : HostEvent) (rest : List HostEvent), s.host = e :: rest → commandOf e.act = none →
    step s = hostAccess e.act (idleFor (gapOf e.arrival) { s with host := rest }))

/-- R240 (1), V63: a command word written while an operation runs is lost, sets ILL, and disturbs nothing else. -/
def Obligations.BusyCommandIsLostWithoutDisturbing : Prop :=
  ∀ (s t : State) (w w' : Word) (i : Instr) (g d : Nat), s.Inv → s.inReset = false →
    s.host = [⟨.polled g, .write 0 4 w⟩, ⟨.timed d, .write 0 4 w'⟩] → decode w = .ok i →
    exec i (idleFor g { s with host := [⟨.timed d, .write 0 4 w'⟩] }) = .next t →
    s.bus.clock + g + d < t.bus.clock →
    step s = .next { t with ill := true, host := [] }

/-- R82, R113: in the gap the host leaves between two commands the line is released, or driven high after a START_CONVERSION
with PARASITE = 1; the clock runs on and nothing else of the machine changes. -/
def Obligations.GapBetweenCommands : Prop :=
  ∀ (s : State) (n : Nat), s.Inv → 0 < n →
    idleFor n s = { s with bus := { s.bus with clock := s.bus.clock + n, wave := s.bus.wave ++ [.hold s.drv n] } } ∧
    (s.drv = .rel ∨ (s.drv = .high ∧ s.cfg.parasite = true))

/-! ## The host's register space -/

/-- R66 (with R20's access column): what a read at each register offset returns at IDLE; writes to reserved offsets and to
read-only registers change nothing. -/
def Obligations.RegisterOffsetsReadAsStated : Prop :=
  (∀ s : State, s.seq = .idle →
    hostAccess (.read 0x00 4) s = .next { s with readLog := s.readLog ++ [(0x00, 0#32)] } ∧
    hostAccess (.read 0x04 4) s = .next { s with readLog := s.readLog ++ [(0x04, statusWord s)] } ∧
    hostAccess (.read 0x08 4) s = .next { s with readLog := s.readLog ++ [(0x08, s.result)] } ∧
    hostAccess (.read 0x0C 4) s = .next { s with readLog := s.readLog ++ [(0x0C, s.count.zeroExtend 32)] } ∧
    hostAccess (.read 0x10 4) s = .next { s with readLog := s.readLog ++ [(0x10, s.lastdev.zeroExtend 32)] }) ∧
  (∀ (s : State) (off : Nat), s.seq = .idle → 0x14 ≤ off → off ≤ 0xFC → off % 4 = 0 →
    hostAccess (.read off 4) s = .next { s with readLog := s.readLog ++ [(off, 0#32)] }) ∧
  (∀ (s : State) (off : Nat) (w : Word), 0x08 ≤ off → off ≤ 0xFC → off % 4 = 0 →
    hostAccess (.write off 4 w) s = .next s)

/-- R67: the window's four words of a slot, what lies beyond it, and that writes to it are ignored. -/
def Obligations.WindowIsAnImageOfTheRegistry : Prop :=
  (∀ (s : State) (k : Byte), s.seq = .idle → k < s.cfg.cap →
    hostAccess (.read (0x100 + 16 * k.toNat) 4) s = .next { s with
      readLog := s.readLog ++ [(0x100 + 16 * k.toNat,
        (idByte k 3 s ++ idByte k 2 s ++ idByte k 1 s ++ idByte k 0 s : BitVec 32))] } ∧
    hostAccess (.read (0x100 + 16 * k.toNat + 4) 4) s = .next { s with
      readLog := s.readLog ++ [(0x100 + 16 * k.toNat + 4,
        (idByte k 7 s ++ idByte k 6 s ++ idByte k 5 s ++ idByte k 4 s : BitVec 32))] } ∧
    hostAccess (.read (0x100 + 16 * k.toNat + 8) 4) s = .next { s with
      readLog := s.readLog ++ [(0x100 + 16 * k.toNat + 8,
        (cacheByte k 1 s ++ cacheByte k 0 s : BitVec 16).zeroExtend 32)] } ∧
    hostAccess (.read (0x100 + 16 * k.toNat + 12) 4) s = .next { s with
      readLog := s.readLog ++ [(0x100 + 16 * k.toNat + 12, 0#32)] }) ∧
  (∀ (s : State) (off : Nat), s.seq = .idle → 0x100 + 16 * s.cfg.cap.toNat ≤ off → off % 4 = 0 →
    hostAccess (.read off 4) s = .next { s with readLog := s.readLog ++ [(off, 0#32)] }) ∧
  (∀ (s : State) (off : Nat) (w : Word), 0x100 ≤ off → off % 4 = 0 → hostAccess (.write off 4 w) s = .next s)

/-- R22: the bits of STATUS, in IDLE and BUSY states alike; its write; what sets ILL, an accepted command leaving it alone; BUSY
read as 1 from the acceptance of a command to its last tick, and from then on served at IDLE (landing times and SPU in a running
command: log 4). -/
def Obligations.StatusBitsAndTheirWrite : Prop :=
  (∀ s : State,
    hostAccess (.read 0x04 4) s = .next { s with readLog := s.readLog ++ [(0x04, statusWord s)] } ∧
    (statusWord s).getLsbD 0 = decide (s.seq ≠ .idle) ∧
    (statusWord s).getLsbD 1 = s.ill ∧
    (statusWord s).getLsbD 2 = decide (s.drv = .high) ∧
    ∀ j, 3 ≤ j → (statusWord s).getLsbD j = false) ∧
  (∀ (s : State) (w : Word), s.inReset = false →
    hostAccess (.write 0x04 4 w) s = .next { s with ill := if w.getLsbD 1 then false else s.ill }) ∧
  (∀ (i : Instr) (s t : State), s.Inv → i.wellFormed s.cfg = true → exec i s = .next t → t.ill = s.ill) ∧
  (∀ (w : Word) (s : State) (c : RejectCause), s.inReset = false → decode w = .error c →
    hostCommand w s = .next { s with ill := true }) ∧
  (∀ (s t : State) (w : Word) (i : Instr) (g d : Nat), s.Inv → s.inReset = false →
    s.host = [⟨.polled g, .write 0 4 w⟩, ⟨.timed d, .read 0x04 4⟩] → decode w = .ok i →
    exec i (idleFor g { s with host := [⟨.timed d, .read 0x04 4⟩] }) = .next t →
    step s =
      if s.bus.clock + g + d < t.bus.clock then
        .next { t with
          host := []
          readLog := s.readLog ++ [(0x04, 0#29 ++ 0#1 ++ BitVec.ofBool t.ill ++ 1#1)] }
      else .next { t with host := [⟨.timed (s.bus.clock + g + d - t.bus.clock), .read 0x04 4⟩] })

/-- R68: a host read changes nothing of OWC and returns the same again; a write to CMD issues a command; a write of 1 to STATUS
bit 1 clears ILL; no other write has an effect. -/
def Obligations.HostAccessesHaveTheStatedSideEffects : Prop :=
  (∀ (s : State) (off : Nat), s.seq = .idle → off % 4 = 0 → ∃ v,
    hostAccess (.read off 4) s = .next { s with readLog := s.readLog ++ [(off, v)] } ∧
    hostAccess (.read off 4) { s with readLog := s.readLog ++ [(off, v)] } =
      .next { s with readLog := s.readLog ++ [(off, v)] ++ [(off, v)] }) ∧
  (∀ (s : State) (w : Word), hostAccess (.write 0x00 4 w) s = hostCommand w s) ∧
  (∀ (s : State) (w : Word), s.inReset = false → w.getLsbD 1 = true →
    hostAccess (.write 0x04 4 w) s = .next { s with ill := false }) ∧
  (∀ (s : State) (w : Word), w.getLsbD 1 = false → hostAccess (.write 0x04 4 w) s = .next s) ∧
  (∀ (s : State) (off : Nat) (w : Word), off % 4 = 0 → off ≠ 0x00 → off ≠ 0x04 → hostAccess (.write off 4 w) s = .next s)

/-- R69: while BUSY, STATUS reads true, every other register and the window read as a free value, a write to CMD is rejected, and
a write to STATUS acts normally. -/
def Obligations.HostAccessesWhileBusy : Prop :=
  ∀ s : State, s.inReset = false → isBusy s = true →
    hostAccess (.read 0x04 4) s = .next { s with readLog := s.readLog ++ [(0x04, statusWord s)] } ∧
    (∀ off, off = 0x00 ∨ off = 0x08 ∨ off = 0x0C ∨ off = 0x10 ∨
        (0x100 ≤ off ∧ off < 0x100 + 16 * s.cfg.cap.toNat ∧ off % 4 = 0) →
      hostAccess (.read off 4) s = .next { s with
        readLog := s.readLog ++ [(off, Config.freeRead s.bus.draws)]
        bus := { s.bus with draws := s.bus.draws + 1 } }) ∧
    (∀ w, hostAccess (.write 0x00 4 w) s = .next { s with ill := true }) ∧
    (∀ w : Word, hostAccess (.write 0x04 4 w) s = .next { s with ill := if w.getLsbD 1 then false else s.ill })

/-- R65: an access narrower than 32 bits, wider, or at an offset that is no multiple of 4 is refused. -/
def Obligations.UnsupportedAccessIsRefused : Prop :=
  ∀ (s : State) (off size : Nat) (w : Word), size ≠ 4 ∨ off % 4 ≠ 0 →
    hostAccess (.read off size) s = .refused .unsupportedAccess ∧
    hostAccess (.write off size w) s = .refused .unsupportedAccess

/-! ## Reset -/

/-- R46: the reset value of every piece of state, whatever the build-time parameters. -/
def Obligations.ResetValues : Prop :=
  ∀ c : Config,
    let s := State.resetWith c
    s.cfg = c ∧ isBusy s = false ∧ s.ill = false ∧ isSpu s = false ∧ s.result = 0#32 ∧ s.count = 0#8 ∧ s.lastdev = 0#8 ∧
    (∀ k j, idByte k j s = 0x00#8) ∧ (∀ k j, cacheByte k j s = 0x00#8) ∧
    s.dp.sr = 0#8 ∧ s.dp.bitcnt = 0#4 ∧ s.dp.crc = 0#8 ∧ s.dp.stg0 = 0#8 ∧ s.dp.stg1 = 0#8 ∧ s.dp.pos = 0#7 ∧
    s.dp.ba = 0#1 ∧ s.dp.bb = 0#1 ∧ s.dp.ch = 0#1 ∧ s.dp.lastin = 0#8 ∧ s.dp.newdev = 0#8 ∧ s.dp.wslot = 0#8 ∧
    s.dp.npass = 0#8 ∧ s.dp.devidx = 0#8 ∧ s.dp.byteidx = 0#8 ∧ s.dp.tickcnt = 0 ∧ s.seq = .idle ∧ s.drv = .rel

/-- R270, R271, R250: the reset input with no operation running. Asserted: OWC's state at its reset values, the parameters and the
line's other side as they were. While it is asserted every register reads 0, a write has no effect and no command starts. Released:
the same state. A release with the input not asserted does nothing. -/
def Obligations.ResetKeepsParametersAndResponders : Prop :=
  (∀ s : State, hostAccess (.reset true) s = .next { State.resetWith s.cfg with
    inReset := true
    bus := s.bus
    host := s.host
    readLog := s.readLog }) ∧
  (∀ s : State, s.Inv → s.inReset = true →
    (∀ off, off % 4 = 0 → hostAccess (.read off 4) s = .next { s with readLog := s.readLog ++ [(off, 0#32)] }) ∧
    (∀ (off : Nat) (w : Word), off % 4 = 0 → hostAccess (.write off 4 w) s = .next s) ∧
    hostAccess (.reset true) s = .next s ∧
    hostAccess (.reset false) s = .next { s with inReset := false }) ∧
  (∀ s : State, s.inReset = false → hostAccess (.reset false) s = .next s) ∧
  (∀ (s : State) (e : HostEvent) (rest : List HostEvent), s.inReset = true → s.host = e :: rest →
    step s = hostAccess e.act (idleFor (gapOf e.arrival) { s with host := rest }))

/-- R270, R272, with the model's choice of log 12: the reset input asserted `d` ticks into a running command. OWC is in its reset
state at once and stays there. The bus events the command added are cut to those whose slots were complete, its waveform to the
first `d` ticks. The line's other side has seen the complete slots and is unsettled: the reference responders are the same devices. -/
def Obligations.ResetCutsARunningCommandShort : Prop :=
  ∀ (s t : State) (w : Word) (i : Instr) (g d : Nat) (rest : List HostEvent), s.Inv → s.inReset = false →
    s.host = ⟨.polled g, .write 0 4 w⟩ :: ⟨.timed d, .reset true⟩ :: rest → decode w = .ok i →
    exec i (idleFor g { s with host := ⟨.timed d, .reset true⟩ :: rest }) = .next t →
    s.bus.clock + g + d < t.bus.clock →
    ∃ (new : List BusEvent) (ws : List WaveItem),
      t.bus.events = s.bus.events ++ new ∧ t.bus.wave = (idleFor g s).bus.wave ++ ws ∧
      step s = .next { State.resetWith s.cfg with
        inReset := true
        bus :=
          { env := (lineAfter s.cfg (cutEvents s.cfg d new) s.bus.env s.bus.draws).unsettle
            draws := t.bus.draws
            clock := s.bus.clock + g + d
            events := s.bus.events ++ cutEvents s.cfg d new
            wave := (idleFor g s).bus.wave ++ cutWave d ws }
        host := rest
        readLog := s.readLog } ∧
      (∃ k, cutEvents s.cfg d new = new.take k ∧ ((new.take k).map (eventTicks s.cfg)).sum ≤ d ∧
        d < ((new.take (k + 1)).map (eventTicks s.cfg)).sum) ∧
      (d = 0 → cutWave d ws = []) ∧
      (0 < d → ∃ (k n m : Nat) (v : Drv), ws[k]? = some (.hold v n) ∧ m ≤ n ∧ cutWave d ws = ws.take k ++ [.hold v m]) ∧
      ((cutWave d ws).map waveTicks).sum = d ∧
      (∀ rs, s.bus.env = .responders rs → ∃ rs',
        (lineAfter s.cfg (cutEvents s.cfg d new) s.bus.env s.bus.draws).unsettle = .unsettled rs' ∧
        rs'.map (fun r => (r.rid, r.pad)) = rs.map (fun r => (r.rid, r.pad)))

/-! ## The time slots -/

/-- R140, R110: CHECK_PRESENCE, whole next state: `low` says whether some responder pulls the line low at the sample. -/
def Obligations.CheckPresenceResult : Prop :=
  ∀ s : State, s.seq = .idle →
    exec .checkPresence s = .next { s with
      result := if (envReset s.bus.env s.bus.draws).low then 1#32 else 0#32
      drv := .rel
      dp := { s.dp with tickcnt := 0 }
      bus :=
        { env := (envReset s.bus.env s.bus.draws).env
          draws := (envReset s.bus.env s.bus.draws).draws
          clock := s.bus.clock + (s.cfg.tRstl + s.cfg.tPds + s.cfg.tRstr)
          events := s.bus.events ++ [.rst (if (envReset s.bus.env s.bus.draws).low then 1#1 else 0#1)]
          wave := s.bus.wave ++ [.hold .low s.cfg.tRstl, .hold .rel s.cfg.tPds,
            .sample (if (envReset s.bus.env s.bus.draws).low then 0#1 else 1#1), .hold .rel s.cfg.tRstr] } }

/-- R143, R111: WRITE_BIT, whole next state: the 1-slot is low for T_WL, the 0-slot for T_WL + T_WX, both last T_W. -/
def Obligations.WriteBitResult : Prop :=
  ∀ (s : State) (v : Bit), s.seq = .idle →
    exec (.writeBit v) s = .next { s with
      drv := .rel
      dp := { s.dp with tickcnt := 0 }
      bus :=
        { env := envWrite s.cfg v s.bus.env
          draws := s.bus.draws
          clock := s.bus.clock + (s.cfg.tWl + s.cfg.tWx + s.cfg.tWrec)
          events := s.bus.events ++ [.w v]
          wave := s.bus.wave ++
            if v = 1#1 then [.hold .low s.cfg.tWl, .hold .rel s.cfg.tWrec, .hold .rel s.cfg.tWx]
            else [.hold .low s.cfg.tWl, .hold .low s.cfg.tWx, .hold .rel s.cfg.tWrec] } }

/-- R146, R112: READ_BIT, whole next state: a line some responder pulls low at the sample reads 0, else 1. -/
def Obligations.ReadBitResult : Prop :=
  ∀ s : State, s.seq = .idle →
    exec .readBit s = .next { s with
      result := if (envRead s.bus.env s.bus.draws).low then 0#32 else 1#32
      drv := .rel
      dp := { s.dp with tickcnt := 0 }
      bus :=
        { env := (envRead s.bus.env s.bus.draws).env
          draws := (envRead s.bus.env s.bus.draws).draws
          clock := s.bus.clock + (s.cfg.tRl + s.cfg.tRs + s.cfg.tRp)
          events := s.bus.events ++ [.r (if (envRead s.bus.env s.bus.draws).low then 0#1 else 1#1)]
          wave := s.bus.wave ++ [.hold .low s.cfg.tRl, .hold .rel s.cfg.tRs,
            .sample (if (envRead s.bus.env s.bus.draws).low then 0#1 else 1#1), .hold .rel s.cfg.tRp] } }

/-- R77, R75: the level of the line in each of its five cases (in contention any level, `free`); the two driver outputs; and
that the two operations that sample do so with the line released. -/
def Obligations.LineLevelTable : Prop :=
  (∀ (low : Bool) (free : Bit),
    lineLevel .low low free = 0#1 ∧ lineLevel .rel true free = 0#1 ∧ lineLevel .rel false free = 1#1 ∧
    lineLevel .high false free = 1#1 ∧ lineLevel .high true free = free) ∧
  (∀ d : Drv, owPullLow d = decide (d = .low) ∧ owDriveHigh d = decide (d = .high)) ∧
  (∀ (s : State) (free : Bit),
    (readBit s).1 = lineLevel .rel (envRead s.bus.env s.bus.draws).low free ∧
    (checkPresence s).1 = ~~~ lineLevel .rel (envReset s.bus.env s.bus.draws).low free)

/-- R91 (the reference responders, PRESUMED, log 6): CHECK_PRESENCE finds a responder exactly when there is one, and puts every
one into ROMCMD with an empty receive register; also after a reset cut one of their slots (R79, R271, log 12). -/
def Obligations.PresenceCheckResetsTheResponders : Prop :=
  (∀ (s : State) (rs : List Responder), s.seq = .idle → s.bus.env = .responders rs →
    ∃ t, exec .checkPresence s = .next t ∧ t.result = (if rs = [] then 0#32 else 1#32) ∧
      t.bus.env = .responders (rs.map fun r => { r with mode := .romCmd 0 0#8 })) ∧
  ∀ (s : State) (rs : List Responder), s.seq = .idle → s.bus.env = .unsettled rs →
    ∃ t rs', exec .checkPresence s = .next t ∧ t.result = (if rs = [] then 0#32 else 1#32) ∧
      t.bus.env = .responders rs' ∧ rs'.map (fun r => (r.rid, r.pad)) = rs.map (fun r => (r.rid, r.pad)) ∧
      ∀ r ∈ rs', r.mode = .romCmd 0 0#8

/-! ## Bytes -/

/-- R160, R70, R114: SEND_BYTE: eight write slots, bit 0 first; what else it leaves. -/
def Obligations.SendByteResult : Prop :=
  ∀ (s : State) (b : Byte), s.seq = .idle →
    ∃ t, exec (.sendByte b) s = .next t ∧
      t.bus.events = s.bus.events ++ [.w (bitOf b 0), .w (bitOf b 1), .w (bitOf b 2), .w (bitOf b 3), .w (bitOf b 4),
        .w (bitOf b 5), .w (bitOf b 6), .w (bitOf b 7)] ∧
      t.bus.clock = s.bus.clock + 8 * s.cfg.tW ∧ t.bus.draws = s.bus.draws ∧
      t.bus.env = (lsbFirst b).foldl (fun e v => envWrite s.cfg v e) s.bus.env ∧
      t.drv = .rel ∧ SameOutsideLine s t ∧ ByteRegs s.dp t.dp

/-- R161, R71, R114: READ_BYTE: eight read slots, the first bit read at bit 0; on a line that answers with the bits of `b`, `b`;
what else it leaves. -/
def Obligations.ReadByteResult : Prop :=
  ∀ s : State, s.seq = .idle →
    ∃ (t : State) (v0 v1 v2 v3 v4 v5 v6 v7 : Bit), exec .readByte s = .next t ∧
      t.bus.events = s.bus.events ++ [.r v0, .r v1, .r v2, .r v3, .r v4, .r v5, .r v6, .r v7] ∧
      t.result = (v7 ++ v6 ++ v5 ++ v4 ++ v3 ++ v2 ++ v1 ++ v0 : BitVec 8).zeroExtend 32 ∧
      (∀ b rest, s.bus.env = .oracle (byteScript b ++ rest) →
        t.result = b.zeroExtend 32 ∧ t.bus.env = .oracle rest ∧ t.bus.draws = s.bus.draws) ∧
      t.bus.clock = s.bus.clock + 8 * s.cfg.tR ∧ t.drv = .rel ∧
      SameOutsideLine s { t with result := s.result } ∧ ByteRegs s.dp t.dp

/-- R162: an environment that echoes in the i-th read slot the bit written in the i-th write slot of a SEND_BYTE gives the byte
back. -/
def Obligations.LoopBackReturnsTheByteSent : Prop :=
  ∀ (s t u : State) (b : Byte) (rest : List Bool), s.seq = .idle → exec (.sendByte b) s = .next t → u.seq = .idle →
    u.bus.env = .oracle ((t.bus.events.drop s.bus.events.length).map echo ++ rest) →
    ∃ u', exec .readByte u = .next u' ∧ u'.result = b.zeroExtend 32

/-! ## The registry -/

/-- R170: CLEAR: every identity byte 0, COUNT 0, nothing else; in particular every cache byte and the line as they were. -/
def Obligations.ClearResult : Prop :=
  ∀ s : State, s.seq = .idle → Memory.wf s.mem = true →
    ∃ t, exec .clear s = .next t ∧ t = { s with count := 0#8, mem := t.mem } ∧
      (∀ k : Byte, k < s.cfg.cap → ∀ j, j < 8 → idByte k j t = 0x00#8) ∧
      (∀ a, (∀ (k : Byte) (j : Nat), k < s.cfg.cap → j < 8 → a ≠ idAddr k j) → memRead a t = memRead a s)

/-- R172, R120: SELECT: the match command and the eight identity bytes of the slot, each LSB first; what else it leaves. -/
def Obligations.SelectResult : Prop :=
  ∀ (s : State) (k : Byte), s.seq = .idle → k < s.cfg.cap →
    ∃ t, exec (.select k) s = .next t ∧
      t.bus.events = s.bus.events ++ (txEvents s.cfg.cmdMatch ++ txEvents (idByte k 0 s) ++ txEvents (idByte k 1 s) ++
        txEvents (idByte k 2 s) ++ txEvents (idByte k 3 s) ++ txEvents (idByte k 4 s) ++ txEvents (idByte k 5 s) ++
        txEvents (idByte k 6 s) ++ txEvents (idByte k 7 s)) ∧
      t.bus.clock = s.bus.clock + 72 * s.cfg.tW ∧ t.drv = .rel ∧ SameOutsideLine s t ∧ SelectRegs s.dp t.dp

/-- R174: COUNT: RESULT is the COUNT register, nothing else changes. -/
def Obligations.CountResult : Prop :=
  ∀ s : State, s.seq = .idle → exec .count s = .next { s with result := s.count.zeroExtend 32 }

/-- R61, R81: a registry byte that holds storage reads as last written; one that does not reads 0 and takes no write; a write
leaves every other byte, and keeps the memory's form. -/
def Obligations.RegistryByteReadsAsLastWritten : Prop :=
  ∀ (s : State) (a : Nat) (v : Byte), Memory.wf s.mem = true →
    ((a < 16 * s.cfg.cap.toNat ∧ a % 16 < 10) → memRead a (memWrite a v s) = v) ∧
    (¬ (a < 16 * s.cfg.cap.toNat ∧ a % 16 < 10) → memRead a s = 0x00#8 ∧ memWrite a v s = s) ∧
    (∀ b, b ≠ a → memRead b (memWrite a v s) = memRead b s) ∧
    Memory.wf (memWrite a v s).mem = true

/-- R63, R62: position p of an identity is bit p & 7 of byte p >> 3; a bit write sets that bit and leaves every other one of every
byte. -/
def Obligations.IdentityBitPositions : Prop :=
  ∀ (s : State) (k : Byte) (p : Nat) (b : Bit), Memory.wf s.mem = true → k < s.cfg.cap → p < 64 →
    idBit k p s = BitVec.ofBool ((idByte k (p >>> 3) s).getLsbD (p &&& 7)) ∧
    idBit k p (setIdBit k p b s) = b ∧
    (∀ q, q < 64 → q ≠ p → idBit k q (setIdBit k p b s) = idBit k q s) ∧
    (∀ a, a ≠ idAddr k (p >>> 3) → memRead a (setIdBit k p b s) = memRead a s) ∧
    setIdBit k p b s = { s with mem := (setIdBit k p b s).mem }

/-- R172, R120 with R90 to R92 (the reference responders, PRESUMED, log 6): after a presence check SELECT leaves exactly the
responders whose identity the slot holds awaiting a function command, and every other one idle. -/
def Obligations.SelectAddressesTheDeviceOfItsSlot : Prop :=
  ∀ (s : State) (k : Byte) (rs : List Responder), s.seq = .idle → k < s.cfg.cap → s.cfg.cmdMatch ≠ s.cfg.cmdSearch →
    s.bus.env = .responders rs → (∀ r ∈ rs, r.mode = .romCmd 0 0#8) →
    ∃ t, exec (.select k) s = .next t ∧
      t.bus.env = .responders (rs.map fun r =>
        { r with mode := if holdsIdentity k s r then .funcCmd 0 0#8 else .idle })

/-! ## The search -/

/-- R180, R181, R183, R184, R121: SEARCH_PASS over whatever the line answers: the positions `xs` it completed follow the table of
R181 (with R187's recording under STANDARD), their bits stand in the slot, the rest of the slot is the seed; it ends after 64
positions or aborts on a pair of ones; what else it leaves. On a scripted line the reads are the script's: position i reads the
script's i-th pair, and the pair of ones is the script's. -/
def Obligations.SearchPassResult : Prop :=
  ∀ (s : State) (k last : Byte), s.seq = .idle → k < s.cfg.cap → Memory.wf s.mem = true →
    ∃ (t : State) (xs : List Position), exec (.searchPass k last) s = .next t ∧
      (∀ i (h : i < xs.length), (xs[i]).Follows s.cfg last (idBit k i s) i) ∧
      (∀ q, q < 64 → idBit k q t = if h : q < xs.length then (xs[q]).ch else idBit k q s) ∧
      ((xs.length = 64 ∧ t.lastdev = devAfter s.cfg last 0 0#8 xs ∧
          t.bus.events = s.bus.events ++ (txEvents s.cfg.cmdSearch ++ xs.flatMap Position.events)) ∨
        (xs.length < 64 ∧ t.lastdev = 0xFF#8 ∧
          t.bus.events = s.bus.events ++
            (txEvents s.cfg.cmdSearch ++ (xs.flatMap Position.events ++ [.r 1#1, .r 1#1])))) ∧
      t.result = t.lastdev.zeroExtend 32 ∧
      t = { s with
        result := t.result, lastdev := t.lastdev, mem := t.mem, drv := .rel, dp := t.dp, bus := t.bus } ∧
      PassRegs s.dp t.dp ∧ Memory.wf t.mem = true ∧
      (∀ a, (∀ j, j < 8 → a ≠ idAddr k j) → memRead a t = memRead a s) ∧
      (∀ script, s.bus.env = .oracle script → Answered script (t.bus.events.drop s.bus.events.length) t.bus.env) ∧
      (∀ (pairs : List (Bool × Bool)) (rest : List Bool), s.bus.env = .oracle (pairScript pairs ++ rest) →
        (∀ i (h : i < xs.length) (h' : i < pairs.length),
          (xs[i]).ba = BitVec.ofBool (!(pairs[i]).1) ∧ (xs[i]).bb = BitVec.ofBool (!(pairs[i]).2)) ∧
        (xs.length < 64 → ∀ h' : xs.length < pairs.length, pairs[xs.length] = (false, false)))

/-- R126, R185 (a): the values a pass returns: 0, the sentinel, or 1..63 (SOURCE) or 1..64 (STANDARD); under SOURCE with
`last <= 63` one that is neither 0 nor the sentinel is beyond `last`. -/
def Obligations.DeviationValuesOfAPass : Prop :=
  ∀ (s : State) (k last : Byte), s.seq = .idle → k < s.cfg.cap → Memory.wf s.mem = true →
    ∃ t, exec (.searchPass k last) s = .next t ∧ t.result = t.lastdev.zeroExtend 32 ∧
      (s.cfg.variant = .source →
        (t.lastdev = 0#8 ∨ (1 ≤ t.lastdev.toNat ∧ t.lastdev.toNat ≤ 63) ∨ t.lastdev = 0xFF#8) ∧
        (last.toNat ≤ 63 → t.lastdev = 0#8 ∨ t.lastdev = 0xFF#8 ∨ last < t.lastdev)) ∧
      (s.cfg.variant = .standard →
        t.lastdev = 0#8 ∨ (1 ≤ t.lastdev.toNat ∧ t.lastdev.toNat ≤ 64) ∨ t.lastdev = 0xFF#8)

/-- R190 to R195, R197: DISCOVER over whatever the line answers: the complete passes `ps`, each seeded with the identity of the
one before it, and the end `e`; the identities in the slots, COUNT, LASTDEV and RESULT; the slots not reached zero; every cache
byte as it was; what else it leaves. On a scripted line the presence samples and the reads are the script's, in order. -/
def Obligations.DiscoverResult : Prop :=
  ∀ s : State, s.Inv →
    ∃ (t : State) (ps : List (List Position)) (e : DiscoveryEnd), exec .discover s = .next t ∧
      passesFrom s.cfg 0#8 (List.replicate 64 0#1) ps ∧
      (∀ m (h : m < ps.length), ∀ q, q < 64 → idBit (BitVec.ofNat 8 m) q t = (passBits ps[m]).getD q 0#1) ∧
      e.Holds s.cfg 0 0#8 (List.replicate 64 0#1) ps t ∧
      t.bus.events = s.bus.events ++ (ps.flatMap (passEvents s.cfg) ++ e.events s.cfg) ∧
      t.result = t.count.zeroExtend 32 ∧
      (∀ k : Byte, k < s.cfg.cap → ps.length + e.slots ≤ k.toNat → ∀ j, j < 8 → idByte k j t = 0x00#8) ∧
      (∀ a, (∀ (k : Byte) (j : Nat), k < s.cfg.cap → j < 8 → a ≠ idAddr k j) → memRead a t = memRead a s) ∧
      t = { s with
        result := t.result, count := t.count, lastdev := t.lastdev, mem := t.mem, drv := .rel, dp := t.dp, bus := t.bus } ∧
      DiscoverRegs s.dp t.dp ∧
      (∀ script, s.bus.env = .oracle script → Answered script (t.bus.events.drop s.bus.events.length) t.bus.env)

/-- R196: COUNT and LASTDEV after each way a discovery can end. -/
def Obligations.DiscoveryOutcomeTable : Prop :=
  ∀ s : State, s.Inv →
    ∃ (t : State) (ps : List (List Position)) (e : DiscoveryEnd), exec .discover s = .next t ∧
      t.bus.events = s.bus.events ++ (ps.flatMap (passEvents s.cfg) ++ e.events s.cfg) ∧
      (∀ p ∈ ps, p.length = 64) ∧
      match e with
      | .noMore => t.count.toNat = ps.length ∧ 1 ≤ t.count.toNat ∧ t.lastdev = 0#8
      | .capacity => t.count = s.cfg.cap ∧ t.count.toNat = ps.length ∧ 1 ≤ t.lastdev.toNat ∧ t.lastdev.toNat ≤ 64
      | .collision xs => t.count < s.cfg.cap ∧ t.count.toNat = ps.length ∧ t.lastdev = 0xFF#8 ∧ xs.length < 64
      | .absent =>
        t.count = 0#8 ∧ (ps = [] → t.lastdev = 0#8) ∧ (ps ≠ [] → 1 ≤ t.lastdev.toNat ∧ t.lastdev.toNat ≤ 64)

/-- R193, R231, V46b: a discovery on a line where nobody answers its first presence check. -/
def Obligations.DiscoveryOnASilentLine : Prop :=
  ∀ s : State, s.Inv → (envReset s.bus.env s.bus.draws).low = false →
    ∃ t, exec .discover s = .next t ∧ t.count = 0#8 ∧ t.lastdev = 0#8 ∧ t.result = 0#32 ∧
      (∀ k : Byte, k < s.cfg.cap → ∀ j, j < 8 → idByte k j t = 0x00#8) ∧
      t.bus.events = s.bus.events ++ [.rst 0#1] ∧ t.bus.clock = s.bus.clock + s.cfg.tP ∧ t.drv = .rel

/-- R192: under SOURCE a discovery runs at most 64 passes whatever CAP is. -/
def Obligations.SourceDiscoveryRunsAtMost64Passes : Prop :=
  ∀ s : State, s.Inv → s.cfg.variant = .source →
    ∃ (t : State) (ps : List (List Position)) (e : DiscoveryEnd), exec .discover s = .next t ∧
      t.bus.events = s.bus.events ++ (ps.flatMap (passEvents s.cfg) ++ e.events s.cfg) ∧
      (∀ p ∈ ps, p.length = 64) ∧ ps.length + e.slots ≤ 64

/-- R190 to R192 with R90 to R92 (the reference responder, PRESUMED, log 6): a discovery with one responder on the line, whatever
its identity and its mode, finds exactly that identity, under either search variant. -/
def Obligations.LoneResponderIsDiscovered : Prop :=
  ∀ (s : State) (r : Responder), s.Inv → s.bus.env = .responders [r] →
    ∃ t, exec .discover s = .next t ∧ t.count = 1#8 ∧ t.lastdev = 0#8 ∧ t.result = 1#32 ∧
      (∀ p, p < 64 → idBit 0#8 p t = r.rid.extractLsb' p 1) ∧
      t.bus.env = .responders [{ r with mode := .funcCmd 0 0#8 }] ∧
      t.bus.clock = s.bus.clock + (s.cfg.tP + passTicks s.cfg)

/-- R188, with the reference responders (PRESUMED, log 6): two devices whose identities differ only at position 3: the first
pass returns 3 and the second 0 under SOURCE; 4 and 0 under STANDARD, where identity byte 0 = 0x04 gives 3 and 0. -/
def Obligations.TwoDeviceExampleOfTheSource : Prop :=
  (∃ t, execAll [.checkPresence, .searchPass 0#8 0#8] (resetWithDevices Config.default [0#64, 8#64]) = some t ∧
    t.lastdev = 3#8) ∧
  (∃ t, exec .discover (resetWithDevices Config.default [0#64, 8#64]) = .next t ∧ t.count = 2#8 ∧ t.lastdev = 0#8 ∧
    identity 0#8 t = [0x00, 0x00, 0x00, 0x00, 0x00, 0x00, 0x00, 0x00] ∧
    identity 1#8 t = [0x08, 0x00, 0x00, 0x00, 0x00, 0x00, 0x00, 0x00]) ∧
  (∃ t, execAll [.checkPresence, .searchPass 0#8 0#8]
      (resetWithDevices { Config.default with variant := .standard } [0#64, 8#64]) = some t ∧ t.lastdev = 4#8) ∧
  (∃ t, exec .discover (resetWithDevices { Config.default with variant := .standard } [0#64, 8#64]) = .next t ∧
    t.count = 2#8 ∧ t.lastdev = 0#8) ∧
  (∃ t, execAll [.checkPresence, .searchPass 0#8 0#8]
      (resetWithDevices { Config.default with variant := .standard } [0#64, 4#64]) = some t ∧ t.lastdev = 3#8) ∧
  (∃ t, exec .discover (resetWithDevices { Config.default with variant := .standard } [0#64, 4#64]) = .next t ∧
    t.count = 2#8 ∧ t.lastdev = 0#8)

/-! ## Reading and converting -/

/-- R200, R201, R202, R122: READ_ALL over whatever the line answers: one read frame for each registered device; a device's cache
takes the first two bytes of its block when the block folds to 0, else it keeps what it had; on a scripted line the answers are
the script's; what else it leaves. With COUNT = 0 there is no bus activity. -/
def Obligations.ReadAllResult : Prop :=
  ∀ s : State, s.Inv →
    ∃ (t : State) (answers : List (Option (List Byte))), exec .readAll s = .next t ∧
      answers.length = s.count.toNat ∧
      (∀ ans ∈ answers, ∀ block, ans = some block → block.length = s.cfg.spLen.toNat) ∧
      t.bus.events = s.bus.events ++ readFrames s 0 answers ∧
      (∀ i (h : i < answers.length), ∀ j, j < 2 →
        cacheByte (BitVec.ofNat 8 i) j t =
          if committed answers[i] then ((answers[i]).getD []).getD j 0x00#8 else cacheByte (BitVec.ofNat 8 i) j s) ∧
      (∀ a, (∀ (k : Byte) (j : Nat), k < s.count → j < 2 → a ≠ cacheAddr k j) → memRead a t = memRead a s) ∧
      t = { s with mem := t.mem, drv := if s.count = 0#8 then s.drv else .rel, dp := t.dp, bus := t.bus } ∧
      ReadRegs s.dp t.dp ∧
      (∀ (xs : List (Option (List Byte))) (rest : List Bool), xs.length = s.count.toNat →
        (∀ x ∈ xs, ∀ block, x = some block → block.length = s.cfg.spLen.toNat) →
        s.bus.env = .oracle (xs.flatMap answerScript ++ rest) → answers = xs ∧ t.bus.env = .oracle rest)

/-- R200 with R90 to R93 (the reference responder, PRESUMED, log 6): READ_ALL with one device registered and that device on the
line reads its scratchpad, and commits the first two bytes exactly when the scratchpad folds to 0, as one that R90 describes
does. -/
def Obligations.ReadAllReadsTheRegisteredDevice : Prop :=
  ∀ (s : State) (r : Responder), s.Inv → s.cfg.cmdMatch ≠ s.cfg.cmdSearch → s.bus.env = .responders [r] → s.count = 1#8 →
    holdsIdentity 0#8 s r = true → r.pad.length = s.cfg.spLen.toNat →
    ∃ t, exec .readAll s = .next t ∧ t.bus.events = s.bus.events ++ readFrame 0#8 s (some r.pad) ∧
      (∀ j, j < 2 → cacheByte 0#8 j t =
        if crcFold 0x00#8 r.pad = 0x00#8 then r.pad.getD j 0x00#8 else cacheByte 0#8 j s) ∧
      (r.wf s.cfg = true → ∀ j, j < 2 → cacheByte 0#8 j t = r.pad.getD j 0x00#8)

/-- R203: blocks that validate although no device sent them: all zero bytes do, so a line stuck low fills every cache with 0x0000;
all 0xFF bytes do not, for lengths 3 to 11. -/
def Obligations.StuckLowLineCommitsZeros : Prop :=
  (∀ n : Nat, crcFold 0x00#8 (List.replicate n 0x00#8) = 0x00#8) ∧
  crcFold 0x00#8 (List.replicate 9 0xFF#8) = 0x63#8 ∧
  (∀ n : Nat, 3 ≤ n → n ≤ 11 → crcFold 0x00#8 (List.replicate n 0xFF#8) ≠ 0x00#8) ∧
  (∀ s : State, s.Inv →
    s.bus.env = .oracle (List.replicate (s.count.toNat * (1 + 8 * s.cfg.spLen.toNat)) true) →
    ∃ t, exec .readAll s = .next t ∧
      ∀ k : Byte, k < s.count → cacheByte k 0 t = 0x00#8 ∧ cacheByte k 1 t = 0x00#8)

/-- R204, R123: START_CONVERSION: nothing sent when the presence check samples high; else the two broadcast bytes, and with
PARASITE = 1 the line left driven high; what else it leaves. -/
def Obligations.StartConversionResult : Prop :=
  ∀ s : State, s.seq = .idle →
    ∃ t, exec .startConversion s = .next t ∧
      ((envReset s.bus.env s.bus.draws).low = false →
        t.bus.events = s.bus.events ++ [.rst 0#1] ∧ t.drv = .rel ∧ isSpu t = false ∧
        t.bus.clock = s.bus.clock + s.cfg.tP) ∧
      ((envReset s.bus.env s.bus.draws).low = true →
        t.bus.events = s.bus.events ++ (.rst 1#1 :: (txEvents s.cfg.cmdSkip ++ txEvents s.cfg.cmdConvert ++
          if s.cfg.parasite then [.spu] else [])) ∧
        t.drv = (if s.cfg.parasite then .high else .rel) ∧ isSpu t = s.cfg.parasite ∧
        t.bus.clock = s.bus.clock + (s.cfg.tP + 16 * s.cfg.tW)) ∧
      SameOutsideLine s t ∧ ByteRegs s.dp t.dp

/-- R205: an active high drive lasts through the commands with no bus activity and through any gap; the first time slot of any
other command ends it with its initial low, and so does the reset input. -/
def Obligations.HighDriveLastsUntilTheNextSlot : Prop :=
  (∀ (s : State) (i : Instr), s.Inv → i.wellFormed s.cfg = true → noBusActivity s i = true →
    ∃ t, exec i s = .next t ∧ t.drv = s.drv ∧ t.bus.events = s.bus.events ∧ t.bus.wave = s.bus.wave ∧
      t.bus.clock = s.bus.clock) ∧
  (∀ (s : State) (i : Instr), s.Inv → i.wellFormed s.cfg = true → noBusActivity s i = false →
    ∃ t n ws, exec i s = .next t ∧ t.bus.wave = s.bus.wave ++ .hold .low n :: ws) ∧
  (∀ (s : State) (n : Nat), (idleFor n s).drv = s.drv) ∧
  (∀ s t : State, hostAccess (.reset true) s = .next t → t.drv = .rel)

/-- R207 to R210, R234: GET_TEMPERATURE of an index below COUNT: the two cached bytes as a little-endian signed value, times 5,
and for the higher-resolution family divided by 8 toward zero; of an index at or beyond COUNT: a free value; nothing else of OWC
changes. -/
def Obligations.GetTemperatureResult : Prop :=
  (∀ (s : State) (k : Byte), s.Inv → k < s.count →
    ∃ t, exec (.getTemperature k) s = .next t ∧ t = { s with result := t.result } ∧
      t.result.toInt =
        if idByte k 0 s = s.cfg.hiresFamily then
          ((cacheByte k 1 s ++ cacheByte k 0 s : BitVec 16).toInt * 5).tdiv 8
        else (cacheByte k 1 s ++ cacheByte k 0 s : BitVec 16).toInt * 5) ∧
  (∀ (s : State) (k : Byte), s.seq = .idle → s.count ≤ k →
    exec (.getTemperature k) s = .next { s with
      result := Config.freeTemp s.bus.draws
      bus := { s.bus with draws := s.bus.draws + 1 } })

/-- R212: PROCESS: READ_ALL, its own presence check `p`, and when that sampled low a START_CONVERSION with its own check `q`;
RESULT is COUNT; what else it leaves. -/
def Obligations.ProcessResult : Prop :=
  ∀ s : State, s.Inv →
    ∃ (t : State) (answers : List (Option (List Byte))) (p q : Bit), exec .process s = .next t ∧
      answers.length = s.count.toNat ∧
      (∀ ans ∈ answers, ∀ block, ans = some block → block.length = s.cfg.spLen.toNat) ∧
      t.bus.events = s.bus.events ++ (readFrames s 0 answers ++
        (.rst p :: if p = 1#1 then convertFrame s.cfg q else [])) ∧
      (∀ i (h : i < answers.length), ∀ j, j < 2 →
        cacheByte (BitVec.ofNat 8 i) j t =
          if committed answers[i] then ((answers[i]).getD []).getD j 0x00#8 else cacheByte (BitVec.ofNat 8 i) j s) ∧
      (∀ a, (∀ (k : Byte) (j : Nat), k < s.count → j < 2 → a ≠ cacheAddr k j) → memRead a t = memRead a s) ∧
      t = { s with
        result := s.count.zeroExtend 32
        mem := t.mem
        drv := if p = 1#1 ∧ q = 1#1 ∧ s.cfg.parasite = true then .high else .rel
        dp := t.dp
        bus := t.bus } ∧
      ReadRegs s.dp t.dp

/-! ## The checksum -/

/-- R220: CRC8_UPDATE: eight shifts of c ^ b, each exclusive or 0x8C when the bit shifted out was 1; nothing but RESULT changes. -/
def Obligations.Crc8UpdateResult : Prop :=
  ∀ (s : State) (c b : Byte), s.seq = .idle →
    exec (.crc8Update c b) s = .next { s with
      result := (Nat.repeat (fun x : Byte => if x.getLsbD 0 then (x >>> 1) ^^^ 0x8C#8 else x >>> 1) 8
        (c ^^^ b)).zeroExtend 32 }

/-- R221: a block followed by its own fold folds to 0. -/
def Obligations.BlockWithItsChecksumFoldsToZero : Prop :=
  (∀ c : Byte, crc8Update c c = 0x00#8) ∧
  ∀ d : List Byte, crcFold 0x00#8 (d ++ [crcFold 0x00#8 d]) = 0x00#8

/-- R222: the checksum step depends only on c ^ b, is linear over exclusive or and a bijection; its stated values. -/
def Obligations.ChecksumStepIsLinearAndBijective : Prop :=
  (∀ c b : Byte, crc8Update c b = crc8Update 0x00#8 (c ^^^ b)) ∧
  (∀ x y : Byte, crc8Update 0x00#8 (x ^^^ y) = crc8Update 0x00#8 x ^^^ crc8Update 0x00#8 y) ∧
  (∀ x y : Byte, crc8Update 0x00#8 x = crc8Update 0x00#8 y → x = y) ∧
  (∀ z : Byte, ∃ x, crc8Update 0x00#8 x = z) ∧
  crc8Update 0x00#8 0x00#8 = 0x00#8 ∧ crc8Update 0x00#8 0x01#8 = 0x5E#8 ∧ crc8Update 0x00#8 0x02#8 = 0xBC#8 ∧
  crc8Update 0x00#8 0x04#8 = 0x61#8 ∧ crc8Update 0x00#8 0x08#8 = 0xC2#8 ∧ crc8Update 0x00#8 0x10#8 = 0x9D#8 ∧
  crc8Update 0x00#8 0x20#8 = 0x23#8 ∧ crc8Update 0x00#8 0x40#8 = 0x46#8 ∧ crc8Update 0x00#8 0x80#8 = 0x8C#8 ∧
  crc8Update 0x00#8 0xFF#8 = 0x35#8 ∧ crc8Update 0x8C#8 0x8C#8 = 0x00#8 ∧ crc8Update 0xFF#8 0x00#8 = 0x35#8

/-! ## The whole machine -/

/-- The invariant holds after reset, for every machine whose parameters are in the ranges of R5 and R6; also with reference
responders as R90 describes them on the line (PRESUMED, log 6); State.reset is the machine of the default parameters (PRESUMED,
log 2). -/
def Obligations.InvariantHoldsAtReset : Prop :=
  (∀ c : Config, c.wf = true → (State.resetWith c).Inv) ∧
  (∀ (c : Config) (rids : List (BitVec 64)), c.wf = true →
    (resetWithDevices c rids).Inv ∧ (resetWithDevices c rids).bus.env.wf c = true) ∧
  State.reset = State.resetWith Config.default ∧ State.reset.Inv

/-- The invariant (the memory's form, COUNT <= CAP of R24, the deviation values of R126, SEQ and DRV between commands of R40 and
R42, TICKCNT of R252, the reset state while reset is asserted of R270) is kept by every step; and reference responders on the line
(PRESUMED, log 6) keep the scratchpads R90 describes. -/
def Obligations.EveryStepKeepsTheInvariant : Prop :=
  ∀ s t : State, s.Inv → step s = .next t →
    t.Inv ∧ (s.bus.env.wf s.cfg = true → t.bus.env.wf t.cfg = true)

/-- R24, R25: who writes COUNT and LASTDEV, and COUNT <= CAP. -/
def Obligations.WritersOfCountAndLastdev : Prop :=
  ∀ (i : Instr) (s t : State), s.Inv → exec i s = .next t →
    (t.count ≠ s.count → i = .clear ∨ i = .discover) ∧ t.count ≤ t.cfg.cap ∧
    (i = .clear → t.count = 0#8) ∧
    (t.lastdev ≠ s.lastdev → i = .discover ∨ ∃ k last, i = .searchPass k last)

/-- R36: who writes the registry: identities only CLEAR, DISCOVER and SEARCH_PASS (its own slot), caches only READ_ALL and
PROCESS. -/
def Obligations.WritersOfTheRegistry : Prop :=
  ∀ (i : Instr) (s t : State), s.Inv → exec i s = .next t →
    (∀ (k : Byte) (j : Nat), j < 8 → idByte k j t ≠ idByte k j s →
      i = .clear ∨ i = .discover ∨ ∃ last, i = .searchPass k last) ∧
    (∀ (k : Byte) (j : Nat), j < 2 → cacheByte k j t ≠ cacheByte k j s → (i = .readAll ∨ i = .process) ∧ k < s.count)

/-- R23: six commands and a rejected word leave RESULT; what each of the other nine puts there. -/
def Obligations.CommandsAndResult : Prop :=
  (∀ (i : Instr) (s t : State), s.Inv → i.wellFormed s.cfg = true → exec i s = .next t →
    ((∃ v, i = .writeBit v) ∨ (∃ b, i = .sendByte b) ∨ i = .clear ∨ (∃ k, i = .select k) ∨ i = .readAll ∨
      i = .startConversion → t.result = s.result) ∧
    (i = .checkPresence → ∃ p : Bit, t.bus.events = s.bus.events ++ [.rst p] ∧ t.result = p.zeroExtend 32) ∧
    (i = .readBit → ∃ v : Bit, t.bus.events = s.bus.events ++ [.r v] ∧ t.result = v.zeroExtend 32) ∧
    (i = .readByte → ∃ b : Byte, t.bus.events = s.bus.events ++ rxEvents b ∧ t.result = b.zeroExtend 32) ∧
    (i = .count ∨ i = .discover ∨ i = .process → t.result = t.count.zeroExtend 32) ∧
    ((∃ k last, i = .searchPass k last) → t.result = t.lastdev.zeroExtend 32) ∧
    (∀ k, i = .getTemperature k → k < s.count →
      t.result = decodeTemp s.cfg (idByte k 0 s) (cacheByte k 0 s) (cacheByte k 1 s)) ∧
    (∀ c b, i = .crc8Update c b → t.result = (crc8Update c b).zeroExtend 32)) ∧
  (∀ (w : Word) (s t : State) (c : RejectCause), decode w = .error c → hostCommand w s = .next t → t.result = s.result) ∧
  (∀ (i : Instr) (s t : State), s.Inv → i.wellFormed s.cfg = false → exec i s = .next t → t.result = s.result)

/-- R303, R300, R80, R40, with the model's choice of log 14 (the tick keeps ticking): every accepted command ends and returns to
IDLE; the bus events it adds take the clock forward by their slots, back to back, and add their waveforms. -/
def Obligations.EveryAcceptedCommandEnds : Prop :=
  ∀ (i : Instr) (s : State), s.Inv → i.wellFormed s.cfg = true →
    ∃ (t : State) (new : List BusEvent), exec i s = .next t ∧ t.seq = .idle ∧
      t.bus.events = s.bus.events ++ new ∧
      t.bus.clock = s.bus.clock + (new.map (eventTicks s.cfg)).sum ∧
      t.bus.wave = s.bus.wave ++ new.flatMap (eventWave s.cfg)

/-- R301: the duration of every command in ticks, and the durations of its parts at the default timing. -/
def Obligations.DurationOfEveryCommand : Prop :=
  (Config.default.tP = 960 ∧ Config.default.tW = 70 ∧ Config.default.tR = 70 ∧ passTicks Config.default = 14000 ∧
    ∀ q, abortTicks Config.default q = 700 + 210 * q) ∧
  ∀ s : State, s.Inv →
    (∃ t, exec .checkPresence s = .next t ∧ t.bus.clock = s.bus.clock + s.cfg.tP) ∧
    (∀ v, ∃ t, exec (.writeBit v) s = .next t ∧ t.bus.clock = s.bus.clock + s.cfg.tW) ∧
    (∃ t, exec .readBit s = .next t ∧ t.bus.clock = s.bus.clock + s.cfg.tR) ∧
    (∀ b, ∃ t, exec (.sendByte b) s = .next t ∧ t.bus.clock = s.bus.clock + 8 * s.cfg.tW) ∧
    (∃ t, exec .readByte s = .next t ∧ t.bus.clock = s.bus.clock + 8 * s.cfg.tR) ∧
    (∃ t, exec .clear s = .next t ∧ t.bus.clock = s.bus.clock) ∧
    (∃ t, exec .count s = .next t ∧ t.bus.clock = s.bus.clock) ∧
    (∀ k, ∃ t, exec (.getTemperature k) s = .next t ∧ t.bus.clock = s.bus.clock) ∧
    (∀ c b, ∃ t, exec (.crc8Update c b) s = .next t ∧ t.bus.clock = s.bus.clock) ∧
    (∀ k, k < s.cfg.cap → ∃ t, exec (.select k) s = .next t ∧ t.bus.clock = s.bus.clock + 72 * s.cfg.tW) ∧
    (∀ k last, k < s.cfg.cap → ∃ (t : State) (xs : List Position), exec (.searchPass k last) s = .next t ∧
      ((xs.length = 64 ∧ t.bus.events = s.bus.events ++ (txEvents s.cfg.cmdSearch ++ xs.flatMap Position.events) ∧
          t.bus.clock = s.bus.clock + (8 * s.cfg.tW + 64 * (2 * s.cfg.tR + s.cfg.tW))) ∨
        (xs.length < 64 ∧ t.bus.events = s.bus.events ++
            (txEvents s.cfg.cmdSearch ++ (xs.flatMap Position.events ++ [.r 1#1, .r 1#1])) ∧
          t.bus.clock = s.bus.clock +
            (8 * s.cfg.tW + xs.length * (2 * s.cfg.tR + s.cfg.tW) + 2 * s.cfg.tR)))) ∧
    (∃ (t : State) (ps : List (List Position)) (e : DiscoveryEnd), exec .discover s = .next t ∧
      t.bus.events = s.bus.events ++ (ps.flatMap (passEvents s.cfg) ++ e.events s.cfg) ∧
      (∀ p ∈ ps, p.length = 64) ∧
      t.bus.clock = s.bus.clock + (ps.length * (s.cfg.tP + passTicks s.cfg) +
        match e with
        | .noMore => 0
        | .capacity => 0
        | .absent => s.cfg.tP
        | .collision xs => s.cfg.tP + abortTicks s.cfg xs.length)) ∧
    (∃ (t : State) (answers : List (Option (List Byte))), exec .readAll s = .next t ∧
      t.bus.events = s.bus.events ++ readFrames s 0 answers ∧ answers.length = s.count.toNat ∧
      t.bus.clock = s.bus.clock + (s.count.toNat * s.cfg.tP +
        answers.countP Option.isSome * (80 * s.cfg.tW + 8 * s.cfg.spLen.toNat * s.cfg.tR))) ∧
    (∃ t, exec .startConversion s = .next t ∧
      t.bus.clock = s.bus.clock +
        if (envReset s.bus.env s.bus.draws).low then s.cfg.tP + 16 * s.cfg.tW else s.cfg.tP) ∧
    (∃ (t : State) (answers : List (Option (List Byte))) (p q : Bit), exec .process s = .next t ∧
      t.bus.events = s.bus.events ++ (readFrames s 0 answers ++
        (.rst p :: if p = 1#1 then convertFrame s.cfg q else [])) ∧
      t.bus.clock = s.bus.clock + (s.count.toNat * s.cfg.tP +
          answers.countP Option.isSome * (80 * s.cfg.tW + 8 * s.cfg.spLen.toNat * s.cfg.tR) +
        (s.cfg.tP +
          if p = 1#1 then (if q = 1#1 then s.cfg.tP + 16 * s.cfg.tW else s.cfg.tP) else 0)))

/-- R45: the datapath registers are dead: two states that differ in nothing else give outcomes that differ in nothing else, for
every command, and every host read returns the same; and each piece the rule lists as live shows in some host read. -/
def Obligations.DatapathRegistersAreDead : Prop :=
  (∀ s s' : State, s.cfg.wf = true → SameLive s s' →
    (∀ i : Instr, SameOutcome (exec i s) (exec i s')) ∧ (∀ off : Nat, regRead off s = regRead off s')) ∧
  ∀ s s' : State, s.Inv → s'.Inv → (∀ off, off % 4 = 0 → regRead off s = regRead off s') →
    s'.ill = s.ill ∧ s'.result = s.result ∧ s'.count = s.count ∧ s'.lastdev = s.lastdev ∧ s'.drv = s.drv ∧
      ∀ a, memRead a s' = memRead a s
end

