-- ==== Sys2Proof/Laws/State.lean ====
section
/-! SUPPORT. One lemma per field per update of the state: what each named update leaves in each field. -/

namespace Sys2Proof.Machine

/-! `drive` -/

@[simp] theorem drive_cfg (d : Drv) (s : State) : (drive d s).cfg = s.cfg := rfl
@[simp] theorem drive_ill (d : Drv) (s : State) : (drive d s).ill = s.ill := rfl
@[simp] theorem drive_inReset (d : Drv) (s : State) : (drive d s).inReset = s.inReset := rfl
@[simp] theorem drive_result (d : Drv) (s : State) : (drive d s).result = s.result := rfl
@[simp] theorem drive_count (d : Drv) (s : State) : (drive d s).count = s.count := rfl
@[simp] theorem drive_lastdev (d : Drv) (s : State) : (drive d s).lastdev = s.lastdev := rfl
@[simp] theorem drive_mem (d : Drv) (s : State) : (drive d s).mem = s.mem := rfl
@[simp] theorem drive_seq (d : Drv) (s : State) : (drive d s).seq = s.seq := rfl
@[simp] theorem drive_drv (d : Drv) (s : State) : (drive d s).drv = d := rfl
@[simp] theorem drive_dp (d : Drv) (s : State) : (drive d s).dp = s.dp := rfl
@[simp] theorem drive_bus (d : Drv) (s : State) : (drive d s).bus = s.bus := rfl
@[simp] theorem drive_host (d : Drv) (s : State) : (drive d s).host = s.host := rfl
@[simp] theorem drive_readLog (d : Drv) (s : State) : (drive d s).readLog = s.readLog := rfl

/-! `wait` -/

@[simp] theorem wait_cfg (n : Nat) (s : State) : (wait n s).cfg = s.cfg := rfl
@[simp] theorem wait_ill (n : Nat) (s : State) : (wait n s).ill = s.ill := rfl
@[simp] theorem wait_inReset (n : Nat) (s : State) : (wait n s).inReset = s.inReset := rfl
@[simp] theorem wait_result (n : Nat) (s : State) : (wait n s).result = s.result := rfl
@[simp] theorem wait_count (n : Nat) (s : State) : (wait n s).count = s.count := rfl
@[simp] theorem wait_lastdev (n : Nat) (s : State) : (wait n s).lastdev = s.lastdev := rfl
@[simp] theorem wait_mem (n : Nat) (s : State) : (wait n s).mem = s.mem := rfl
@[simp] theorem wait_seq (n : Nat) (s : State) : (wait n s).seq = s.seq := rfl
@[simp] theorem wait_drv (n : Nat) (s : State) : (wait n s).drv = s.drv := rfl
@[simp] theorem wait_dp (n : Nat) (s : State) : (wait n s).dp = { s.dp with tickcnt := 0 } := rfl
@[simp] theorem wait_bus (n : Nat) (s : State) : (wait n s).bus = { s.bus with clock := s.bus.clock + n, wave := s.bus.wave ++ [.hold s.drv n] } := rfl
@[simp] theorem wait_host (n : Nat) (s : State) : (wait n s).host = s.host := rfl
@[simp] theorem wait_readLog (n : Nat) (s : State) : (wait n s).readLog = s.readLog := rfl

/-! `emit` -/

@[simp] theorem emit_cfg (e : BusEvent) (s : State) : (emit e s).cfg = s.cfg := rfl
@[simp] theorem emit_ill (e : BusEvent) (s : State) : (emit e s).ill = s.ill := rfl
@[simp] theorem emit_inReset (e : BusEvent) (s : State) : (emit e s).inReset = s.inReset := rfl
@[simp] theorem emit_result (e : BusEvent) (s : State) : (emit e s).result = s.result := rfl
@[simp] theorem emit_count (e : BusEvent) (s : State) : (emit e s).count = s.count := rfl
@[simp] theorem emit_lastdev (e : BusEvent) (s : State) : (emit e s).lastdev = s.lastdev := rfl
@[simp] theorem emit_mem (e : BusEvent) (s : State) : (emit e s).mem = s.mem := rfl
@[simp] theorem emit_seq (e : BusEvent) (s : State) : (emit e s).seq = s.seq := rfl
@[simp] theorem emit_drv (e : BusEvent) (s : State) : (emit e s).drv = s.drv := rfl
@[simp] theorem emit_dp (e : BusEvent) (s : State) : (emit e s).dp = s.dp := rfl
@[simp] theorem emit_bus (e : BusEvent) (s : State) : (emit e s).bus = { s.bus with events := s.bus.events ++ [e] } := rfl
@[simp] theorem emit_host (e : BusEvent) (s : State) : (emit e s).host = s.host := rfl
@[simp] theorem emit_readLog (e : BusEvent) (s : State) : (emit e s).readLog = s.readLog := rfl

/-! `answered` -/

@[simp] theorem answered_cfg (a : Answer) (s : State) : (answered a s).cfg = s.cfg := rfl
@[simp] theorem answered_ill (a : Answer) (s : State) : (answered a s).ill = s.ill := rfl
@[simp] theorem answered_inReset (a : Answer) (s : State) : (answered a s).inReset = s.inReset := rfl
@[simp] theorem answered_result (a : Answer) (s : State) : (answered a s).result = s.result := rfl
@[simp] theorem answered_count (a : Answer) (s : State) : (answered a s).count = s.count := rfl
@[simp] theorem answered_lastdev (a : Answer) (s : State) : (answered a s).lastdev = s.lastdev := rfl
@[simp] theorem answered_mem (a : Answer) (s : State) : (answered a s).mem = s.mem := rfl
@[simp] theorem answered_seq (a : Answer) (s : State) : (answered a s).seq = s.seq := rfl
@[simp] theorem answered_drv (a : Answer) (s : State) : (answered a s).drv = s.drv := rfl
@[simp] theorem answered_dp (a : Answer) (s : State) : (answered a s).dp = s.dp := rfl
@[simp] theorem answered_bus (a : Answer) (s : State) : (answered a s).bus = { s.bus with env := a.env, draws := a.draws } := rfl
@[simp] theorem answered_host (a : Answer) (s : State) : (answered a s).host = s.host := rfl
@[simp] theorem answered_readLog (a : Answer) (s : State) : (answered a s).readLog = s.readLog := rfl

/-! `lineWrite` -/

@[simp] theorem lineWrite_cfg (v : Bit) (s : State) : (lineWrite v s).cfg = s.cfg := rfl
@[simp] theorem lineWrite_ill (v : Bit) (s : State) : (lineWrite v s).ill = s.ill := rfl
@[simp] theorem lineWrite_inReset (v : Bit) (s : State) : (lineWrite v s).inReset = s.inReset := rfl
@[simp] theorem lineWrite_result (v : Bit) (s : State) : (lineWrite v s).result = s.result := rfl
@[simp] theorem lineWrite_count (v : Bit) (s : State) : (lineWrite v s).count = s.count := rfl
@[simp] theorem lineWrite_lastdev (v : Bit) (s : State) : (lineWrite v s).lastdev = s.lastdev := rfl
@[simp] theorem lineWrite_mem (v : Bit) (s : State) : (lineWrite v s).mem = s.mem := rfl
@[simp] theorem lineWrite_seq (v : Bit) (s : State) : (lineWrite v s).seq = s.seq := rfl
@[simp] theorem lineWrite_drv (v : Bit) (s : State) : (lineWrite v s).drv = s.drv := rfl
@[simp] theorem lineWrite_dp (v : Bit) (s : State) : (lineWrite v s).dp = s.dp := rfl
@[simp] theorem lineWrite_bus (v : Bit) (s : State) : (lineWrite v s).bus = { s.bus with env := envWrite s.cfg v s.bus.env } := rfl
@[simp] theorem lineWrite_host (v : Bit) (s : State) : (lineWrite v s).host = s.host := rfl
@[simp] theorem lineWrite_readLog (v : Bit) (s : State) : (lineWrite v s).readLog = s.readLog := rfl

/-! `onDp` -/

@[simp] theorem onDp_cfg (f : Datapath → Datapath) (s : State) : (onDp f s).cfg = s.cfg := rfl
@[simp] theorem onDp_ill (f : Datapath → Datapath) (s : State) : (onDp f s).ill = s.ill := rfl
@[simp] theorem onDp_inReset (f : Datapath → Datapath) (s : State) : (onDp f s).inReset = s.inReset := rfl
@[simp] theorem onDp_result (f : Datapath → Datapath) (s : State) : (onDp f s).result = s.result := rfl
@[simp] theorem onDp_count (f : Datapath → Datapath) (s : State) : (onDp f s).count = s.count := rfl
@[simp] theorem onDp_lastdev (f : Datapath → Datapath) (s : State) : (onDp f s).lastdev = s.lastdev := rfl
@[simp] theorem onDp_mem (f : Datapath → Datapath) (s : State) : (onDp f s).mem = s.mem := rfl
@[simp] theorem onDp_seq (f : Datapath → Datapath) (s : State) : (onDp f s).seq = s.seq := rfl
@[simp] theorem onDp_drv (f : Datapath → Datapath) (s : State) : (onDp f s).drv = s.drv := rfl
@[simp] theorem onDp_dp (f : Datapath → Datapath) (s : State) : (onDp f s).dp = f s.dp := rfl
@[simp] theorem onDp_bus (f : Datapath → Datapath) (s : State) : (onDp f s).bus = s.bus := rfl
@[simp] theorem onDp_host (f : Datapath → Datapath) (s : State) : (onDp f s).host = s.host := rfl
@[simp] theorem onDp_readLog (f : Datapath → Datapath) (s : State) : (onDp f s).readLog = s.readLog := rfl

/-! `setCount` -/

@[simp] theorem setCount_cfg (v : Byte) (s : State) : (setCount v s).cfg = s.cfg := rfl
@[simp] theorem setCount_ill (v : Byte) (s : State) : (setCount v s).ill = s.ill := rfl
@[simp] theorem setCount_inReset (v : Byte) (s : State) : (setCount v s).inReset = s.inReset := rfl
@[simp] theorem setCount_result (v : Byte) (s : State) : (setCount v s).result = s.result := rfl
@[simp] theorem setCount_count (v : Byte) (s : State) : (setCount v s).count = v := rfl
@[simp] theorem setCount_lastdev (v : Byte) (s : State) : (setCount v s).lastdev = s.lastdev := rfl
@[simp] theorem setCount_mem (v : Byte) (s : State) : (setCount v s).mem = s.mem := rfl
@[simp] theorem setCount_seq (v : Byte) (s : State) : (setCount v s).seq = s.seq := rfl
@[simp] theorem setCount_drv (v : Byte) (s : State) : (setCount v s).drv = s.drv := rfl
@[simp] theorem setCount_dp (v : Byte) (s : State) : (setCount v s).dp = s.dp := rfl
@[simp] theorem setCount_bus (v : Byte) (s : State) : (setCount v s).bus = s.bus := rfl
@[simp] theorem setCount_host (v : Byte) (s : State) : (setCount v s).host = s.host := rfl
@[simp] theorem setCount_readLog (v : Byte) (s : State) : (setCount v s).readLog = s.readLog := rfl

/-! `setLastdev` -/

@[simp] theorem setLastdev_cfg (v : Byte) (s : State) : (setLastdev v s).cfg = s.cfg := rfl
@[simp] theorem setLastdev_ill (v : Byte) (s : State) : (setLastdev v s).ill = s.ill := rfl
@[simp] theorem setLastdev_inReset (v : Byte) (s : State) : (setLastdev v s).inReset = s.inReset := rfl
@[simp] theorem setLastdev_result (v : Byte) (s : State) : (setLastdev v s).result = s.result := rfl
@[simp] theorem setLastdev_count (v : Byte) (s : State) : (setLastdev v s).count = s.count := rfl
@[simp] theorem setLastdev_lastdev (v : Byte) (s : State) : (setLastdev v s).lastdev = v := rfl
@[simp] theorem setLastdev_mem (v : Byte) (s : State) : (setLastdev v s).mem = s.mem := rfl
@[simp] theorem setLastdev_seq (v : Byte) (s : State) : (setLastdev v s).seq = s.seq := rfl
@[simp] theorem setLastdev_drv (v : Byte) (s : State) : (setLastdev v s).drv = s.drv := rfl
@[simp] theorem setLastdev_dp (v : Byte) (s : State) : (setLastdev v s).dp = s.dp := rfl
@[simp] theorem setLastdev_bus (v : Byte) (s : State) : (setLastdev v s).bus = s.bus := rfl
@[simp] theorem setLastdev_host (v : Byte) (s : State) : (setLastdev v s).host = s.host := rfl
@[simp] theorem setLastdev_readLog (v : Byte) (s : State) : (setLastdev v s).readLog = s.readLog := rfl

/-! `setResult` -/

@[simp] theorem setResult_cfg (w : Word) (s : State) : (setResult w s).cfg = s.cfg := rfl
@[simp] theorem setResult_ill (w : Word) (s : State) : (setResult w s).ill = s.ill := rfl
@[simp] theorem setResult_inReset (w : Word) (s : State) : (setResult w s).inReset = s.inReset := rfl
@[simp] theorem setResult_result (w : Word) (s : State) : (setResult w s).result = w := rfl
@[simp] theorem setResult_count (w : Word) (s : State) : (setResult w s).count = s.count := rfl
@[simp] theorem setResult_lastdev (w : Word) (s : State) : (setResult w s).lastdev = s.lastdev := rfl
@[simp] theorem setResult_mem (w : Word) (s : State) : (setResult w s).mem = s.mem := rfl
@[simp] theorem setResult_seq (w : Word) (s : State) : (setResult w s).seq = s.seq := rfl
@[simp] theorem setResult_drv (w : Word) (s : State) : (setResult w s).drv = s.drv := rfl
@[simp] theorem setResult_dp (w : Word) (s : State) : (setResult w s).dp = s.dp := rfl
@[simp] theorem setResult_bus (w : Word) (s : State) : (setResult w s).bus = s.bus := rfl
@[simp] theorem setResult_host (w : Word) (s : State) : (setResult w s).host = s.host := rfl
@[simp] theorem setResult_readLog (w : Word) (s : State) : (setResult w s).readLog = s.readLog := rfl

/-! `accept` -/

@[simp] theorem accept_cfg (op : Instr) (s : State) : (accept op s).cfg = s.cfg := rfl
@[simp] theorem accept_ill (op : Instr) (s : State) : (accept op s).ill = s.ill := rfl
@[simp] theorem accept_inReset (op : Instr) (s : State) : (accept op s).inReset = s.inReset := rfl
@[simp] theorem accept_result (op : Instr) (s : State) : (accept op s).result = s.result := rfl
@[simp] theorem accept_count (op : Instr) (s : State) : (accept op s).count = s.count := rfl
@[simp] theorem accept_lastdev (op : Instr) (s : State) : (accept op s).lastdev = s.lastdev := rfl
@[simp] theorem accept_mem (op : Instr) (s : State) : (accept op s).mem = s.mem := rfl
@[simp] theorem accept_seq (op : Instr) (s : State) : (accept op s).seq = .busy op := rfl
@[simp] theorem accept_drv (op : Instr) (s : State) : (accept op s).drv = s.drv := rfl
@[simp] theorem accept_dp (op : Instr) (s : State) : (accept op s).dp = s.dp := rfl
@[simp] theorem accept_bus (op : Instr) (s : State) : (accept op s).bus = s.bus := rfl
@[simp] theorem accept_host (op : Instr) (s : State) : (accept op s).host = s.host := rfl
@[simp] theorem accept_readLog (op : Instr) (s : State) : (accept op s).readLog = s.readLog := rfl

/-! `complete` -/

@[simp] theorem complete_cfg (s : State) : (complete s).cfg = s.cfg := rfl
@[simp] theorem complete_ill (s : State) : (complete s).ill = s.ill := rfl
@[simp] theorem complete_inReset (s : State) : (complete s).inReset = s.inReset := rfl
@[simp] theorem complete_result (s : State) : (complete s).result = s.result := rfl
@[simp] theorem complete_count (s : State) : (complete s).count = s.count := rfl
@[simp] theorem complete_lastdev (s : State) : (complete s).lastdev = s.lastdev := rfl
@[simp] theorem complete_mem (s : State) : (complete s).mem = s.mem := rfl
@[simp] theorem complete_seq (s : State) : (complete s).seq = .idle := rfl
@[simp] theorem complete_drv (s : State) : (complete s).drv = s.drv := rfl
@[simp] theorem complete_dp (s : State) : (complete s).dp = s.dp := rfl
@[simp] theorem complete_bus (s : State) : (complete s).bus = s.bus := rfl
@[simp] theorem complete_host (s : State) : (complete s).host = s.host := rfl
@[simp] theorem complete_readLog (s : State) : (complete s).readLog = s.readLog := rfl

/-! `reject` -/

@[simp] theorem reject_cfg (s : State) : (reject s).cfg = s.cfg := rfl
@[simp] theorem reject_ill (s : State) : (reject s).ill = true := rfl
@[simp] theorem reject_inReset (s : State) : (reject s).inReset = s.inReset := rfl
@[simp] theorem reject_result (s : State) : (reject s).result = s.result := rfl
@[simp] theorem reject_count (s : State) : (reject s).count = s.count := rfl
@[simp] theorem reject_lastdev (s : State) : (reject s).lastdev = s.lastdev := rfl
@[simp] theorem reject_mem (s : State) : (reject s).mem = s.mem := rfl
@[simp] theorem reject_seq (s : State) : (reject s).seq = s.seq := rfl
@[simp] theorem reject_drv (s : State) : (reject s).drv = s.drv := rfl
@[simp] theorem reject_dp (s : State) : (reject s).dp = s.dp := rfl
@[simp] theorem reject_bus (s : State) : (reject s).bus = s.bus := rfl
@[simp] theorem reject_host (s : State) : (reject s).host = s.host := rfl
@[simp] theorem reject_readLog (s : State) : (reject s).readLog = s.readLog := rfl

/-! `writeStatus` -/

@[simp] theorem writeStatus_cfg (w : Word) (s : State) : (writeStatus w s).cfg = s.cfg := rfl
@[simp] theorem writeStatus_ill (w : Word) (s : State) : (writeStatus w s).ill = (s.ill && !w.getLsbD 1) := rfl
@[simp] theorem writeStatus_inReset (w : Word) (s : State) : (writeStatus w s).inReset = s.inReset := rfl
@[simp] theorem writeStatus_result (w : Word) (s : State) : (writeStatus w s).result = s.result := rfl
@[simp] theorem writeStatus_count (w : Word) (s : State) : (writeStatus w s).count = s.count := rfl
@[simp] theorem writeStatus_lastdev (w : Word) (s : State) : (writeStatus w s).lastdev = s.lastdev := rfl
@[simp] theorem writeStatus_mem (w : Word) (s : State) : (writeStatus w s).mem = s.mem := rfl
@[simp] theorem writeStatus_seq (w : Word) (s : State) : (writeStatus w s).seq = s.seq := rfl
@[simp] theorem writeStatus_drv (w : Word) (s : State) : (writeStatus w s).drv = s.drv := rfl
@[simp] theorem writeStatus_dp (w : Word) (s : State) : (writeStatus w s).dp = s.dp := rfl
@[simp] theorem writeStatus_bus (w : Word) (s : State) : (writeStatus w s).bus = s.bus := rfl
@[simp] theorem writeStatus_host (w : Word) (s : State) : (writeStatus w s).host = s.host := rfl
@[simp] theorem writeStatus_readLog (w : Word) (s : State) : (writeStatus w s).readLog = s.readLog := rfl

/-! `takeCount` -/

@[simp] theorem takeCount_cfg (s : State) : (takeCount s).cfg = s.cfg := rfl
@[simp] theorem takeCount_ill (s : State) : (takeCount s).ill = s.ill := rfl
@[simp] theorem takeCount_inReset (s : State) : (takeCount s).inReset = s.inReset := rfl
@[simp] theorem takeCount_result (s : State) : (takeCount s).result = s.result := rfl
@[simp] theorem takeCount_count (s : State) : (takeCount s).count = s.dp.npass := rfl
@[simp] theorem takeCount_lastdev (s : State) : (takeCount s).lastdev = s.lastdev := rfl
@[simp] theorem takeCount_mem (s : State) : (takeCount s).mem = s.mem := rfl
@[simp] theorem takeCount_seq (s : State) : (takeCount s).seq = s.seq := rfl
@[simp] theorem takeCount_drv (s : State) : (takeCount s).drv = s.drv := rfl
@[simp] theorem takeCount_dp (s : State) : (takeCount s).dp = s.dp := rfl
@[simp] theorem takeCount_bus (s : State) : (takeCount s).bus = s.bus := rfl
@[simp] theorem takeCount_host (s : State) : (takeCount s).host = s.host := rfl
@[simp] theorem takeCount_readLog (s : State) : (takeCount s).readLog = s.readLog := rfl

/-! `idleFor` -/

@[simp] theorem idleFor_cfg (n : Nat) (s : State) : (idleFor n s).cfg = s.cfg := by unfold idleFor; split <;> rfl
@[simp] theorem idleFor_inReset (n : Nat) (s : State) : (idleFor n s).inReset = s.inReset := by unfold idleFor; split <;> rfl
@[simp] theorem idleFor_ill (n : Nat) (s : State) : (idleFor n s).ill = s.ill := by unfold idleFor; split <;> rfl
@[simp] theorem idleFor_result (n : Nat) (s : State) : (idleFor n s).result = s.result := by unfold idleFor; split <;> rfl
@[simp] theorem idleFor_count (n : Nat) (s : State) : (idleFor n s).count = s.count := by unfold idleFor; split <;> rfl
@[simp] theorem idleFor_lastdev (n : Nat) (s : State) : (idleFor n s).lastdev = s.lastdev := by unfold idleFor; split <;> rfl
@[simp] theorem idleFor_mem (n : Nat) (s : State) : (idleFor n s).mem = s.mem := by unfold idleFor; split <;> rfl
@[simp] theorem idleFor_seq (n : Nat) (s : State) : (idleFor n s).seq = s.seq := by unfold idleFor; split <;> rfl
@[simp] theorem idleFor_drv (n : Nat) (s : State) : (idleFor n s).drv = s.drv := by unfold idleFor; split <;> rfl
@[simp] theorem idleFor_dp (n : Nat) (s : State) : (idleFor n s).dp = s.dp := by unfold idleFor; split <;> rfl
@[simp] theorem idleFor_host (n : Nat) (s : State) : (idleFor n s).host = s.host := by unfold idleFor; split <;> rfl
@[simp] theorem idleFor_readLog (n : Nat) (s : State) : (idleFor n s).readLog = s.readLog := by unfold idleFor; split <;> rfl
@[simp] theorem idleFor_env (n : Nat) (s : State) : (idleFor n s).bus.env = s.bus.env := by unfold idleFor; split <;> rfl
@[simp] theorem idleFor_draws (n : Nat) (s : State) : (idleFor n s).bus.draws = s.bus.draws := by unfold idleFor; split <;> rfl
@[simp] theorem idleFor_events (n : Nat) (s : State) : (idleFor n s).bus.events = s.bus.events := by unfold idleFor; split <;> rfl
@[simp] theorem idleFor_clock (n : Nat) (s : State) : (idleFor n s).bus.clock = s.bus.clock + n := by
  unfold idleFor; split
  · subst_vars; rfl
  · rfl

/-! `setReset`: asserted, released, released again -/

@[simp] theorem setReset_true (s : State) :
    setReset true s = { State.resetWith s.cfg with inReset := true, bus := s.bus, host := s.host, readLog := s.readLog } := rfl
theorem setReset_false_held {s : State} (h : s.inReset = true) : setReset false s = resetMachine s := by
  simp only [setReset, h, Bool.false_eq_true, reduceIte]
theorem setReset_false_idle {s : State} (h : s.inReset = false) : setReset false s = s := by
  simp only [setReset, h, Bool.false_eq_true, reduceIte]
@[simp] theorem setReset_inReset (a : Bool) (s : State) : (setReset a s).inReset = a := by
  cases a with
  | true => rfl
  | false =>
    cases h : s.inReset with
    | true => rw [setReset_false_held h]; rfl
    | false => rw [setReset_false_idle h, h]
@[simp] theorem setReset_cfg (a : Bool) (s : State) : (setReset a s).cfg = s.cfg := by
  unfold setReset; repeat' split
  all_goals rfl
@[simp] theorem setReset_bus (a : Bool) (s : State) : (setReset a s).bus = s.bus := by
  unfold setReset; repeat' split
  all_goals rfl
@[simp] theorem setReset_host (a : Bool) (s : State) : (setReset a s).host = s.host := by
  unfold setReset; repeat' split
  all_goals rfl
@[simp] theorem setReset_readLog (a : Bool) (s : State) : (setReset a s).readLog = s.readLog := by
  unfold setReset; repeat' split
  all_goals rfl

end Sys2Proof.Machine
end

