-- ==== Sys2Proof/Laws/Line.lean ====
section
/-! SUPPORT. What each of the three line primitives does, once: its value and its whole next state. -/

namespace Sys2Proof.Machine

/-- A bit is 0 or 1. -/
theorem bit_cases (v : Bit) : v = 0#1 ∨ v = 1#1 := by
  revert v; decide

/-- Everything `CheckPresence` does (R140, R110). -/
theorem checkPresence_eq (s : State) :
    checkPresence s =
      (BitVec.ofBool (envReset s.bus.env s.bus.draws).low,
        { s with
          drv := .rel
          dp := { s.dp with tickcnt := 0 }
          bus :=
            { env := (envReset s.bus.env s.bus.draws).env
              draws := (envReset s.bus.env s.bus.draws).draws
              clock := s.bus.clock + s.cfg.tP
              events := s.bus.events ++ [.rst (BitVec.ofBool (envReset s.bus.env s.bus.draws).low)]
              wave := s.bus.wave ++ presenceWave s.cfg (envReset s.bus.env s.bus.draws).low } }) := by
  simp only [checkPresence, drive, wait, answered, sample, emit, lineLevel, contentionDraws, Config.tP, presenceWave,
    List.append_assoc, List.cons_append, List.nil_append, Nat.add_assoc, Nat.add_zero]
  cases (envReset s.bus.env s.bus.draws).low <;> rfl

/-- Everything `WriteBit` does (R143, R111). -/
theorem writeBit_eq (v : Bit) (s : State) :
    writeBit v s =
      { s with
        drv := .rel
        dp := { s.dp with tickcnt := 0 }
        bus :=
          { env := envWrite s.cfg v s.bus.env
            draws := s.bus.draws
            clock := s.bus.clock + s.cfg.tW
            events := s.bus.events ++ [.w v]
            wave := s.bus.wave ++ writeWave s.cfg v } } := by
  rcases bit_cases v with rfl | rfl
  · simp [writeBit, drive, wait, lineWrite, emit, Config.tW, writeWave, Nat.add_assoc]
  · simp [writeBit, drive, wait, lineWrite, emit, Config.tW, writeWave, Nat.add_assoc, Nat.add_comm s.cfg.tWx]

/-- Everything `ReadBit` does (R146, R112). -/
theorem readBit_eq (s : State) :
    readBit s =
      (BitVec.ofBool (!(envRead s.bus.env s.bus.draws).low),
        { s with
          drv := .rel
          dp := { s.dp with tickcnt := 0 }
          bus :=
            { env := (envRead s.bus.env s.bus.draws).env
              draws := (envRead s.bus.env s.bus.draws).draws
              clock := s.bus.clock + s.cfg.tR
              events := s.bus.events ++ [.r (BitVec.ofBool (!(envRead s.bus.env s.bus.draws).low))]
              wave := s.bus.wave ++ readWave s.cfg (envRead s.bus.env s.bus.draws).low } }) := by
  simp only [readBit, drive, wait, answered, sample, emit, lineLevel, contentionDraws, Config.tR, readWave,
    List.append_assoc, List.cons_append, List.nil_append, Nat.add_assoc, Nat.add_zero]
  cases (envRead s.bus.env s.bus.draws).low <;> rfl

/-- How the line's other side goes through a run of time slots: what each sampled is its answer there (R13, R43).
`draw` is a free value taken for something other than the line. -/
inductive LineTells (c : Config) : List BusEvent → Env → Nat → Env → Nat → Prop
  | nil (e : Env) (n : Nat) : LineTells c [] e n e n
  | draw {es : List BusEvent} {e e' : Env} {n n' : Nat} (h : LineTells c es e (n + 1) e' n') : LineTells c es e n e' n'
  | rst {es : List BusEvent} {e e' : Env} {n n' : Nat}
      (h : LineTells c es (envReset e n).env (envReset e n).draws e' n') :
      LineTells c (.rst (BitVec.ofBool (envReset e n).low) :: es) e n e' n'
  | r {es : List BusEvent} {e e' : Env} {n n' : Nat} (h : LineTells c es (envRead e n).env (envRead e n).draws e' n') :
      LineTells c (.r (BitVec.ofBool (!(envRead e n).low)) :: es) e n e' n'
  | w {es : List BusEvent} {e e' : Env} {n n' : Nat} (v : Bit) (h : LineTells c es (envWrite c v e) n e' n') :
      LineTells c (.w v :: es) e n e' n'
  | spu {es : List BusEvent} {e e' : Env} {n n' : Nat} (h : LineTells c es e n e' n') : LineTells c (.spu :: es) e n e' n'

theorem LineTells.trans {c : Config} {a b : List BusEvent} {e e1 e2 : Env} {n n1 n2 : Nat} (h : LineTells c a e n e1 n1)
    (g : LineTells c b e1 n1 e2 n2) : LineTells c (a ++ b) e n e2 n2 := by
  induction h with
  | nil => exact g
  | draw _ ih => exact .draw (ih g)
  | rst _ ih => exact .rst (ih g)
  | r _ ih => exact .r (ih g)
  | w v _ ih => exact .w v (ih g)
  | spu _ ih => exact .spu (ih g)

/-- An oracle gives the answers of its script and goes on with what is left of it. -/
theorem LineTells.answered {c : Config} {es : List BusEvent} {e e' : Env} {n n' : Nat} (h : LineTells c es e n e' n')
    {script : List Bool} (he : e = .oracle script) : Answered script es e' := by
  induction h generalizing script with
  | nil => subst he; exact ⟨by simp, by simp⟩
  | draw _ ih => exact ih he
  | rst _ ih =>
    subst he
    obtain ⟨h1, h2⟩ := ih (script := script.tail) (by cases script <;> rfl)
    unfold Answered
    rw [List.flatMap_cons]
    cases script with
    | nil => exact ⟨by simp, by simpa using h2⟩
    | cons x xs => refine ⟨?_, by simpa [heard] using h2⟩; cases x <;> simpa [heard, envReset, oracleAnswer] using h1
  | r _ ih =>
    subst he
    obtain ⟨h1, h2⟩ := ih (script := script.tail) (by cases script <;> rfl)
    unfold Answered
    rw [List.flatMap_cons]
    cases script with
    | nil => exact ⟨by simp, by simpa using h2⟩
    | cons x xs => refine ⟨?_, by simpa [heard] using h2⟩; cases x <;> simpa [heard, envRead, oracleAnswer] using h1
  | w v _ ih => subst he; exact ih rfl
  | spu _ ih => exact ih he

/-- What is heard is the script, sample by sample. -/
theorem Answered.get {script : List Bool} {new : List BusEvent} {env : Env} (h : Answered script new env) {i : Nat}
    (h1 : i < (new.flatMap heard).length) (h2 : i < script.length) : (new.flatMap heard)[i]? = script[i]? := by
  have k := congrArg (fun l => l[i]?) h.1
  simpa only [List.getElem?_take, h1, h2, reduceIte] using k

/-- The two samples of position `i` of a script of pairs. -/
theorem pairScript_get (pairs : List (Bool × Bool)) (rest : List Bool) {i : Nat} (h : i < pairs.length) :
    (pairScript pairs ++ rest)[2 * i]? = some pairs[i].1 ∧ (pairScript pairs ++ rest)[2 * i + 1]? = some pairs[i].2 := by
  induction pairs generalizing i with
  | nil => simp at h
  | cons x xs ih =>
    cases i with
    | zero => exact ⟨rfl, rfl⟩
    | succ i => exact ih (by simpa using h)

theorem pairScript_length (pairs : List (Bool × Bool)) : (pairScript pairs).length = 2 * pairs.length := by
  induction pairs with
  | nil => rfl
  | cons x xs ih => simp only [pairScript, List.flatMap_cons, List.length_append, List.length_cons, List.length_nil] at *; omega

theorem SameOutsideLine.refl (s : State) : SameOutsideLine s s :=
  ⟨rfl, rfl, rfl, rfl, rfl, rfl, rfl, rfl, rfl, rfl⟩

theorem SameOutsideLine.trans {s t u : State} (h : SameOutsideLine s t) (g : SameOutsideLine t u) :
    SameOutsideLine s u :=
  ⟨g.cfg.trans h.cfg, g.inReset.trans h.inReset, g.ill.trans h.ill, g.result.trans h.result, g.count.trans h.count,
    g.lastdev.trans h.lastdev, g.mem.trans h.mem, g.seq.trans h.seq, g.host.trans h.host,
    g.readLog.trans h.readLog⟩

/-- The datapath is no part of what `SameOutsideLine` compares. -/
theorem SameOutsideLine.setDp (s : State) (d : Datapath) : SameOutsideLine s { s with dp := d } :=
  ⟨rfl, rfl, rfl, rfl, rfl, rfl, rfl, rfl, rfl, rfl⟩

theorem checkPresence_same (s : State) : SameOutsideLine s (checkPresence s).2 := by
  rw [checkPresence_eq]; exact ⟨rfl, rfl, rfl, rfl, rfl, rfl, rfl, rfl, rfl, rfl⟩

theorem writeBit_same (v : Bit) (s : State) : SameOutsideLine s (writeBit v s) := by
  rw [writeBit_eq]; exact ⟨rfl, rfl, rfl, rfl, rfl, rfl, rfl, rfl, rfl, rfl⟩

theorem readBit_same (s : State) : SameOutsideLine s (readBit s).2 := by
  rw [readBit_eq]; exact ⟨rfl, rfl, rfl, rfl, rfl, rfl, rfl, rfl, rfl, rfl⟩

theorem checkPresence_drv (s : State) : (checkPresence s).2.drv = .rel := by rw [checkPresence_eq]
theorem writeBit_drv (v : Bit) (s : State) : (writeBit v s).drv = .rel := by rw [writeBit_eq]
theorem readBit_drv (s : State) : (readBit s).2.drv = .rel := by rw [readBit_eq]

theorem checkPresence_dp (s : State) : (checkPresence s).2.dp = { s.dp with tickcnt := 0 } := by
  rw [checkPresence_eq]
theorem writeBit_dp (v : Bit) (s : State) : (writeBit v s).dp = { s.dp with tickcnt := 0 } := by
  rw [writeBit_eq]
theorem readBit_dp (s : State) : (readBit s).2.dp = { s.dp with tickcnt := 0 } := by
  rw [readBit_eq]

end Sys2Proof.Machine
end

