-- ==== Sys2Proof/Laws/Framing.lean ====
section
/-! SUPPORT. Bits and bytes on the line: how bytes come apart into slots and are put together again, and what a run of time
slots does to the state (`LineRun`), for `SendByte` and `ReadByte`. -/

namespace Sys2Proof.Machine

theorem bitOf_getLsbD (v : Byte) (i : Nat) : bitOf v i = BitVec.ofBool (v.getLsbD i) := by
  unfold bitOf
  apply BitVec.eq_of_getLsbD_eq
  intro j hj
  have : j = 0 := by omega
  subst this
  simp

/-- The other bits move down by one. -/
theorem bitOf_ushiftRight (v : Byte) (i : Nat) : bitOf (v >>> 1) i = bitOf v (i + 1) := by
  rw [bitOf_getLsbD, bitOf_getLsbD, BitVec.getLsbD_ushiftRight, Nat.add_comm]

theorem shiftIn_getLsbD (b : Bit) (v : Byte) (i : Nat) (h : i < 8) :
    (shiftIn b v).getLsbD i = if i = 7 then b.getLsbD 0 else v.getLsbD (i + 1) := by
  unfold shiftIn
  rw [BitVec.getLsbD_or, BitVec.getLsbD_ushiftRight, BitVec.getLsbD_shiftLeft]
  by_cases h7 : i = 7
  · subst h7; simp
  · have : i < 7 := by omega
    simp [h7, this, Nat.add_comm]

/-- Bit 7 is the bit shifted in; the others move down by one (R71). -/
theorem bitOf_shiftIn (b : Bit) (v : Byte) (i : Nat) (h : i < 8) :
    bitOf (shiftIn b v) i = if i = 7 then b else bitOf v (i + 1) := by
  rw [bitOf_getLsbD, shiftIn_getLsbD b v i h]
  split
  · revert b; decide
  · rw [bitOf_getLsbD]

/-- Eight bits shifted in, the first in order, make the byte whose bit i is the i-th of them (R71). -/
theorem bitOf_shiftIns (v0 v1 v2 v3 v4 v5 v6 v7 : Bit) (v : Byte) :
    lsbFirst (shiftIn v7 (shiftIn v6 (shiftIn v5 (shiftIn v4 (shiftIn v3 (shiftIn v2 (shiftIn v1
      (shiftIn v0 v)))))))) = [v0, v1, v2, v3, v4, v5, v6, v7] := by
  simp [lsbFirst, List.range_succ, bitOf_shiftIn]

/-- A list of eight bits is the eight bits of the byte they shift into. -/
theorem lsbFirst_foldl (vs : List Bit) (h : vs.length = 8) (v : Byte) :
    lsbFirst (vs.foldl (fun a b => shiftIn b a) v) = vs := by
  match vs, h with
  | [v0, v1, v2, v3, v4, v5, v6, v7], _ => exact bitOf_shiftIns v0 v1 v2 v3 v4 v5 v6 v7 v

theorem byte_ext {a b : Byte} (h : ∀ i, i < 8 → bitOf a i = bitOf b i) : a = b := by
  apply BitVec.eq_of_getLsbD_eq
  intro i hi
  have := h i hi
  rw [bitOf_getLsbD, bitOf_getLsbD] at this
  simpa using congrArg (fun x => x.getLsbD 0) this

/-- A byte is determined by its bits in order. -/
theorem lsbFirst_injective {a b : Byte} (h : lsbFirst a = lsbFirst b) : a = b := by
  refine byte_ext fun i hi => ?_
  have := congrArg (fun l => l[i]?) h
  simpa [lsbFirst, hi] using this

theorem lsbFirst_length (b : Byte) : (lsbFirst b).length = 8 := by simp [lsbFirst]

/-- What a run of time slots does: the line's events, each taking its slot; the driver released if there was one; TICKCNT at
rest at the end; outside the line and the datapath nothing changed. -/
structure LineRun (s t : State) (new : List BusEvent) : Prop where
  same : SameOutsideLine s t
  events : t.bus.events = s.bus.events ++ new
  clock : t.bus.clock = s.bus.clock + (new.map (eventTicks s.cfg)).sum
  wave : t.bus.wave = s.bus.wave ++ new.flatMap (eventWave s.cfg)
  drv : t.drv = if new = [] then s.drv else .rel
  tick : s.dp.tickcnt = 0 → t.dp.tickcnt = 0
  line : LineTells s.cfg new s.bus.env s.bus.draws t.bus.env t.bus.draws

theorem LineRun.trans {s t u : State} {a b : List BusEvent} (h : LineRun s t a) (g : LineRun t u b) :
    LineRun s u (a ++ b) where
  same := h.same.trans g.same
  events := by rw [g.events, h.events, List.append_assoc]
  clock := by rw [g.clock, h.clock, h.same.cfg, List.map_append, List.sum_append, Nat.add_assoc]
  wave := by rw [g.wave, h.wave, h.same.cfg, List.flatMap_append, List.append_assoc]
  drv := by
    rw [g.drv, h.drv]
    cases a <;> cases b <;> simp
  tick := fun e => g.tick (h.tick e)
  line := h.line.trans (by rw [← h.same.cfg]; exact g.line)

theorem LineRun.refl (s : State) : LineRun s s [] :=
  ⟨.refl s, by simp, by simp, by simp, by simp, id, .nil _ _⟩

/-- Transfers between datapath registers other than TICKCNT. -/
theorem LineRun.onDp (s : State) (f : Datapath → Datapath) (k : (f s.dp).tickcnt = s.dp.tickcnt) :
    LineRun s (onDp f s) [] :=
  ⟨.setDp s _, by simp, by simp, by simp, by simp, fun e => by rw [onDp_dp, k, e], .nil _ _⟩

/-- Of the datapath, only SR, BITCNT and TICKCNT touched. -/
def ShiftOnly (s t : State) : Prop :=
  t.dp = { s.dp with sr := t.dp.sr, bitcnt := t.dp.bitcnt, tickcnt := t.dp.tickcnt }

theorem ShiftOnly.trans {s t u : State} (h : ShiftOnly s t) (g : ShiftOnly t u) : ShiftOnly s u := by
  unfold ShiftOnly at *; rw [g, h]

theorem writeBit_run (v : Bit) (s : State) : LineRun s (writeBit v s) [.w v] := by
  refine ⟨writeBit_same v s, ?_, ?_, ?_, ?_, ?_, ?_⟩ <;> rw [writeBit_eq] <;> try simp [eventTicks, eventWave]
  exact .w v (.nil _ _)

theorem readBit_run (s : State) : LineRun s (readBit s).2 [.r (readBit s).1] := by
  refine ⟨readBit_same s, ?_, ?_, ?_, ?_, ?_, ?_⟩ <;> rw [readBit_eq] <;> try simp [eventTicks, eventWave]
  · cases (envRead s.bus.env s.bus.draws).low <;> rfl
  · exact .r (.nil _ _)

theorem checkPresence_run (s : State) : LineRun s (checkPresence s).2 [.rst (checkPresence s).1] := by
  refine ⟨checkPresence_same s, ?_, ?_, ?_, ?_, ?_, ?_⟩ <;> rw [checkPresence_eq] <;> try simp [eventTicks, eventWave]
  · cases (envReset s.bus.env s.bus.draws).low <;> rfl
  · exact .rst (.nil _ _)

/-- `n` iterations of `SendByte`'s loop put the low `n` bits of SR on the line, bit 0 first. -/
theorem sendBits_run (n : Nat) (s : State) :
    LineRun s (sendBits n s) ((List.range n).map (fun i => .w (bitOf s.dp.sr i))) := by
  induction n generalizing s with
  | zero => exact .refl s
  | succ n ih =>
    rw [sendBits, List.range_succ_eq_map, List.map_cons, List.map_map]
    refine (writeBit_run (bitOf s.dp.sr 0) s).trans ((LineRun.onDp _
      (fun d => { d with sr := d.sr >>> 1, bitcnt := d.bitcnt + 1#4 }) rfl).trans (a := []) ?_)
    simpa [writeBit_dp, bitOf_ushiftRight, Function.comp_def] using
      ih (onDp (fun d => { d with sr := d.sr >>> 1, bitcnt := d.bitcnt + 1#4 }) (writeBit (bitOf s.dp.sr 0) s))

/-- Everything `SendByte` does on the line (R160). -/
theorem sendByte_run (b : Byte) (s : State) : LineRun s (sendByte b s) (txEvents b) := by
  have g := (LineRun.onDp s (fun d => { d with sr := b, bitcnt := 0#4 }) rfl).trans (sendBits_run 8 _)
  simpa [txEvents, lsbFirst, Function.comp_def, sendByte] using g

/-- `n` iterations of `ReadByte`'s loop read `n` bits and shift them into SR in order. -/
theorem readBits_run (n : Nat) (s : State) :
    ∃ vs : List Bit, vs.length = n ∧ LineRun s (readBits n s) (vs.map .r) ∧
      (readBits n s).dp.sr = vs.foldl (fun a b => shiftIn b a) s.dp.sr := by
  induction n generalizing s with
  | zero => exact ⟨[], rfl, .refl s, rfl⟩
  | succ n ih =>
    rw [readBits]
    obtain ⟨vs, hl, hr, hs⟩ :=
      ih (onDp (fun d => { d with sr := shiftIn (readBit s).1 d.sr, bitcnt := d.bitcnt + 1#4 }) (readBit s).2)
    refine ⟨(readBit s).1 :: vs, by simp [hl], ?_, ?_⟩
    · exact (readBit_run s).trans ((LineRun.onDp _
        (fun d => { d with sr := shiftIn (readBit s).1 d.sr, bitcnt := d.bitcnt + 1#4 }) rfl).trans (a := []) hr)
    · simpa [readBit_dp] using hs

/-- Everything `ReadByte` does on the line (R161): eight read slots that sample the bits of the byte, bit 0 first. -/
theorem readByte_run (s : State) : LineRun s (readByte s).2 ((lsbFirst (readByte s).1).map .r) := by
  unfold readByte
  obtain ⟨vs, hl, hr, hs⟩ := readBits_run 8 (onDp (fun d => { d with sr := 0#8, bitcnt := 0#4 }) s)
  simp only [hs, lsbFirst_foldl vs hl]
  exact (LineRun.onDp s (fun d => { d with sr := 0#8, bitcnt := 0#4 }) rfl).trans (a := []) hr

theorem sendBits_shift (n : Nat) (s : State) : ShiftOnly s (sendBits n s) := by
  induction n generalizing s with
  | zero => rfl
  | succ n ih =>
    rw [sendBits]
    refine ShiftOnly.trans ?_ (ih _)
    unfold ShiftOnly; rw [onDp_dp, writeBit_dp]

theorem sendByte_shift (b : Byte) (s : State) : ShiftOnly s (sendByte b s) :=
  ShiftOnly.trans (t := onDp (fun d => { d with sr := b, bitcnt := 0#4 }) s) rfl (sendBits_shift 8 _)

theorem readBits_shift (n : Nat) (s : State) : ShiftOnly s (readBits n s) := by
  induction n generalizing s with
  | zero => rfl
  | succ n ih =>
    rw [readBits]
    refine ShiftOnly.trans ?_ (ih _)
    unfold ShiftOnly; rw [onDp_dp, readBit_dp]

theorem readByte_shift (s : State) : ShiftOnly s (readByte s).2 :=
  ShiftOnly.trans (t := onDp (fun d => { d with sr := 0#8, bitcnt := 0#4 }) s) rfl (readBits_shift 8 _)

/-- What sent bits do to the line's other side: their write slots, and no free value taken. -/
theorem sendBits_env (n : Nat) (s : State) :
    (sendBits n s).bus.env =
      ((List.range n).map (bitOf s.dp.sr)).foldl (fun e v => envWrite s.cfg v e) s.bus.env ∧
    (sendBits n s).bus.draws = s.bus.draws := by
  induction n generalizing s with
  | zero => exact ⟨rfl, rfl⟩
  | succ n ih =>
    rw [sendBits]
    obtain ⟨h1, h2⟩ :=
      ih (onDp (fun d => { d with sr := d.sr >>> 1, bitcnt := d.bitcnt + 1#4 }) (writeBit (bitOf s.dp.sr 0) s))
    refine ⟨h1.trans ?_, h2.trans (by simp [writeBit_eq])⟩
    rw [List.range_succ_eq_map, List.map_cons, List.map_map, List.foldl_cons]
    have e : bitOf (s.dp.sr >>> 1) = bitOf s.dp.sr ∘ Nat.succ := funext fun i => bitOf_ushiftRight s.dp.sr i
    simp [writeBit_eq, e]

theorem sendByte_env (b : Byte) (s : State) :
    (sendByte b s).bus.env = (lsbFirst b).foldl (fun e v => envWrite s.cfg v e) s.bus.env ∧
    (sendByte b s).bus.draws = s.bus.draws :=
  sendBits_env 8 (onDp (fun d => { d with sr := b, bitcnt := 0#4 }) s)

/-- An oracle takes no notice of write slots. -/
theorem foldl_envWrite_oracle (c : Config) (vs : List Bit) (script : List Bool) :
    vs.foldl (fun e v => envWrite c v e) (.oracle script) = .oracle script := by
  induction vs with
  | nil => rfl
  | cons v vs ih => exact ih

theorem sendByte_oracle {b : Byte} {s : State} {script : List Bool} (h : s.bus.env = .oracle script) :
    (sendByte b s).bus.env = .oracle script := by
  rw [(sendByte_env b s).1, h, foldl_envWrite_oracle]

/-- `ReadByte`'s loop on a script of at least `n` answers: the answers in order, 1 where nobody pulls. -/
theorem readBits_oracle (xs : List Bool) (rest : List Bool) (s : State)
    (h : s.bus.env = .oracle (xs ++ rest)) :
    (readBits xs.length s).bus.env = .oracle rest ∧ (readBits xs.length s).bus.draws = s.bus.draws ∧
    (readBits xs.length s).dp.sr = (xs.map (fun x => BitVec.ofBool !x)).foldl (fun a b => shiftIn b a) s.dp.sr := by
  induction xs generalizing s with
  | nil => exact ⟨h, rfl, rfl⟩
  | cons x xs ih =>
    rw [List.length_cons, readBits]
    have e : readBit s = (BitVec.ofBool (!x), (readBit s).2) ∧
        (readBit s).2.bus.env = .oracle (xs ++ rest) ∧ (readBit s).2.bus.draws = s.bus.draws := by
      rw [readBit_eq]; simp [h, envRead, oracleAnswer]
    obtain ⟨h1, h2, h3⟩ :=
      ih (onDp (fun d => { d with sr := shiftIn (readBit s).1 d.sr, bitcnt := d.bitcnt + 1#4 }) (readBit s).2) e.2.1
    refine ⟨h1, h2.trans e.2.2, h3.trans ?_⟩
    simp [readBit_dp, congrArg Prod.fst e.1]

theorem byteScript_length (b : Byte) : (byteScript b).length = 8 := by simp [byteScript, lsbFirst]

/-- `ReadByte` on a line that answers with the bits of `b` reads `b` (R161, R162). -/
theorem readByte_oracle {b : Byte} {rest : List Bool} {s : State}
    (h : s.bus.env = .oracle (byteScript b ++ rest)) :
    (readByte s).1 = b ∧ (readByte s).2.bus.env = .oracle rest ∧ (readByte s).2.bus.draws = s.bus.draws := by
  unfold readByte
  have g := readBits_oracle (byteScript b) rest (onDp (fun d => { d with sr := 0#8, bitcnt := 0#4 }) s) h
  rw [byteScript_length] at g
  refine ⟨lsbFirst_injective ?_, g.1, g.2.1⟩
  simp only [g.2.2]
  rw [lsbFirst_foldl _ (by simp [byteScript, lsbFirst])]
  simp only [byteScript, List.map_map]
  conv_rhs => rw [← List.map_id (lsbFirst b)]
  refine List.map_congr_left fun v _ => ?_
  rcases bit_cases v with rfl | rfl <;> rfl

end Sys2Proof.Machine
end

