-- ==== Sys2Proof/Laws/Memory.lean ====
section
/-! SUPPORT. The laws of the registry byte memory: read after write, the canonical form kept, what a masked access does. -/

namespace Sys2Proof.Machine

theorem Memory.wfFrom_mono {lo lo' : Nat} {m : List Host.Cell} (h : lo' ≤ lo)
    (w : Memory.wfFrom lo m = true) : Memory.wfFrom lo' m = true := by
  cases m with
  | nil => rfl
  | cons c m =>
    simp only [Memory.wfFrom, Bool.and_eq_true, decide_eq_true_eq] at w ⊢
    exact ⟨⟨by omega, w.1.2⟩, w.2⟩

/-- An address below the form's bound is not listed. -/
theorem Memory.read_below {lo : Nat} {m : List Host.Cell} {a : Nat} (h : a < lo)
    (w : Memory.wfFrom lo m = true) : Memory.read m a = 0#8 := by
  induction m generalizing lo with
  | nil => rfl
  | cons c m ih =>
    simp only [Memory.wfFrom, Bool.and_eq_true, decide_eq_true_eq] at w
    rw [Memory.read, if_neg (by omega)]
    exact ih (lo := c.1 + 1) (by omega) w.2

/-- A write keeps the canonical form. -/
theorem Memory.wfFrom_write {lo : Nat} {m : List Host.Cell} {a : Nat} {v : Byte} (h : lo ≤ a)
    (w : Memory.wfFrom lo m = true) : Memory.wfFrom lo (Memory.write m a v) = true := by
  induction m generalizing lo with
  | nil =>
    unfold Memory.write
    split <;> simp_all [Memory.wfFrom]
  | cons c m ih =>
    simp only [Memory.wfFrom, Bool.and_eq_true, decide_eq_true_eq] at w
    obtain ⟨⟨h1, h2⟩, h3⟩ := w
    unfold Memory.write
    by_cases hlt : a < c.1
    · rw [if_pos hlt]
      by_cases hv : v = 0#8
      · simp [hv, Memory.wfFrom, h1, h2, h3]
      · have hc : a + 1 ≤ c.1 := by omega
        simp [hv, Memory.wfFrom, h, h2, h3, hc]
    · rw [if_neg hlt]
      by_cases he : a = c.1
      · rw [if_pos he]
        by_cases hv : v = 0#8
        · rw [if_pos hv]; exact Memory.wfFrom_mono (by omega) h3
        · subst he; simp [hv, Memory.wfFrom, h, h3]
      · rw [if_neg he]
        have := ih (lo := c.1 + 1) (by omega) h3
        simp [Memory.wfFrom, h1, h2, this]

theorem Memory.wf_write {m : List Host.Cell} (a : Nat) (v : Byte) (w : Memory.wf m = true) :
    Memory.wf (Memory.write m a v) = true := Memory.wfFrom_write (Nat.zero_le _) w

/-- A read after a write to the same address gives the value written. -/
theorem Memory.read_write_same {lo : Nat} {m : List Host.Cell} {a : Nat} {v : Byte}
    (w : Memory.wfFrom lo m = true) : Memory.read (Memory.write m a v) a = v := by
  induction m generalizing lo with
  | nil =>
    unfold Memory.write
    split <;> simp_all [Memory.read]
  | cons c m ih =>
    simp only [Memory.wfFrom, Bool.and_eq_true, decide_eq_true_eq] at w
    unfold Memory.write
    by_cases hlt : a < c.1
    · rw [if_pos hlt]
      by_cases hv : v = 0#8
      · rw [if_pos hv, Memory.read, if_neg (by omega), hv]
        exact Memory.read_below (lo := c.1 + 1) (by omega) w.2
      · rw [if_neg hv, Memory.read, if_pos rfl]
    · rw [if_neg hlt]
      by_cases he : a = c.1
      · rw [if_pos he]
        by_cases hv : v = 0#8
        · rw [if_pos hv, hv]
          exact Memory.read_below (lo := c.1 + 1) (by omega) w.2
        · rw [if_neg hv, Memory.read, if_pos rfl]
      · rw [if_neg he, Memory.read, if_neg (by omega)]
        exact ih w.2

/-- A write leaves every other address as it was. -/
theorem Memory.read_write_other {m : List Host.Cell} {a b : Nat} {v : Byte} (h : b ≠ a) :
    Memory.read (Memory.write m a v) b = Memory.read m b := by
  induction m with
  | nil =>
    unfold Memory.write
    split
    · rfl
    · simp [Memory.read, Ne.symm h]
  | cons c m ih =>
    unfold Memory.write
    by_cases hlt : a < c.1
    · rw [if_pos hlt]
      split
      · rfl
      · rw [Memory.read, if_neg (fun e => h e.symm)]
    · rw [if_neg hlt]
      by_cases he : a = c.1
      · rw [if_pos he]
        have hc : ¬ c.1 = b := by omega
        split
        · rw [Memory.read, if_neg hc]
        · rw [Memory.read, Memory.read, if_neg (fun e => h e.symm), if_neg hc]
      · rw [if_neg he, Memory.read, Memory.read, ih]

/-- The addresses a write lists are the address written or addresses listed before. -/
theorem Memory.mem_write {m : List Host.Cell} {a : Nat} {v : Byte} {x : Host.Cell}
    (h : x ∈ Memory.write m a v) : x.1 = a ∨ x ∈ m := by
  induction m with
  | nil =>
    unfold Memory.write at h
    split at h
    · simp at h
    · simp at h; exact .inl (by rw [h])
  | cons c m ih =>
    unfold Memory.write at h
    split at h
    · split at h
      · exact .inr h
      · rcases List.mem_cons.1 h with h | h
        · exact .inl (by rw [h])
        · exact .inr h
    · split at h
      · split at h
        · exact .inr (List.mem_cons_of_mem _ h)
        · rcases List.mem_cons.1 h with h | h
          · exact .inl (by rw [h])
          · exact .inr (List.mem_cons_of_mem _ h)
      · rcases List.mem_cons.1 h with h | h
        · exact .inr (by rw [h]; exact List.mem_cons_self)
        · rcases ih h with h | h
          · exact .inl h
          · exact .inr (List.mem_cons_of_mem _ h)

/-- What a registry byte write changes: the memory only. -/
theorem memWrite_eq (a : Nat) (v : Byte) (s : State) :
    memWrite a v s = { s with mem := (memWrite a v s).mem } := by
  unfold memWrite; split <;> rfl

@[simp] theorem memWrite_cfg (a : Nat) (v : Byte) (s : State) : (memWrite a v s).cfg = s.cfg := by
  rw [memWrite_eq]
@[simp] theorem memWrite_inReset (a : Nat) (v : Byte) (s : State) : (memWrite a v s).inReset = s.inReset := by
  rw [memWrite_eq]
@[simp] theorem memWrite_ill (a : Nat) (v : Byte) (s : State) : (memWrite a v s).ill = s.ill := by
  rw [memWrite_eq]
@[simp] theorem memWrite_result (a : Nat) (v : Byte) (s : State) : (memWrite a v s).result = s.result := by
  rw [memWrite_eq]
@[simp] theorem memWrite_count (a : Nat) (v : Byte) (s : State) : (memWrite a v s).count = s.count := by
  rw [memWrite_eq]
@[simp] theorem memWrite_lastdev (a : Nat) (v : Byte) (s : State) : (memWrite a v s).lastdev = s.lastdev := by
  rw [memWrite_eq]
@[simp] theorem memWrite_seq (a : Nat) (v : Byte) (s : State) : (memWrite a v s).seq = s.seq := by
  rw [memWrite_eq]
@[simp] theorem memWrite_drv (a : Nat) (v : Byte) (s : State) : (memWrite a v s).drv = s.drv := by
  rw [memWrite_eq]
@[simp] theorem memWrite_dp (a : Nat) (v : Byte) (s : State) : (memWrite a v s).dp = s.dp := by
  rw [memWrite_eq]
@[simp] theorem memWrite_bus (a : Nat) (v : Byte) (s : State) : (memWrite a v s).bus = s.bus := by
  rw [memWrite_eq]
@[simp] theorem memWrite_host (a : Nat) (v : Byte) (s : State) : (memWrite a v s).host = s.host := by
  rw [memWrite_eq]
@[simp] theorem memWrite_readLog (a : Nat) (v : Byte) (s : State) : (memWrite a v s).readLog = s.readLog := by
  rw [memWrite_eq]

/-- A registry byte write keeps the canonical form. -/
theorem memWrite_wf (a : Nat) (v : Byte) (s : State) (w : Memory.wf s.mem = true) :
    Memory.wf (memWrite a v s).mem = true := by
  unfold memWrite
  split
  · exact Memory.wf_write a v w
  · exact w

/-- A registry byte write lists only addresses that hold storage. -/
theorem memWrite_inside (a : Nat) (v : Byte) (s : State) (h : memInside s.cfg s.mem = true) :
    memInside s.cfg (memWrite a v s).mem = true := by
  unfold memWrite
  split
  · rename_i hi
    refine List.all_eq_true.2 fun x hx => ?_
    rcases Memory.mem_write hx with e | e
    · rw [e]; exact hi
    · exact List.all_eq_true.1 h x e
  · exact h

/-- A registry byte that holds storage reads as last written. -/
theorem memRead_memWrite_same (a : Nat) (v : Byte) (s : State) (w : Memory.wf s.mem = true)
    (h : implemented s.cfg a = true) : memRead a (memWrite a v s) = v := by
  unfold memRead memWrite
  simp only [h, if_true]
  exact Memory.read_write_same w

/-- A registry byte write leaves every other registry byte as it was. -/
theorem memRead_memWrite_other (a b : Nat) (v : Byte) (s : State) (h : b ≠ a) :
    memRead b (memWrite a v s) = memRead b s := by
  unfold memRead
  rw [memWrite_cfg]
  unfold memWrite
  split
  · split
    · exact Memory.read_write_other h
    · rfl
  · rfl

/-- A read sees only the parameters and the memory. -/
theorem memRead_congr {s t : State} (hc : t.cfg = s.cfg) (hm : t.mem = s.mem) (a : Nat) :
    memRead a t = memRead a s := by
  unfold memRead; rw [hc, hm]

/-- A write depends only on the parameters and the memory. -/
theorem memWrite_congr {s t : State} (hc : t.cfg = s.cfg) (hm : t.mem = s.mem) (a : Nat) (v : Byte) :
    (memWrite a v t).mem = (memWrite a v s).mem := by
  unfold memWrite; rw [hc]; split <;> simp [hm]

/-- An identity byte of an existing slot holds storage (R61). -/
theorem implemented_id (c : Config) (k : Byte) (j : Nat) (hk : k < c.cap) (hj : j < 8) :
    implemented c (idAddr k j) = true := by
  have : k.toNat < c.cap.toNat := hk
  unfold implemented
  rw [Bool.and_eq_true, decide_eq_true_eq, decide_eq_true_eq]
  unfold idAddr slotBase
  omega

/-- A cache byte of an existing slot holds storage (R61). -/
theorem implemented_cache (c : Config) (k : Byte) (j : Nat) (hk : k < c.cap) (hj : j < 2) :
    implemented c (cacheAddr k j) = true := by
  have : k.toNat < c.cap.toNat := hk
  unfold implemented
  rw [Bool.and_eq_true, decide_eq_true_eq, decide_eq_true_eq]
  unfold cacheAddr slotBase
  omega

end Sys2Proof.Machine
end

