-- ==== Sys2Proof/Laws/Registry.lean ====
section
/-! SUPPORT. What the registry operations do: runs of registry writes (`MemRun`), identities cleared, copied and written bit by
bit, the select frame. -/

namespace Sys2Proof.Machine

/-- What a run of registry writes does: the memory only, its form kept, and no byte but those of `touch` changed. -/
structure MemRun (s t : State) (touch : Nat → Prop) : Prop where
  eq : t = { s with mem := t.mem }
  wf : Memory.wf s.mem = true → Memory.wf t.mem = true
  inside : memInside s.cfg s.mem = true → memInside s.cfg t.mem = true
  other : ∀ a, ¬ touch a → memRead a t = memRead a s

theorem MemRun.cfg {s t : State} {touch : Nat → Prop} (h : MemRun s t touch) : t.cfg = s.cfg := by rw [h.eq]
theorem MemRun.count {s t : State} {touch : Nat → Prop} (h : MemRun s t touch) : t.count = s.count := by rw [h.eq]
theorem MemRun.lastdev {s t : State} {touch : Nat → Prop} (h : MemRun s t touch) : t.lastdev = s.lastdev := by
  rw [h.eq]
theorem MemRun.dp {s t : State} {touch : Nat → Prop} (h : MemRun s t touch) : t.dp = s.dp := by rw [h.eq]
theorem MemRun.bus {s t : State} {touch : Nat → Prop} (h : MemRun s t touch) : t.bus = s.bus := by rw [h.eq]
theorem MemRun.drv {s t : State} {touch : Nat → Prop} (h : MemRun s t touch) : t.drv = s.drv := by rw [h.eq]

theorem MemRun.refl (s : State) (touch : Nat → Prop) : MemRun s s touch := ⟨rfl, id, id, fun _ _ => rfl⟩

theorem MemRun.trans {s t u : State} {touch : Nat → Prop} (h : MemRun s t touch) (g : MemRun t u touch) :
    MemRun s u touch where
  eq := by rw [g.eq, h.eq]
  wf := fun w => g.wf (h.wf w)
  inside := fun w => by have := g.inside; rw [h.cfg] at this; exact this (h.inside w)
  other := fun a na => (g.other a na).trans (h.other a na)

theorem MemRun.mono {s t : State} {p q : Nat → Prop} (h : MemRun s t p) (i : ∀ a, p a → q a) : MemRun s t q :=
  ⟨h.eq, h.wf, h.inside, fun a na => h.other a fun pa => na (i a pa)⟩

theorem memWrite_run (a : Nat) (v : Byte) (s : State) : MemRun s (memWrite a v s) (· = a) :=
  ⟨memWrite_eq a v s, memWrite_wf a v s, memWrite_inside a v s,
    fun b hb => memRead_memWrite_other a b v s hb⟩

/-- Address `a` is an identity byte of slot `k` (R61). -/
def isIdOf (k : Byte) (a : Nat) : Prop := ∃ j, j < 8 ∧ a = idAddr k j

/-- Address `a` is a cache byte of slot `k` (R61). -/
def isCacheOf (k : Byte) (a : Nat) : Prop := ∃ j, j < 2 ∧ a = cacheAddr k j

theorem clearId_run (k : Byte) (n : Nat) (hn : n ≤ 8) (s : State) :
    MemRun s (clearId k n s) (fun a => ∃ j, j < n ∧ a = idAddr k j) := by
  induction n with
  | zero => exact .refl s _
  | succ n ih =>
    exact ((ih (by omega)).mono fun a ⟨j, hj, e⟩ => ⟨j, by omega, e⟩).trans
      ((memWrite_run _ _ _).mono fun a e => ⟨n, by omega, e⟩)

/-- Identity bytes zeroed read 0. -/
theorem clearId_read (k : Byte) (n : Nat) (hn : n ≤ 8) (s : State) (w : Memory.wf s.mem = true)
    (hk : k < s.cfg.cap) (j : Nat) (hj : j < n) : memRead (idAddr k j) (clearId k n s) = 0#8 := by
  induction n with
  | zero => omega
  | succ n ih =>
    have r := clearId_run k n (by omega) s
    rw [clearId]
    by_cases e : j = n
    · subst e
      exact memRead_memWrite_same _ _ _ (r.wf w) (by rw [r.cfg]; exact implemented_id _ k j hk (by omega))
    · rw [memRead_memWrite_other _ _ _ _ (by unfold idAddr; omega)]
      exact ih (by omega) (by omega)

theorem toNat_ofNat8 {n : Nat} (h : n < 256) : (BitVec.ofNat 8 n).toNat = n := by
  simp [BitVec.toNat_ofNat]; omega

theorem clearSlots_run (n : Nat) (hn : n ≤ 255) (s : State) :
    MemRun s (clearSlots n s) (fun a => ∃ k : Byte, k.toNat < n ∧ isIdOf k a) := by
  induction n with
  | zero => exact .refl s _
  | succ n ih =>
    refine ((ih (by omega)).mono fun a ⟨k, hk, e⟩ => ⟨k, by omega, e⟩).trans
      ((clearId_run _ 8 (by omega) _).mono fun a h => ⟨BitVec.ofNat 8 n, ?_, h⟩)
    rw [toNat_ofNat8 (by omega)]; omega

/-- Identities of the slots cleared read 0. -/
theorem clearSlots_read (n : Nat) (hn : n ≤ 255) (s : State) (w : Memory.wf s.mem = true)
    (hc : n ≤ s.cfg.cap.toNat) (k : Byte) (hk : k.toNat < n) (j : Nat) (hj : j < 8) :
    memRead (idAddr k j) (clearSlots n s) = 0#8 := by
  induction n with
  | zero => omega
  | succ n ih =>
    have r := clearSlots_run n (by omega) s
    rw [clearSlots]
    by_cases e : k.toNat = n
    · have e' : BitVec.ofNat 8 n = k := by
        apply BitVec.eq_of_toNat_eq; rw [toNat_ofNat8 (by omega)]; exact e.symm
      rw [e']
      exact clearId_read k 8 (by omega) _ (r.wf w) (by rw [r.cfg]; exact BitVec.lt_def.2 (by omega)) j hj
    · rw [(clearId_run _ 8 (by omega) _).other]
      · exact ih (by omega) (by omega) (by omega)
      · rintro ⟨j', hj', h⟩
        unfold idAddr slotBase at h
        rw [toNat_ofNat8 (by omega)] at h
        omega

/-- Everything `Clear` does (R170): COUNT and the identity bytes, nothing else. -/
theorem clearRegistry_eq (s : State) :
    clearRegistry s = { s with count := 0#8, mem := (clearRegistry s).mem } := by
  unfold clearRegistry
  rw [(clearSlots_run s.cfg.cap.toNat (by have := s.cfg.cap.isLt; omega) s).eq]; rfl

theorem clearRegistry_mem (s : State) : (clearRegistry s).mem = (clearSlots s.cfg.cap.toNat s).mem := rfl

/-- A bit written into an identity. -/
theorem setIdBit_run (k : Byte) (p : Nat) (b : Bit) (s : State) (hp : p < 64) : MemRun s (setIdBit k p b s) (isIdOf k) :=
  (memWrite_run _ _ _).mono fun _ e => ⟨p / 8, by omega, e⟩

theorem setBitOf_getLsbD (v : Byte) (i : Nat) (b : Bit) (j : Nat) (hi : i < 8) (hj : j < 8) :
    (setBitOf v i b).getLsbD j = if j = i then b.getLsbD 0 else v.getLsbD j := by
  unfold setBitOf
  rw [BitVec.getLsbD_or, BitVec.getLsbD_and, BitVec.getLsbD_not, BitVec.getLsbD_shiftLeft, BitVec.getLsbD_shiftLeft]
  by_cases e : j = i
  · subst e; simp [hj]
  · by_cases l : j < i
    · simp [e, l, hj]
    · have h1 : (1#8).getLsbD (j - i) = false := by
        rw [BitVec.getLsbD_one]; simp; omega
      have h2 : (BitVec.zeroExtend 8 b).getLsbD (j - i) = false := by
        rw [BitVec.getLsbD_setWidth, BitVec.getLsbD_of_ge b (j - i) (by omega)]; simp
      simp [e, l, hj, h1, h2]

theorem bitOf_setBitOf (v : Byte) (i : Nat) (b : Bit) (j : Nat) (hi : i < 8) (hj : j < 8) :
    bitOf (setBitOf v i b) j = if j = i then b else bitOf v j := by
  rw [bitOf_getLsbD, setBitOf_getLsbD v i b j hi hj]
  split
  · revert b; decide
  · rw [bitOf_getLsbD]

/-- A bit written into an identity reads back (R62, R63). -/
theorem idBit_setIdBit (k : Byte) (p q : Nat) (b : Bit) (s : State) (w : Memory.wf s.mem = true)
    (hk : k < s.cfg.cap) (hp : p < 64) :
    idBit k q (setIdBit k p b s) = if q = p then b else idBit k q s := by
  unfold idBit idByte setIdBit
  by_cases e : q / 8 = p / 8
  · rw [e, memRead_memWrite_same _ _ _ w (implemented_id _ k _ hk (by omega)),
      bitOf_setBitOf _ _ _ _ (by omega) (by omega)]
    by_cases e2 : q = p
    · subst e2; simp
    · rw [if_neg (by omega), if_neg e2]; rfl
  · rw [memRead_memWrite_other _ _ _ _ (by unfold idAddr; omega), if_neg (by intro h; subst h; exact e rfl)]

theorem idBit_congr {s t : State} (hc : t.cfg = s.cfg) (hm : t.mem = s.mem) (k : Byte) (p : Nat) :
    idBit k p t = idBit k p s := by
  unfold idBit idByte; rw [memRead_congr hc hm]

/-- Eight identity bytes from eight by eight bits (R63). -/
theorem idByte_of_idBit {k : Byte} {s t : State} (h : ∀ p, p < 64 → idBit k p t = idBit k p s) (j : Nat) (hj : j < 8) :
    idByte k j t = idByte k j s := by
  refine byte_ext fun i hi => ?_
  have := h (8 * j + i) (by omega)
  unfold idBit at this
  rwa [show (8 * j + i) / 8 = j by omega, show (8 * j + i) % 8 = i by omega] at this

theorem copyId_run (src dst : Byte) (n : Nat) (hn : n ≤ 8) (s : State) :
    MemRun s (copyId src dst n s) (isIdOf dst) := by
  induction n with
  | zero => exact .refl s _
  | succ n ih =>
    exact (ih (by omega)).trans ((memWrite_run _ _ _).mono fun a e => ⟨n, by omega, e⟩)

/-- The seeding copy (R191). -/
theorem copyId_read (src dst : Byte) (n : Nat) (hn : n ≤ 8) (s : State) (w : Memory.wf s.mem = true)
    (hd : dst < s.cfg.cap) (hne : src ≠ dst) (j : Nat) (hj : j < n) :
    memRead (idAddr dst j) (copyId src dst n s) = memRead (idAddr src j) s := by
  induction n with
  | zero => omega
  | succ n ih =>
    have r := copyId_run src dst n (by omega) s
    have hs : src.toNat ≠ dst.toNat := fun e => hne (BitVec.eq_of_toNat_eq e)
    rw [copyId]
    by_cases e : j = n
    · subst e
      rw [memRead_memWrite_same _ _ _ (r.wf w) (by rw [r.cfg]; exact implemented_id _ dst j hd (by omega))]
      exact r.other _ fun ⟨i, hi, h⟩ => by unfold idAddr slotBase at h; omega
    · rw [memRead_memWrite_other _ _ _ _ (by unfold idAddr; omega)]
      exact ih (by omega) (by omega)

/-- `n` iterations of `Select`'s loop send the identity bytes from BYTEIDX on. -/
theorem sendId_run (k : Byte) (n : Nat) (s : State) (hb : s.dp.byteidx.toNat + n ≤ 8) :
    LineRun s (sendId k n s)
        (((List.range n).map (fun i => idByte k (s.dp.byteidx.toNat + i) s)).flatMap txEvents) ∧
      (sendId k n s).dp = { s.dp with
        sr := (sendId k n s).dp.sr
        bitcnt := (sendId k n s).dp.bitcnt
        byteidx := (sendId k n s).dp.byteidx
        tickcnt := (sendId k n s).dp.tickcnt } ∧
      (sendId k n s).dp.byteidx.toNat = s.dp.byteidx.toNat + n := by
  induction n generalizing s with
  | zero => exact ⟨.refl s, rfl, rfl⟩
  | succ n ih =>
    have r := sendByte_run (idByte k s.dp.byteidx.toNat s) s
    have sh := sendByte_shift (idByte k s.dp.byteidx.toNat s) s
    have hdp : (sendByte (idByte k s.dp.byteidx.toNat s) s).dp.byteidx = s.dp.byteidx := by rw [sh]
    have hidx : (s.dp.byteidx + 1#8).toNat = s.dp.byteidx.toNat + 1 := by
      rw [BitVec.toNat_add]; simp; omega
    obtain ⟨rt, hd, hi⟩ := ih (onDp (fun d => { d with byteidx := d.byteidx + 1#8 })
      (sendByte (idByte k s.dp.byteidx.toNat s) s)) (by simp only [onDp_dp, hdp, hidx]; omega)
    rw [sendId]
    simp only [onDp_dp, hdp, hidx] at rt hi
    refine ⟨?_, ?_, by rw [hi]; omega⟩
    · have e : ∀ i, idByte k i (onDp (fun d => { d with byteidx := d.byteidx + 1#8 })
          (sendByte (idByte k s.dp.byteidx.toNat s) s)) = idByte k i s :=
        fun i => memRead_congr r.same.cfg r.same.mem _
      have g := r.trans ((LineRun.onDp _ (fun d => { d with byteidx := d.byteidx + 1#8 }) rfl).trans rt)
      simp only [e] at g
      rw [List.range_succ_eq_map, List.map_cons, List.map_map, List.flatMap_cons]
      simpa [Function.comp_def, Nat.add_assoc, Nat.add_comm 1] using g
    · rw [hd, onDp_dp, sh]

/-- Everything `Select` does on the line (R172, R120): the select frame. -/
theorem selectDevice_run (k : Byte) (s : State) : LineRun s (selectDevice k s) (selectEvents k s) := by
  have r := sendByte_run s.cfg.cmdMatch s
  obtain ⟨rt, -, -⟩ := sendId_run k 8 (onDp (fun d => { d with byteidx := 0#8 }) (sendByte s.cfg.cmdMatch s))
    (by simp)
  have e : ∀ i, idByte k i (onDp (fun d => { d with byteidx := 0#8 }) (sendByte s.cfg.cmdMatch s)) = idByte k i s :=
    fun i => memRead_congr r.same.cfg r.same.mem _
  have g := r.trans ((LineRun.onDp _ (fun d => { d with byteidx := 0#8 }) rfl).trans rt)
  simpa [e, selectEvents, identity, selectDevice] using g

/-- `Select` leaves the datapath alone but for SR, BITCNT, BYTEIDX and TICKCNT. -/
theorem selectDevice_dp (k : Byte) (s : State) :
    (selectDevice k s).dp = { s.dp with
      sr := (selectDevice k s).dp.sr
      bitcnt := (selectDevice k s).dp.bitcnt
      byteidx := (selectDevice k s).dp.byteidx
      tickcnt := (selectDevice k s).dp.tickcnt } := by
  unfold selectDevice
  rw [(sendId_run k 8 (onDp (fun d => { d with byteidx := 0#8 }) (sendByte s.cfg.cmdMatch s)) (by simp)).2.1,
    onDp_dp, sendByte_shift]

theorem sendId_env (k : Byte) (n : Nat) (s : State) {script : List Bool} (h : s.bus.env = .oracle script) :
    (sendId k n s).bus.env = .oracle script := by
  induction n generalizing s with
  | zero => exact h
  | succ n ih => exact ih _ (sendByte_oracle h)

/-- An oracle takes no notice of a select frame. -/
theorem selectDevice_oracle {k : Byte} {s : State} {script : List Bool} (h : s.bus.env = .oracle script) :
    (selectDevice k s).bus.env = .oracle script := sendId_env k 8 _ (sendByte_oracle h)

end Sys2Proof.Machine
end

