-- ==== Sys2Proof/Laws/Search.lean ====
section
/-! SUPPORT. What the ROM search engine does: one operation's footprint (`OpRun`), a position, a pass, a discovery. -/

namespace Sys2Proof.Machine

/-- What any operation does outside its own results: parameters, ILL, SEQ, the host's side kept; registry bytes outside `touch`
kept and the memory's form kept; the line's events, each taking its slot; DRV as it was, released, or high where PARASITE is 1. -/
structure OpRun (touch : Nat → Prop) (s t : State) (new : List BusEvent) : Prop where
  cfg : t.cfg = s.cfg
  inReset : t.inReset = s.inReset
  ill : t.ill = s.ill
  seq : t.seq = s.seq
  host : t.host = s.host
  readLog : t.readLog = s.readLog
  wf : Memory.wf s.mem = true → Memory.wf t.mem = true
  inside : memInside s.cfg s.mem = true → memInside s.cfg t.mem = true
  other : ∀ a, ¬ touch a → memRead a t = memRead a s
  events : t.bus.events = s.bus.events ++ new
  clock : t.bus.clock = s.bus.clock + (new.map (eventTicks s.cfg)).sum
  wave : t.bus.wave = s.bus.wave ++ new.flatMap (eventWave s.cfg)
  drv : t.drv = s.drv ∨ t.drv = .rel ∨ (t.drv = .high ∧ s.cfg.parasite = true)
  tick : s.dp.tickcnt = 0 → t.dp.tickcnt = 0
  line : LineTells s.cfg new s.bus.env s.bus.draws t.bus.env t.bus.draws

theorem OpRun.trans {touch : Nat → Prop} {s t u : State} {a b : List BusEvent} (h : OpRun touch s t a)
    (g : OpRun touch t u b) : OpRun touch s u (a ++ b) where
  cfg := g.cfg.trans h.cfg
  inReset := g.inReset.trans h.inReset
  ill := g.ill.trans h.ill
  seq := g.seq.trans h.seq
  host := g.host.trans h.host
  readLog := g.readLog.trans h.readLog
  wf := fun w => g.wf (h.wf w)
  inside := fun w => by have := g.inside; rw [h.cfg] at this; exact this (h.inside w)
  other := fun x n => (g.other x n).trans (h.other x n)
  events := by rw [g.events, h.events, List.append_assoc]
  clock := by rw [g.clock, h.clock, h.cfg, List.map_append, List.sum_append, Nat.add_assoc]
  wave := by rw [g.wave, h.wave, h.cfg, List.flatMap_append, List.append_assoc]
  drv := by
    have gd := g.drv
    rw [h.cfg] at gd
    rcases gd with e | e | e
    · rw [e]; exact h.drv
    · exact .inr (.inl e)
    · exact .inr (.inr e)
  tick := fun e => g.tick (h.tick e)
  line := h.line.trans (by rw [← h.cfg]; exact g.line)

theorem OpRun.mono {p q : Nat → Prop} {s t : State} {a : List BusEvent} (h : OpRun p s t a) (i : ∀ x, p x → q x) :
    OpRun q s t a :=
  { h with other := fun x n => h.other x fun px => n (i x px) }

theorem LineRun.op {s t : State} {a : List BusEvent} (h : LineRun s t a) (touch : Nat → Prop) : OpRun touch s t a where
  cfg := h.same.cfg
  inReset := h.same.inReset
  ill := h.same.ill
  seq := h.same.seq
  host := h.same.host
  readLog := h.same.readLog
  wf := fun w => by rw [h.same.mem]; exact w
  inside := fun w => by rw [h.same.mem]; exact w
  other := fun _ _ => memRead_congr h.same.cfg h.same.mem _
  events := h.events
  clock := h.clock
  wave := h.wave
  drv := by rw [h.drv]; split <;> simp
  tick := h.tick
  line := h.line

theorem MemRun.op {s t : State} {touch : Nat → Prop} (h : MemRun s t touch) : OpRun touch s t [] where
  cfg := h.cfg
  inReset := by rw [h.eq]
  ill := by rw [h.eq]
  seq := by rw [h.eq]
  host := by rw [h.eq]
  readLog := by rw [h.eq]
  wf := h.wf
  inside := h.inside
  other := h.other
  events := by rw [h.bus]; simp
  clock := by rw [h.bus]; simp
  wave := by rw [h.bus]; simp
  drv := .inl h.drv
  tick := fun e => by rw [h.dp, e]
  line := by rw [h.bus]; exact .nil _ _

theorem OpRun.refl (touch : Nat → Prop) (s : State) : OpRun touch s s [] := (LineRun.refl s).op touch

/-- Writes to RESULT, COUNT or LASTDEV are no part of what `OpRun` compares. -/
theorem OpRun.setRegs (touch : Nat → Prop) (s : State) (r : Word) (c l : Byte) :
    OpRun touch s { s with result := r, count := c, lastdev := l } [] :=
  ⟨rfl, rfl, rfl, rfl, rfl, rfl, id, id, fun _ _ => rfl, by simp, by simp, by simp, .inl rfl, id, .nil _ _⟩

theorem OpRun.onDp (touch : Nat → Prop) (s : State) (f : Datapath → Datapath)
    (k : (f s.dp).tickcnt = s.dp.tickcnt) : OpRun touch s (onDp f s) [] := (LineRun.onDp s f k).op touch

/-- The two reads of a position (R180). -/
theorem readPair_run (s : State) :
    LineRun s (readPair s) [.r (readPair s).dp.ba, .r (readPair s).dp.bb] ∧
      (readPair s).dp = { s.dp with ba := (readPair s).dp.ba, bb := (readPair s).dp.bb, tickcnt := 0 } := by
  unfold readPair
  constructor
  · have g := (readBit_run s).trans ((LineRun.onDp _ (fun d => { d with ba := (readBit s).1 }) rfl).trans
      ((readBit_run _).trans (LineRun.onDp _ (fun d =>
        { d with bb := (readBit (onDp (fun d => { d with ba := (readBit s).1 }) (readBit s).2)).1 }) rfl)))
    simpa [readBit_dp] using g
  · simp [readBit_dp]

/-- The choice made at a position that did not abort, with what it was made from. -/
theorem searchChoice_follows (c : Config) (last : Byte) (seed ba bb : Bit) (p : Nat) (d : Byte)
    (h : ¬ (ba = 1#1 ∧ bb = 1#1)) :
    Position.Follows c last seed p ⟨ba, bb, (searchChoice c.variant (posNumber c p) last seed ba bb d).1⟩ ∧
    (searchChoice c.variant (posNumber c p) last seed ba bb d).2 =
      if Position.records c last p ⟨ba, bb, (searchChoice c.variant (posNumber c p) last seed ba bb d).1⟩
      then posNumber c p else d := by
  unfold searchChoice Position.records
  by_cases hne : ba ≠ bb
  · rw [if_pos hne]
    refine ⟨⟨h, fun _ => rfl, ?_, ?_, ?_⟩, ?_⟩
    · intro a b; simp_all
    · intro a b; simp_all
    · intro a b; simp_all
    · rw [if_neg]; simp; intro a b; exact absurd (a.trans b.symm) hne
  · rw [if_neg hne]
    have heq : ba = bb := by simpa using hne
    have h0 : ba = 0#1 := by rcases bit_cases ba with e | e; exact e; exact absurd ⟨e, heq ▸ e⟩ h
    have h0' : bb = 0#1 := heq ▸ h0
    subst h0 h0'
    rcases Nat.lt_trichotomy last.toNat (posNumber c p).toNat with l | l | l
    · have l1 : ¬ posNumber c p = last := fun e => by rw [e] at l; omega
      have l2 : last < posNumber c p := BitVec.lt_def.2 l
      have l3 : ¬ posNumber c p < last := fun e => by have := BitVec.lt_def.1 e; omega
      simp only [if_neg l1, if_pos l2]
      exact ⟨⟨h, by simp, fun _ _ e => absurd e l1, fun _ _ _ => rfl, fun _ _ e => absurd e l3⟩, by simp [l2]⟩
    · have l1 : posNumber c p = last := BitVec.eq_of_toNat_eq l.symm
      have l2 : ¬ last < posNumber c p := fun e => by have := BitVec.lt_def.1 e; omega
      have l3 : ¬ posNumber c p < last := fun e => by have := BitVec.lt_def.1 e; omega
      simp only [if_pos l1]
      exact ⟨⟨h, by simp, fun _ _ _ => rfl, fun _ _ e => absurd e l2, fun _ _ e => absurd e l3⟩, by simp [l2, l3]⟩
    · have l1 : ¬ posNumber c p = last := fun e => by rw [e] at l; omega
      have l2 : ¬ last < posNumber c p := fun e => by have := BitVec.lt_def.1 e; omega
      have l3 : posNumber c p < last := BitVec.lt_def.2 l
      simp only [if_neg l1, if_neg l2]
      by_cases hs : c.variant = .standard ∧ seed = 0#1
      · rw [if_pos hs]
        exact ⟨⟨h, by simp, fun _ _ e => absurd e l1, fun _ _ e => absurd e l2, fun _ _ _ => rfl⟩,
          by simp [hs.1, hs.2, l3]⟩
      · rw [if_neg hs]
        refine ⟨⟨h, by simp, fun _ _ e => absurd e l1, fun _ _ e => absurd e l2, fun _ _ _ => rfl⟩, ?_⟩
        rw [if_neg]
        simp only [decide_true, Bool.true_and, l2, decide_false, Bool.false_or, Bool.and_eq_true, decide_eq_true_eq]
        exact fun x => hs ⟨x.1.1, x.2⟩

/-- A position that did not abort (R180, R183): the bit chosen, the slot's bit, the write slot. -/
theorem takeBranch_run (s : State) (hp : s.dp.pos.toNat < 64) (h : ¬ (s.dp.ba = 1#1 ∧ s.dp.bb = 1#1)) :
    ∃ x : Position, x.ba = s.dp.ba ∧ x.bb = s.dp.bb ∧
      x.Follows s.cfg s.dp.lastin (idBit s.dp.wslot s.dp.pos.toNat s) s.dp.pos.toNat ∧
      OpRun (isIdOf s.dp.wslot) s (takeBranch s) [.w x.ch] ∧
      (takeBranch s).dp = { s.dp with
        ch := x.ch
        newdev := if x.records s.cfg s.dp.lastin s.dp.pos.toNat then posNumber s.cfg s.dp.pos.toNat else s.dp.newdev
        pos := s.dp.pos + 1#7
        tickcnt := 0 } ∧
      (takeBranch s).mem = (setIdBit s.dp.wslot s.dp.pos.toNat x.ch s).mem ∧
      (takeBranch s).result = s.result ∧ (takeBranch s).count = s.count ∧ (takeBranch s).lastdev = s.lastdev ∧
      (takeBranch s).drv = .rel := by
  have f := searchChoice_follows s.cfg s.dp.lastin (idBit s.dp.wslot s.dp.pos.toNat s) s.dp.ba s.dp.bb
    s.dp.pos.toNat s.dp.newdev h
  unfold takeBranch
  generalize searchChoice s.cfg.variant (posNumber s.cfg s.dp.pos.toNat) s.dp.lastin
    (idBit s.dp.wslot s.dp.pos.toNat s) s.dp.ba s.dp.bb s.dp.newdev = c at f
  refine ⟨⟨s.dp.ba, s.dp.bb, c.1⟩, rfl, rfl, f.1, ?_, ?_, ?_, ?_, ?_, ?_, ?_⟩
  · have g := (OpRun.onDp (isIdOf s.dp.wslot) s (fun d => { d with ch := c.1, newdev := c.2 }) rfl).trans
      ((setIdBit_run s.dp.wslot s.dp.pos.toNat c.1 (onDp (fun d => { d with ch := c.1, newdev := c.2 }) s) hp).op.trans
        (((writeBit_run c.1 _).op _).trans (OpRun.onDp _ _ (fun d => { d with pos := d.pos + 1#7 }) rfl)))
    exact g
  · simp only [onDp_dp, writeBit_dp, setIdBit, memWrite_dp, f.2]
  · simp only [onDp_mem, (writeBit_same _ _).mem, onDp_dp]
    exact memWrite_congr (s := s) (t := onDp (fun d => { d with ch := c.1, newdev := c.2 }) s) rfl rfl _ _
  · simp only [onDp_result, (writeBit_same _ _).result, setIdBit, memWrite_result]
  · simp only [onDp_count, (writeBit_same _ _).count, setIdBit, memWrite_count]
  · simp only [onDp_lastdev, (writeBit_same _ _).lastdev, setIdBit, memWrite_lastdev]
  · simp only [onDp_drv, writeBit_drv]

/-- How a pass from position `p` on can end (R180, R183, R184): `xs` are the positions it completed. -/
structure PassRun (n : Nat) (s : State) (v : Byte) (t : State) (xs : List Position) : Prop where
  follows : ∀ i (h : i < xs.length),
    (xs[i]).Follows s.cfg s.dp.lastin (idBit s.dp.wslot (s.dp.pos.toNat + i) s) (s.dp.pos.toNat + i)
  bits : ∀ q, q < 64 → idBit s.dp.wslot q t =
    if h : s.dp.pos.toNat ≤ q ∧ q - s.dp.pos.toNat < xs.length then (xs[q - s.dp.pos.toNat]'h.2).ch
    else idBit s.dp.wslot q s
  ends : (xs.length = n ∧ OpRun (isIdOf s.dp.wslot) s t (xs.flatMap Position.events) ∧
      v = devAfter s.cfg s.dp.lastin s.dp.pos.toNat s.dp.newdev xs) ∨
    (xs.length < n ∧ OpRun (isIdOf s.dp.wslot) s t (xs.flatMap Position.events ++ [.r 1#1, .r 1#1]) ∧ v = sentinel)
  lastdev : t.lastdev = v
  result : t.result = s.result
  count : t.count = s.count
  npass : t.dp.npass = s.dp.npass
  drv : t.drv = if n = 0 then s.drv else .rel

theorem PassRun.cons {n : Nat} {s m t : State} {v : Byte} {x : Position} {xs : List Position}
    (hn : s.dp.pos.toNat + (n + 1) = 64) (hpos : m.dp.pos.toNat = s.dp.pos.toNat + 1) (hc : m.cfg = s.cfg)
    (hl : m.dp.lastin = s.dp.lastin) (hw : m.dp.wslot = s.dp.wslot) (hnp : m.dp.npass = s.dp.npass)
    (hres : m.result = s.result) (hcnt : m.count = s.count) (hdrv : m.drv = .rel)
    (hnd : m.dp.newdev = if x.records s.cfg s.dp.lastin s.dp.pos.toNat then posNumber s.cfg s.dp.pos.toNat
      else s.dp.newdev)
    (hf : x.Follows s.cfg s.dp.lastin (idBit s.dp.wslot s.dp.pos.toNat s) s.dp.pos.toNat)
    (hO : OpRun (isIdOf s.dp.wslot) s m x.events)
    (hbit : ∀ q, q < 64 → idBit s.dp.wslot q m = if q = s.dp.pos.toNat then x.ch else idBit s.dp.wslot q s)
    (P : PassRun n m v t xs) : PassRun (n + 1) s v t (x :: xs) := by
  obtain ⟨pf, pb, pe, pl, pr, pc, pn, pd⟩ := P
  rw [hpos, hc, hl, hw] at pf
  rw [hpos, hw] at pb
  rw [hpos, hc, hl, hw, hnd] at pe
  have hlen : xs.length ≤ n := by
    rcases pe with h | h
    · exact Nat.le_of_eq h.1
    · exact Nat.le_of_lt h.1
  refine ⟨?_, ?_, ?_, pl, pr.trans hres, pc.trans hcnt, pn.trans hnp, ?_⟩
  · intro i hi
    cases i with
    | zero => simpa using hf
    | succ i =>
      have hi' : i < xs.length := by simpa using hi
      have h2 : s.dp.pos.toNat + 1 + i < 64 := by omega
      have := pf i hi'
      rw [hbit _ h2, if_neg (by omega)] at this
      rw [Nat.add_assoc, Nat.add_comm 1 i] at this
      exact this
  · intro q hq
    rw [pb q hq]
    by_cases e : q = s.dp.pos.toNat
    · rw [dif_neg (by omega), hbit q hq, if_pos e, dif_pos ⟨by omega, by simp [e]⟩]
      simp [e]
    · rw [hbit q hq, if_neg e]
      by_cases h : s.dp.pos.toNat + 1 ≤ q ∧ q - (s.dp.pos.toNat + 1) < xs.length
      · have h1 : q - s.dp.pos.toNat = (q - (s.dp.pos.toNat + 1)) + 1 := by omega
        rw [dif_pos h, dif_pos ⟨by omega, by rw [List.length_cons]; omega⟩]
        simp [h1]
      · rw [dif_neg h, dif_neg (by rw [List.length_cons]; omega)]
  · rcases pe with ⟨h1, h2, h3⟩ | ⟨h1, h2, h3⟩
    · refine .inl ⟨by rw [List.length_cons, h1], ?_, h3⟩
      rw [List.flatMap_cons]
      exact hO.trans h2
    · refine .inr ⟨by rw [List.length_cons]; omega, ?_, h3⟩
      rw [List.flatMap_cons, List.append_assoc]
      exact hO.trans h2
  · rw [pd, hdrv]; simp

theorem searchFrom_run (n : Nat) (s : State) (hp : s.dp.pos.toNat + n = 64) (hk : s.dp.wslot < s.cfg.cap)
    (w : Memory.wf s.mem = true) : ∃ xs, PassRun n s (searchFrom n s).1 (searchFrom n s).2 xs := by
  induction n generalizing s with
  | zero =>
    refine ⟨[], fun i h => absurd h (by simp), fun q _ => ?_, .inl ⟨rfl, ?_, rfl⟩, rfl, rfl, rfl, rfl, rfl⟩
    · rw [dif_neg (by simp)]; rfl
    · exact OpRun.setRegs _ s s.result s.count s.dp.newdev
  | succ n ih =>
    obtain ⟨r, rdp⟩ := readPair_run s
    have hpos : (readPair s).dp.pos = s.dp.pos := by rw [rdp]
    have hlast : (readPair s).dp.lastin = s.dp.lastin := by rw [rdp]
    have hws : (readPair s).dp.wslot = s.dp.wslot := by rw [rdp]
    have hnd : (readPair s).dp.newdev = s.dp.newdev := by rw [rdp]
    have hnp : (readPair s).dp.npass = s.dp.npass := by rw [rdp]
    have hid : ∀ q, idBit s.dp.wslot q (readPair s) = idBit s.dp.wslot q s :=
      fun q => idBit_congr r.same.cfg r.same.mem _ q
    rw [searchFrom]
    by_cases ab : (readPair s).dp.ba = 1#1 ∧ (readPair s).dp.bb = 1#1
    · rw [if_pos ab]
      refine ⟨[], fun i h => absurd h (by simp), fun q _ => ?_, .inr ⟨by simp, ?_, rfl⟩, rfl, r.same.result, r.same.count,
        hnp, ?_⟩
      · rw [dif_neg (by simp)]; exact hid q
      · have g := (r.op (isIdOf s.dp.wslot)).trans (OpRun.setRegs _ _ (readPair s).result (readPair s).count sentinel)
        rw [ab.1, ab.2] at g
        exact g
      · simp [r.drv]
    · rw [if_neg ab]
      have hpos64 : (readPair s).dp.pos.toNat < 64 := by rw [hpos]; omega
      obtain ⟨x, hba, hbb, hf, ho, hdp, hm, hres, hcnt, -, hd⟩ := takeBranch_run (readPair s) hpos64 ab
      rw [hpos, hlast, hws, r.same.cfg, hid] at hf
      rw [hws] at ho
      rw [hpos, hlast, hnd, r.same.cfg] at hdp
      rw [hpos, hws] at hm
      have hpos1 : (s.dp.pos + 1#7).toNat = s.dp.pos.toNat + 1 := by
        rw [BitVec.toNat_add]; simp; omega
      have wr : Memory.wf (readPair s).mem = true := by rw [r.same.mem]; exact w
      have hp' : (takeBranch (readPair s)).dp.pos.toNat = s.dp.pos.toNat + 1 := by rw [hdp, ← hpos1]
      have hc' : (takeBranch (readPair s)).cfg = s.cfg := ho.cfg.trans r.same.cfg
      have hw' : (takeBranch (readPair s)).dp.wslot = s.dp.wslot := by rw [hdp]; exact hws
      have hl' : (takeBranch (readPair s)).dp.lastin = s.dp.lastin := by rw [hdp]; exact hlast
      have hn' : (takeBranch (readPair s)).dp.npass = s.dp.npass := by rw [hdp]; exact hnp
      obtain ⟨xs, P⟩ := ih (takeBranch (readPair s)) (by omega) (by rw [hw', hc']; exact hk) (ho.wf wr)
      refine ⟨x :: xs, PassRun.cons hp hp' hc' hl' hw' hn' (hres.trans r.same.result) (hcnt.trans r.same.count) hd
        (by rw [hdp]) hf ?_ ?_ P⟩
      · have g := (r.op (isIdOf s.dp.wslot)).trans ho
        rw [← hba, ← hbb] at g
        exact g
      · intro q hq
        rw [idBit_congr (s := setIdBit s.dp.wslot s.dp.pos.toNat x.ch (readPair s)) (by
            rw [hc']; unfold setIdBit; rw [memWrite_cfg]; exact r.same.cfg.symm) hm,
          idBit_setIdBit _ _ _ _ _ wr (by rw [r.same.cfg]; exact hk) (by omega), hid]

/-- Everything a search pass does (R180): its search command, then its positions up to the end or the abort. -/
theorem searchPass_run (k last : Byte) (s : State) (hk : k < s.cfg.cap) (w : Memory.wf s.mem = true) :
    ∃ xs : List Position,
      (∀ i (h : i < xs.length), (xs[i]).Follows s.cfg last (idBit k i s) i) ∧
      (∀ q, q < 64 → idBit k q (searchPass k last s).2 = if h : q < xs.length then (xs[q]).ch else idBit k q s) ∧
      ((xs.length = 64 ∧
          OpRun (isIdOf k) s (searchPass k last s).2 (txEvents s.cfg.cmdSearch ++ xs.flatMap Position.events) ∧
          (searchPass k last s).1 = devAfter s.cfg last 0 0#8 xs) ∨
        (xs.length < 64 ∧
          OpRun (isIdOf k) s (searchPass k last s).2
            (txEvents s.cfg.cmdSearch ++ (xs.flatMap Position.events ++ [.r 1#1, .r 1#1])) ∧
          (searchPass k last s).1 = sentinel)) ∧
      (searchPass k last s).2.lastdev = (searchPass k last s).1 ∧
      (searchPass k last s).2.result = s.result ∧ (searchPass k last s).2.count = s.count ∧
      (searchPass k last s).2.dp.npass = s.dp.npass ∧ (searchPass k last s).2.drv = .rel := by
  have g := (LineRun.onDp s (fun d => { d with wslot := k, lastin := last, newdev := 0#8 }) rfl).trans
    ((sendByte_run s.cfg.cmdSearch _).trans (LineRun.onDp _ (fun d => { d with pos := 0#7 }) rfl))
  have sh := sendByte_shift s.cfg.cmdSearch (onDp (fun d => { d with wslot := k, lastin := last, newdev := 0#8 }) s)
  unfold searchPass
  generalize hm : onDp (fun d => { d with pos := 0#7 })
    (sendByte s.cfg.cmdSearch (onDp (fun d => { d with wslot := k, lastin := last, newdev := 0#8 }) s)) = m at g
  have dpos : m.dp.pos.toNat = 0 := by rw [← hm]; rfl
  have dws : m.dp.wslot = k := by rw [← hm, onDp_dp, sh]; rfl
  have dl : m.dp.lastin = last := by rw [← hm, onDp_dp, sh]; rfl
  have dn : m.dp.newdev = 0#8 := by rw [← hm, onDp_dp, sh]; rfl
  have dp : m.dp.npass = s.dp.npass := by rw [← hm, onDp_dp, sh]; rfl
  obtain ⟨xs, P⟩ := searchFrom_run 64 m (by omega) (by rw [dws, g.same.cfg]; exact hk) (by rw [g.same.mem]; exact w)
  obtain ⟨pf, pb, pe, pl, pr, pc, pn, pd⟩ := P
  have hid : ∀ q, idBit k q m = idBit k q s := fun q => idBit_congr g.same.cfg g.same.mem _ q
  simp only [dpos, dws, dl, dn, g.same.cfg, hid, Nat.zero_add, Nat.sub_zero, Nat.zero_le, true_and] at pf pb pe
  refine ⟨xs, pf, pb, ?_, pl, pr.trans g.same.result, pc.trans g.same.count, pn.trans dp, pd.trans (by simp)⟩
  rcases pe with ⟨h1, h2, h3⟩ | ⟨h1, h2, h3⟩
  · exact .inl ⟨h1, by simpa using (g.op (isIdOf k)).trans h2, h3⟩
  · exact .inr ⟨h1, by simpa using (g.op (isIdOf k)).trans h2, h3⟩

end Sys2Proof.Machine
end

