-- ==== Sys2Proof/Laws/Convert.lean ====
section
/-! SUPPORT. What the read/convert operations do: a scratchpad block read and judged, a device, READ_ALL, a conversion
(44_read_convert.md). -/

namespace Sys2Proof.Machine

theorem crcFold_cons (c b : Byte) (bs : List Byte) : crcFold c (b :: bs) = crcFold (crc8Update c b) bs := by
  unfold crcFold; exact List.foldl_cons ..

theorem readByte_crc (s : State) : (readByte s).2.dp.crc = s.dp.crc := by rw [readByte_shift s]
theorem readByte_stg0 (s : State) : (readByte s).2.dp.stg0 = s.dp.stg0 := by rw [readByte_shift s]
theorem readByte_stg1 (s : State) : (readByte s).2.dp.stg1 = s.dp.stg1 := by rw [readByte_shift s]
theorem readByte_byteidx (s : State) : (readByte s).2.dp.byteidx = s.dp.byteidx := by rw [readByte_shift s]
theorem readByte_devidx (s : State) : (readByte s).2.dp.devidx = s.dp.devidx := by rw [readByte_shift s]

/-- One scratchpad byte of a device (R200). -/
def scratchByte (s : State) : State :=
  onDp (fun d => { d with crc := crc8Update d.crc (readByte s).1, byteidx := d.byteidx + 1#8 })
    (stage (readByte s).1 (readByte s).2)

theorem readScratch_succ (n : Nat) (s : State) : readScratch (n + 1) s = readScratch n (scratchByte s) := rfl

theorem scratchByte_bus (s : State) : (scratchByte s).bus = (readByte s).2.bus := by
  unfold scratchByte stage
  rw [onDp_bus]
  split
  · rw [onDp_bus]
  · split
    · rw [onDp_bus]
    · rfl

theorem scratchByte_run (s : State) :
    LineRun s (scratchByte s) (rxEvents (readByte s).1) ∧
    (scratchByte s).dp.crc = crc8Update s.dp.crc (readByte s).1 ∧
    (scratchByte s).dp.stg0 = (if s.dp.byteidx = 0#8 then (readByte s).1 else s.dp.stg0) ∧
    (scratchByte s).dp.stg1 = (if s.dp.byteidx = 1#8 then (readByte s).1 else s.dp.stg1) ∧
    (scratchByte s).dp.byteidx = s.dp.byteidx + 1#8 ∧ (scratchByte s).dp.devidx = s.dp.devidx := by
  have r := readByte_run s
  have hb := readByte_byteidx s
  have step : LineRun (readByte s).2 (scratchByte s) [] := by
    unfold scratchByte stage
    split
    · exact (LineRun.onDp _ (fun d => { d with stg0 := (readByte s).1 }) rfl).trans (LineRun.onDp _ (fun d =>
        { d with crc := crc8Update d.crc (readByte s).1, byteidx := d.byteidx + 1#8 }) rfl)
    · split
      · exact (LineRun.onDp _ (fun d => { d with stg1 := (readByte s).1 }) rfl).trans (LineRun.onDp _ (fun d =>
          { d with crc := crc8Update d.crc (readByte s).1, byteidx := d.byteidx + 1#8 }) rfl)
      · exact LineRun.onDp _ (fun d =>
          { d with crc := crc8Update d.crc (readByte s).1, byteidx := d.byteidx + 1#8 }) rfl
  refine ⟨by simpa [rxEvents] using r.trans step, ?_⟩
  unfold scratchByte stage
  rw [hb]
  by_cases h0 : s.dp.byteidx = 0#8
  · rw [if_pos h0, if_pos h0, if_neg (by rw [h0]; decide)]
    simp only [onDp_dp, readByte_crc, readByte_stg1, readByte_devidx, hb, h0]; simp
  · rw [if_neg h0, if_neg h0]
    by_cases h1 : s.dp.byteidx = 1#8
    · rw [if_pos h1, if_pos h1]
      simp only [onDp_dp, readByte_crc, readByte_stg0, readByte_devidx, hb, h1]; simp
    · rw [if_neg h1, if_neg h1]
      simp only [onDp_dp, readByte_crc, readByte_stg0, readByte_stg1, readByte_devidx, hb]; simp

/-- One byte of an oracle's answers in front of the others. -/
theorem scratch_answers {n : Nat} {s t : State} {block : List Byte}
    (ho : ∀ bytes rest, bytes.length = n → (scratchByte s).bus.env = .oracle (bytes.flatMap byteScript ++ rest) →
      block = bytes ∧ t.bus.env = .oracle rest) (bytes : List Byte) (rest : List Bool) (hl : bytes.length = n + 1)
    (he : s.bus.env = .oracle (bytes.flatMap byteScript ++ rest)) :
    (readByte s).1 :: block = bytes ∧ t.bus.env = .oracle rest := by
  cases bytes with
  | nil => simp at hl
  | cons b bs =>
    rw [List.flatMap_cons, List.append_assoc] at he
    obtain ⟨h1, h2, -⟩ := readByte_oracle he
    obtain ⟨h3, h4⟩ := ho bs rest (by simpa using hl) (by rw [scratchByte_bus]; exact h2)
    exact ⟨by rw [h1, h3], h4⟩

theorem readScratch_late (n : Nat) (s : State) (h : 2 ≤ s.dp.byteidx.toNat) (hn : s.dp.byteidx.toNat + n ≤ 255) :
    ∃ block : List Byte, block.length = n ∧ LineRun s (readScratch n s) (block.flatMap rxEvents) ∧
      (readScratch n s).dp.crc = crcFold s.dp.crc block ∧ (readScratch n s).dp.stg0 = s.dp.stg0 ∧
      (readScratch n s).dp.stg1 = s.dp.stg1 ∧ (readScratch n s).dp.devidx = s.dp.devidx ∧
      ∀ bytes rest, bytes.length = n → s.bus.env = .oracle (bytes.flatMap byteScript ++ rest) →
        block = bytes ∧ (readScratch n s).bus.env = .oracle rest := by
  induction n generalizing s with
  | zero =>
    refine ⟨[], rfl, .refl s, rfl, rfl, rfl, rfl, fun bytes rest hl he => ?_⟩
    have hb := List.eq_nil_of_length_eq_zero hl
    subst hb
    exact ⟨rfl, he⟩
  | succ n ih =>
    obtain ⟨r, c, a, b, i, d⟩ := scratchByte_run s
    rw [if_neg (by intro e; rw [e] at h; revert h; decide)] at a
    rw [if_neg (by intro e; rw [e] at h; revert h; decide)] at b
    have hi : (s.dp.byteidx + 1#8).toNat = s.dp.byteidx.toNat + 1 := by
      rw [BitVec.toNat_add]; simp; omega
    rw [readScratch_succ]
    obtain ⟨block, hl, rt, hc, h0, h1, hd, ho⟩ := ih (scratchByte s) (by rw [i, hi]; omega) (by rw [i, hi]; omega)
    refine ⟨(readByte s).1 :: block, by rw [List.length_cons, hl], ?_, ?_, h0.trans a, h1.trans b, hd.trans d, ?_⟩
    · rw [List.flatMap_cons]
      exact r.trans rt
    · rw [hc, c, crcFold_cons]
    · exact scratch_answers ho

/-- A device's whole block (R200): the bytes read, their fold, the first two staged. -/
theorem readScratch_run (n : Nat) (s : State) (h : s.dp.byteidx = 0#8) (hn : 2 ≤ n ∧ n ≤ 255) :
    ∃ block : List Byte, block.length = n ∧ LineRun s (readScratch n s) (block.flatMap rxEvents) ∧
      (readScratch n s).dp.crc = crcFold s.dp.crc block ∧ (readScratch n s).dp.stg0 = block.getD 0 0#8 ∧
      (readScratch n s).dp.stg1 = block.getD 1 0#8 ∧ (readScratch n s).dp.devidx = s.dp.devidx ∧
      ∀ bytes rest, bytes.length = n → s.bus.env = .oracle (bytes.flatMap byteScript ++ rest) →
        block = bytes ∧ (readScratch n s).bus.env = .oracle rest := by
  obtain ⟨m, rfl⟩ : ∃ m, n = m + 2 := ⟨n - 2, by omega⟩
  obtain ⟨r1, c1, a1, -, i1, d1⟩ := scratchByte_run s
  obtain ⟨r2, c2, a2, b2, i2, d2⟩ := scratchByte_run (scratchByte s)
  rw [h] at i1
  rw [i1] at a2 b2 i2
  rw [if_pos h] at a1
  have e2 : (scratchByte (scratchByte s)).dp.byteidx.toNat = 2 := by rw [i2]; decide
  obtain ⟨block, hl, rt, hc, h0, h1, hd, ho⟩ :=
    readScratch_late m (scratchByte (scratchByte s)) (by omega) (by omega)
  rw [readScratch_succ, readScratch_succ]
  refine ⟨(readByte s).1 :: (readByte (scratchByte s)).1 :: block, by simp [hl], ?_, ?_, ?_, ?_, ?_, ?_⟩
  · rw [List.flatMap_cons, List.flatMap_cons]
    exact r1.trans (r2.trans rt)
  · rw [hc, c2, c1, crcFold_cons, crcFold_cons]
  · rw [h0, a2]; simp [a1]
  · rw [h1, b2]; simp
  · rw [hd, d2, d1]
  · exact scratch_answers (scratch_answers ho)

/-- A registry byte write does nothing on the line. -/
theorem commitCache_run (s : State) (hk : s.dp.devidx < s.cfg.cap) (w : Memory.wf s.mem = true) :
    MemRun s (commitCache s) (isCacheOf s.dp.devidx) ∧
    cacheByte s.dp.devidx 0 (commitCache s) =
      (if s.dp.crc = 0#8 then s.dp.stg0 else cacheByte s.dp.devidx 0 s) ∧
    cacheByte s.dp.devidx 1 (commitCache s) =
      (if s.dp.crc = 0#8 then s.dp.stg1 else cacheByte s.dp.devidx 1 s) := by
  unfold commitCache
  by_cases h : s.dp.crc = 0#8
  · simp only [if_pos h]
    have r0 := memWrite_run (cacheAddr s.dp.devidx 0) s.dp.stg0 s
    have r1 := memWrite_run (cacheAddr s.dp.devidx 1) s.dp.stg1 (memWrite (cacheAddr s.dp.devidx 0) s.dp.stg0 s)
    refine ⟨(r0.mono fun a e => ⟨0, by omega, e⟩).trans (r1.mono fun a e => ⟨1, by omega, e⟩), ?_, ?_⟩
    · unfold cacheByte
      rw [memRead_memWrite_other _ _ _ _ (by unfold cacheAddr; omega),
        memRead_memWrite_same _ _ _ w (implemented_cache _ _ 0 hk (by omega))]
    · unfold cacheByte
      rw [memRead_memWrite_same _ _ _ (r0.wf w) (by rw [r0.cfg]; exact implemented_cache _ _ 1 hk (by omega))]
  · simp only [if_neg h]
    exact ⟨.refl s _, trivial, trivial⟩

theorem selectEvents_congr {s t : State} (hc : t.cfg = s.cfg) (hm : ∀ k j, j < 8 → idByte k j t = idByte k j s)
    (k : Byte) : selectEvents k t = selectEvents k s := by
  have h : identity k t = identity k s := List.map_congr_left fun j hj => hm k j (List.mem_range.1 hj)
  unfold selectEvents
  rw [hc, h]

theorem idByte_same {s t : State} (h : SameOutsideLine s t) (k : Byte) (j : Nat) : idByte k j t = idByte k j s :=
  memRead_congr h.cfg h.mem _

theorem cacheByte_same {s t : State} (h : SameOutsideLine s t) (k : Byte) (j : Nat) :
    cacheByte k j t = cacheByte k j s := memRead_congr h.cfg h.mem _

/-- The part of READ_ALL for a device that answered (R200, R202). -/
theorem readBlock_run (s : State) (hk : s.dp.devidx < s.cfg.cap) (hsp : 2 ≤ s.cfg.spLen.toNat)
    (w : Memory.wf s.mem = true) :
    ∃ block : List Byte, block.length = s.cfg.spLen.toNat ∧
      OpRun (isCacheOf s.dp.devidx) s (readBlock s)
        (selectEvents s.dp.devidx s ++ (txEvents s.cfg.cmdReadMem ++ block.flatMap rxEvents)) ∧
      cacheByte s.dp.devidx 0 (readBlock s) =
        (if crcFold 0#8 block = 0#8 then block.getD 0 0#8 else cacheByte s.dp.devidx 0 s) ∧
      cacheByte s.dp.devidx 1 (readBlock s) =
        (if crcFold 0#8 block = 0#8 then block.getD 1 0#8 else cacheByte s.dp.devidx 1 s) ∧
      (readBlock s).dp.devidx = s.dp.devidx ∧ (readBlock s).drv = .rel ∧
      (readBlock s).count = s.count ∧ (readBlock s).lastdev = s.lastdev ∧ (readBlock s).result = s.result ∧
      ∀ bytes rest, bytes.length = s.cfg.spLen.toNat → s.bus.env = .oracle (bytes.flatMap byteScript ++ rest) →
        block = bytes ∧ (readBlock s).bus.env = .oracle rest := by
  have r1 := selectDevice_run s.dp.devidx s
  have d1 : (selectDevice s.dp.devidx s).dp.devidx = s.dp.devidx := by rw [selectDevice_dp]
  have v1 : ∀ xs, s.bus.env = .oracle xs → (selectDevice s.dp.devidx s).bus.env = .oracle xs :=
    fun _ h => selectDevice_oracle h
  unfold readBlock
  generalize selectDevice s.dp.devidx s = a at r1 d1 v1
  have r2 := sendByte_run s.cfg.cmdReadMem a
  have d2 : (sendByte s.cfg.cmdReadMem a).dp.devidx = a.dp.devidx := by rw [sendByte_shift]
  have v2 : ∀ xs, a.bus.env = .oracle xs → (sendByte s.cfg.cmdReadMem a).bus.env = .oracle xs :=
    fun _ h => sendByte_oracle h
  generalize sendByte s.cfg.cmdReadMem a = b at r2 d2 v2
  have r3 := (r1.trans r2).trans (LineRun.onDp b (fun d => { d with crc := 0#8, byteidx := 0#8 }) rfl)
  have d3 : (onDp (fun d => { d with crc := 0#8, byteidx := 0#8 }) b).dp.devidx = s.dp.devidx := d2.trans d1
  have c3 : (onDp (fun d => { d with crc := 0#8, byteidx := 0#8 }) b).dp.crc = 0#8 := rfl
  have i3 : (onDp (fun d => { d with crc := 0#8, byteidx := 0#8 }) b).dp.byteidx = 0#8 := rfl
  have v3 : (onDp (fun d => { d with crc := 0#8, byteidx := 0#8 }) b).bus = b.bus := rfl
  generalize onDp (fun d => { d with crc := 0#8, byteidx := 0#8 }) b = c at r3 d3 c3 i3 v3
  obtain ⟨block, hl, r4, c4, h0, h1, d4, ho⟩ := readScratch_run s.cfg.spLen.toNat c i3
    ⟨hsp, by have := s.cfg.spLen.isLt; omega⟩
  have hne : s.cfg.spLen.toNat ≠ 0 := by omega
  generalize readScratch s.cfg.spLen.toNat c = d at r4 c4 h0 h1 d4 ho
  have r := r3.trans r4
  have dd : d.dp.devidx = s.dp.devidx := d4.trans d3
  obtain ⟨m, e0, e1⟩ := commitCache_run d (by rw [dd, r.same.cfg]; exact hk) (by rw [r.same.mem]; exact w)
  rw [dd, c4, c3] at e0 e1
  rw [dd] at m
  refine ⟨block, hl, ?_, ?_, ?_, ?_, ?_, ?_, ?_, ?_, fun bytes rest hb he => ?_⟩
  · have := (r.op (isCacheOf s.dp.devidx)).trans m.op
    simpa [List.append_assoc] using this
  · rw [e0, h0, cacheByte_same r.same]
  · rw [e1, h1, cacheByte_same r.same]
  · rw [m.dp, dd]
  · rw [m.drv, r.drv, if_neg]
    simp [txEvents, lsbFirst, selectEvents]
  · rw [m.count, r.same.count]
  · rw [m.lastdev, r.same.lastdev]
  · have : (commitCache d).result = d.result := by rw [m.eq]
    rw [this, r.same.result]
  · rw [m.bus]
    exact ho bytes rest hb (by rw [v3]; exact v2 _ (v1 _ he))

theorem readFrame_congr {s t : State} (h : t.cfg = s.cfg) (hm : ∀ k j, j < 8 → idByte k j t = idByte k j s) (k : Byte)
    (ans : Option (List Byte)) : readFrame k t ans = readFrame k s ans := by
  cases ans with
  | none => rfl
  | some block => simp only [readFrame, selectEvents_congr h hm, h]

theorem checkPresence_oracle {s : State} {x : Bool} {xs : List Bool} (h : s.bus.env = .oracle (x :: xs)) :
    (checkPresence s).1 = BitVec.ofBool x ∧ (checkPresence s).2.bus.env = .oracle xs := by
  rw [checkPresence_eq]; simp [h, envReset, oracleAnswer]

/-- One device of READ_ALL (R200 to R202): its read frame for some answer of the line, and its cache after it. -/
theorem readDevice_run (s : State) (hk : s.dp.devidx < s.cfg.cap) (hsp : 2 ≤ s.cfg.spLen.toNat)
    (w : Memory.wf s.mem = true) :
    ∃ ans : Option (List Byte), (∀ block, ans = some block → block.length = s.cfg.spLen.toNat) ∧
      OpRun (isCacheOf s.dp.devidx) s (readDevice s) (readFrame s.dp.devidx s ans) ∧
      cacheByte s.dp.devidx 0 (readDevice s) =
        (if committed ans then (ans.getD []).getD 0 0#8 else cacheByte s.dp.devidx 0 s) ∧
      cacheByte s.dp.devidx 1 (readDevice s) =
        (if committed ans then (ans.getD []).getD 1 0#8 else cacheByte s.dp.devidx 1 s) ∧
      (readDevice s).dp.devidx = s.dp.devidx ∧ (readDevice s).drv = .rel ∧
      (readDevice s).count = s.count ∧ (readDevice s).lastdev = s.lastdev ∧ (readDevice s).result = s.result ∧
      ∀ x rest, (∀ block, x = some block → block.length = s.cfg.spLen.toNat) →
        s.bus.env = .oracle (answerScript x ++ rest) → ans = x ∧ (readDevice s).bus.env = .oracle rest := by
  have r := checkPresence_run s
  have d := checkPresence_dp s
  have v := checkPresence_drv s
  have ev := fun x xs => checkPresence_oracle (s := s) (x := x) (xs := xs)
  unfold readDevice
  simp only
  generalize checkPresence s = p at r d v ev
  obtain ⟨p1, p2⟩ := p
  simp only at r d v ev ⊢
  by_cases hp : p1 = 1#1
  · rw [if_pos hp]
    have hd : p2.dp.devidx = s.dp.devidx := by rw [d]
    obtain ⟨block, hl, o, c0, c1, h1, h2, h3, h4, h5, ho⟩ := readBlock_run p2 (by rw [hd, r.same.cfg]; exact hk)
      (by rw [r.same.cfg]; exact hsp) (by rw [r.same.mem]; exact w)
    rw [hd, r.same.cfg, selectEvents_congr r.same.cfg fun k j _ => idByte_same r.same k j] at o
    rw [hd, cacheByte_same r.same] at c0 c1
    rw [r.same.cfg] at hl
    refine ⟨some block, fun b e => by cases e; exact hl, ?_, ?_, ?_, h1.trans hd, h2, h3.trans r.same.count,
      h4.trans r.same.lastdev, h5.trans r.same.result, ?_⟩
    · have := (r.op (isCacheOf s.dp.devidx)).trans o
      rw [hp] at this
      exact this
    · simpa [committed] using c0
    · simpa [committed] using c1
    · intro x rest hx he
      cases x with
      | none =>
        obtain ⟨e, -⟩ := ev false rest he
        rw [hp] at e
        exact absurd e (by decide)
      | some bytes =>
        obtain ⟨-, e⟩ := ev true (bytes.flatMap byteScript ++ rest) he
        obtain ⟨h, h'⟩ := ho bytes rest (by rw [r.same.cfg]; exact hx bytes rfl) e
        exact ⟨by rw [h], h'⟩
  · rw [if_neg hp]
    refine ⟨none, by simp, ?_, ?_, ?_, by rw [d], v, r.same.count, r.same.lastdev, r.same.result, ?_⟩
    · have := r.op (isCacheOf s.dp.devidx)
      rcases bit_cases p1 with e | e
      · rw [e] at this; exact this
      · exact absurd e hp
    · simp [committed, cacheByte_same r.same]
    · simp [committed, cacheByte_same r.same]
    · intro x rest hx he
      cases x with
      | none => exact ⟨rfl, (ev false rest he).2⟩
      | some bytes =>
        obtain ⟨e, -⟩ := ev true (bytes.flatMap byteScript ++ rest) he
        exact absurd e hp

/-- Address `a` is a cache byte of one of the slots `k` to `k + n - 1`. -/
def isCacheIn (k n a : Nat) : Prop := ∃ i : Byte, k ≤ i.toNat ∧ i.toNat < k + n ∧ isCacheOf i a

/-- What the devices of READ_ALL from slot `k` on do (R200 to R203). -/
structure ReadRun (n : Nat) (s t : State) (answers : List (Option (List Byte))) : Prop where
  length : answers.length = n
  blocks : ∀ ans ∈ answers, ∀ block, ans = some block → block.length = s.cfg.spLen.toNat
  op : OpRun (isCacheIn s.dp.devidx.toNat n) s t (readFrames s s.dp.devidx.toNat answers)
  cache : ∀ i (h : i < answers.length), ∀ j, j < 2 →
    cacheByte (BitVec.ofNat 8 (s.dp.devidx.toNat + i)) j t =
      if committed answers[i] then ((answers[i]).getD []).getD j 0#8
      else cacheByte (BitVec.ofNat 8 (s.dp.devidx.toNat + i)) j s
  drv : t.drv = if n = 0 then s.drv else .rel
  count : t.count = s.count
  lastdev : t.lastdev = s.lastdev
  result : t.result = s.result
  script : ∀ (xs : List (Option (List Byte))) (rest : List Bool), xs.length = n →
    (∀ x ∈ xs, ∀ block, x = some block → block.length = s.cfg.spLen.toNat) →
    s.bus.env = .oracle (xs.flatMap answerScript ++ rest) → answers = xs ∧ t.bus.env = .oracle rest

theorem readFrames_congr {s t : State} (h : t.cfg = s.cfg) (hm : ∀ k j, j < 8 → idByte k j t = idByte k j s) (k : Nat)
    (as : List (Option (List Byte))) : readFrames t k as = readFrames s k as := by
  induction as generalizing k with
  | nil => rfl
  | cons a as ih => rw [readFrames, readFrames, ih, readFrame_congr h hm]

theorem readDevices_run (n : Nat) (s : State) (hn : s.dp.devidx.toNat + n ≤ s.cfg.cap.toNat)
    (hsp : 2 ≤ s.cfg.spLen.toNat) (w : Memory.wf s.mem = true) :
    ∃ answers, ReadRun n s (readDevices n s) answers := by
  induction n generalizing s with
  | zero =>
    refine ⟨[], rfl, by simp, .refl _ s, fun i h => absurd h (by simp), rfl, rfl, rfl, rfl, fun xs rest hl _ he => ?_⟩
    have hb := List.eq_nil_of_length_eq_zero hl
    subst hb
    exact ⟨rfl, he⟩
  | succ n ih =>
    obtain ⟨ans, hb, o, c0, c1, hd, hv, hc, hl, hr, ho⟩ := readDevice_run s (BitVec.lt_def.2 (by omega)) hsp w
    rw [readDevices]
    have o' := o.trans (OpRun.onDp _ _ (fun d => { d with devidx := d.devidx + 1#8 }) rfl)
    have hd' : (onDp (fun d => { d with devidx := d.devidx + 1#8 }) (readDevice s)).dp.devidx = s.dp.devidx + 1#8 := by
      rw [onDp_dp]; simp only [hd]
    have hN : (s.dp.devidx + 1#8).toNat = s.dp.devidx.toNat + 1 := by
      rw [BitVec.toNat_add]
      have := s.cfg.cap.isLt
      simp; omega
    have hv' : (onDp (fun d => { d with devidx := d.devidx + 1#8 }) (readDevice s)).drv = .rel :=
      (onDp_drv _ _).trans hv
    have hc' : (onDp (fun d => { d with devidx := d.devidx + 1#8 }) (readDevice s)).count = s.count :=
      (onDp_count _ _).trans hc
    have hl' : (onDp (fun d => { d with devidx := d.devidx + 1#8 }) (readDevice s)).lastdev = s.lastdev :=
      (onDp_lastdev _ _).trans hl
    have hr' : (onDp (fun d => { d with devidx := d.devidx + 1#8 }) (readDevice s)).result = s.result :=
      (onDp_result _ _).trans hr
    have c0' := (cacheByte_same (LineRun.onDp (readDevice s) (fun d => { d with devidx := d.devidx + 1#8 }) rfl).same
      s.dp.devidx 0).trans c0
    have c1' := (cacheByte_same (LineRun.onDp (readDevice s) (fun d => { d with devidx := d.devidx + 1#8 }) rfl).same
      s.dp.devidx 1).trans c1
    have hbus : (onDp (fun d => { d with devidx := d.devidx + 1#8 }) (readDevice s)).bus = (readDevice s).bus :=
      onDp_bus _ _
    generalize onDp (fun d => { d with devidx := d.devidx + 1#8 }) (readDevice s) = m at *
    obtain ⟨as, g⟩ := ih m (by rw [hd', hN, o'.cfg]; omega) (by rw [o'.cfg]; exact hsp) (o'.wf w)
    obtain ⟨g1, g2, g3, g4, g5, g6, g7, g8, g9⟩ := g
    rw [hd', hN] at g3 g4
    rw [o'.cfg] at g2 g9
    have hid : ∀ k j, j < 8 → idByte k j m = idByte k j s := fun k j hj => o'.other _ fun ⟨i, hi, e⟩ => by
      unfold idAddr cacheAddr slotBase at e; omega
    rw [readFrames_congr o'.cfg hid] at g3
    have hk8 : BitVec.ofNat 8 s.dp.devidx.toNat = s.dp.devidx := by simp
    refine ⟨ans :: as, ⟨by rw [List.length_cons, g1], ?_, ?_, ?_, ?_, ?_, ?_, ?_, ?_⟩⟩
    · intro a ha block e
      rcases List.mem_cons.1 ha with h | h
      · subst h; exact hb block e
      · exact g2 a h block e
    · rw [readFrames, hk8]
      have o1 : OpRun (isCacheIn s.dp.devidx.toNat (n + 1)) s m (readFrame s.dp.devidx s ans ++ []) :=
        o'.mono fun a h => ⟨s.dp.devidx, by omega, by omega, h⟩
      rw [List.append_nil] at o1
      exact o1.trans (g3.mono fun a ⟨i, h1, h2, h3⟩ => ⟨i, by omega, by omega, h3⟩)
    · intro i hi j hj
      have hcap := s.cfg.cap.isLt
      cases i with
      | zero =>
        rw [Nat.add_zero, hk8, List.getElem_cons_zero]
        have e : cacheByte s.dp.devidx j (readDevices n m) = cacheByte s.dp.devidx j m :=
          g3.other _ fun ⟨k, h1, h2, i', h3, h4⟩ => by unfold cacheAddr slotBase at h4; omega
        rw [e]
        obtain rfl | rfl : j = 0 ∨ j = 1 := by omega
        · exact c0'
        · exact c1'
      | succ i =>
        have hi' : i < as.length := by simpa using hi
        rw [List.getElem_cons_succ]
        have hidx : s.dp.devidx.toNat + (i + 1) = s.dp.devidx.toNat + 1 + i := by omega
        rw [hidx, g4 i hi' j hj]
        have e : cacheByte (BitVec.ofNat 8 (s.dp.devidx.toNat + 1 + i)) j m =
            cacheByte (BitVec.ofNat 8 (s.dp.devidx.toNat + 1 + i)) j s :=
          o'.other _ fun ⟨i', h3, h4⟩ => by
            unfold cacheAddr slotBase at h4
            rw [toNat_ofNat8 (by omega)] at h4
            omega
        rw [e]
    · rw [g5, hv']; simp
    · rw [g6, hc']
    · rw [g7, hl']
    · rw [g8, hr']
    · intro xs rest hl hx he
      cases xs with
      | nil => simp at hl
      | cons x xs =>
        rw [List.flatMap_cons, List.append_assoc] at he
        obtain ⟨h1, h2⟩ := ho x _ (hx x (List.mem_cons_self ..)) he
        obtain ⟨h3, h4⟩ := g9 xs rest (by simpa using hl) (fun y hy => hx y (List.mem_cons_of_mem _ hy))
          (by rw [hbus]; exact h2)
        exact ⟨by rw [h1, h3], h4⟩

/-- Everything READ_ALL does (R200 to R203, R36). -/
theorem readAll_run (s : State) (hc : s.count ≤ s.cfg.cap) (hsp : 2 ≤ s.cfg.spLen.toNat)
    (w : Memory.wf s.mem = true) :
    ∃ answers : List (Option (List Byte)), answers.length = s.count.toNat ∧
      (∀ ans ∈ answers, ∀ block, ans = some block → block.length = s.cfg.spLen.toNat) ∧
      OpRun (isCacheIn 0 s.count.toNat) s (readAll s) (readFrames s 0 answers) ∧
      (∀ i (h : i < answers.length), ∀ j, j < 2 →
        cacheByte (BitVec.ofNat 8 i) j (readAll s) =
          if committed answers[i] then ((answers[i]).getD []).getD j 0#8 else cacheByte (BitVec.ofNat 8 i) j s) ∧
      (readAll s).drv = (if s.count = 0#8 then s.drv else .rel) ∧ (readAll s).count = s.count ∧
      (readAll s).lastdev = s.lastdev ∧ (readAll s).result = s.result ∧
      ∀ (xs : List (Option (List Byte))) (rest : List Bool), xs.length = s.count.toNat →
        (∀ x ∈ xs, ∀ block, x = some block → block.length = s.cfg.spLen.toNat) →
        s.bus.env = .oracle (xs.flatMap answerScript ++ rest) → answers = xs ∧ (readAll s).bus.env = .oracle rest := by
  have o := OpRun.onDp (isCacheIn 0 s.count.toNat) s (fun d => { d with devidx := 0#8 }) rfl
  have hd : (onDp (fun d => { d with devidx := 0#8 }) s).dp.devidx.toNat = 0 := rfl
  obtain ⟨answers, g1, g2, g3, g4, g5, g6, g7, g8, g9⟩ := readDevices_run s.count.toNat
    (onDp (fun d => { d with devidx := 0#8 }) s) (by rw [hd, Nat.zero_add]; exact BitVec.le_def.1 hc) hsp w
  simp only [hd, Nat.zero_add] at g3 g4
  refine ⟨answers, g1, g2, ?_, g4, ?_, g6, g7, g8, g9⟩
  · rw [readFrames_congr (s := s) (t := onDp (fun d => { d with devidx := 0#8 }) s) rfl (fun _ _ _ => rfl)] at g3
    exact o.trans g3
  · refine g5.trans ?_
    have e : s.count.toNat = 0 ↔ s.count = 0#8 := by
      constructor
      · intro h; exact BitVec.eq_of_toNat_eq h
      · intro h; rw [h]; rfl
    simp only [e]; rfl

/-- What START_CONVERSION puts on the line (R123, R204), by what its presence check sampled. -/
theorem startConversion_run (touch : Nat → Prop) (s : State) :
    OpRun touch s (startConversion s) (convertFrame s.cfg (checkPresence s).1) ∧
    (startConversion s).drv = (if (checkPresence s).1 = 1#1 ∧ s.cfg.parasite = true then .high else .rel) ∧
    (startConversion s).count = s.count ∧ (startConversion s).lastdev = s.lastdev ∧
    (startConversion s).result = s.result ∧ (startConversion s).mem = s.mem := by
  have r := checkPresence_run s
  have v := checkPresence_drv s
  unfold startConversion
  simp only
  generalize checkPresence s = p at r v
  obtain ⟨p1, p2⟩ := p
  simp only at r v ⊢
  by_cases hp : p1 = 1#1
  · rw [if_pos hp]
    have g := r.trans ((sendByte_run s.cfg.cmdSkip p2).trans (sendByte_run s.cfg.cmdConvert _))
    generalize sendByte s.cfg.cmdConvert (sendByte s.cfg.cmdSkip p2) = q at g
    subst hp
    have hd : q.drv = .rel := by rw [g.drv, if_neg (by simp)]
    by_cases hq : s.cfg.parasite = true
    · have e : strongPullUp q = emit .spu (drive .high q) := by
        unfold strongPullUp; rw [g.same.cfg, if_pos hq]
      have o : OpRun touch q (strongPullUp q) [.spu] := by
        rw [e]
        exact ⟨rfl, rfl, rfl, rfl, rfl, rfl, id, id, fun _ _ => rfl, rfl, rfl, (List.append_nil _).symm,
          .inr (.inr ⟨rfl, by rw [g.same.cfg]; exact hq⟩), id, .spu (.nil _ _)⟩
      refine ⟨?_, by rw [e]; simp [hq], ?_, ?_, ?_, ?_⟩
      · have := (g.op touch).trans o
        simpa [convertFrame, hq] using this
      all_goals rw [e]
      · exact g.same.count
      · exact g.same.lastdev
      · exact g.same.result
      · exact g.same.mem
    · have e : strongPullUp q = q := by
        unfold strongPullUp; rw [g.same.cfg, if_neg hq]
      rw [e]
      refine ⟨?_, by simp [hq, hd], g.same.count, g.same.lastdev, g.same.result, g.same.mem⟩
      have := g.op touch
      simpa [convertFrame, hq] using this
  · rw [if_neg hp]
    have e : p1 = 0#1 := (bit_cases p1).resolve_right hp
    subst e
    refine ⟨?_, by simp [v], r.same.count, r.same.lastdev, r.same.result, r.same.mem⟩
    simpa [convertFrame] using r.op touch

/-- Everything PROCESS does (R212): READ_ALL, its own presence check, and a conversion when that sampled low. -/
theorem processBody_eq (s : State) :
    processBody s =
      setResult (zextByte (if (checkPresence (readAll s)).1 = 1#1 then startConversion (checkPresence (readAll s)).2
        else (checkPresence (readAll s)).2).count)
        (if (checkPresence (readAll s)).1 = 1#1 then startConversion (checkPresence (readAll s)).2
        else (checkPresence (readAll s)).2) := rfl

end Sys2Proof.Machine
end

