-- ==== Sys2Proof/Laws/Crc.lean ====
section
/-! SUPPORT. The checksum step (45_crc8.md) over exclusive or. -/

namespace Sys2Proof.Machine

theorem crcShift_eq (x : Byte) : crcShift x = if x.getLsbD 0 then (x >>> 1) ^^^ 0x8C#8 else x >>> 1 := by
  unfold crcShift bitOf
  have : (x.extractLsb' 0 1 = 1#1) ↔ x.getLsbD 0 = true := by
    constructor
    · intro h
      have := congrArg (fun b => b.getLsbD 0) h
      simpa using this
    · intro h
      apply BitVec.eq_of_getLsbD_eq
      intro i hi
      have : i = 0 := by omega
      subst this
      simpa using h
  simp only [this]

theorem crcShift_xor (x y : Byte) : crcShift (x ^^^ y) = crcShift x ^^^ crcShift y := by
  rw [crcShift_eq, crcShift_eq, crcShift_eq]
  have : (x ^^^ y).getLsbD 0 = (x.getLsbD 0 ^^ y.getLsbD 0) := by simp
  rw [this, BitVec.ushiftRight_xor_distrib]
  generalize x >>> 1 = u
  generalize y >>> 1 = v
  cases x.getLsbD 0 <;> cases y.getLsbD 0 <;> simp [BitVec.xor_assoc, BitVec.xor_comm]
  rw [← BitVec.xor_assoc, BitVec.xor_comm u v, BitVec.xor_assoc]

theorem crcShifts_xor (n : Nat) (x y : Byte) : crcShifts n (x ^^^ y) = crcShifts n x ^^^ crcShifts n y := by
  induction n generalizing x y with
  | zero => rfl
  | succ n ih => simp only [crcShifts]; rw [crcShift_xor, ih]

end Sys2Proof.Machine
end

