-- ==== Sys2Proof/Laws/Devices.lean ====
section
/-! SUPPORT. Reset in the middle of a time slot: what it leaves of the history and of the line's other side. No time slot, and no
reset, changes an identity or a scratchpad. -/

namespace Sys2Proof.Machine

/-! What is kept of a running operation's events and waveform (R272). -/

theorem eventWave_ticks (c : Config) (e : BusEvent) : ((eventWave c e).map waveTicks).sum = eventTicks c e := by
  cases e with
  | rst p => simp [eventWave, presenceWave, waveTicks, eventTicks, Config.tP, Nat.add_assoc]
  | w v => rcases bit_cases v with rfl | rfl <;> simp [eventWave, writeWave, waveTicks, eventTicks, Config.tW] <;> omega
  | r v => simp [eventWave, readWave, waveTicks, eventTicks, Config.tR, Nat.add_assoc]
  | spu => rfl

/-- A run's waveform lasts as long as its events. -/
theorem eventWaves_ticks (c : Config) (es : List BusEvent) :
    ((es.flatMap (eventWave c)).map waveTicks).sum = (es.map (eventTicks c)).sum := by
  induction es with
  | nil => rfl
  | cons e es ih => simp [List.flatMap_cons, eventWave_ticks, ih]

/-- All `cutEvents` does on a run that lasts longer than `d`: the longest prefix whose slots fit in `d` ticks. -/
theorem cutEvents_take (c : Config) (d : Nat) (es : List BusEvent) (h : d < (es.map (eventTicks c)).sum) :
    ∃ k, cutEvents c d es = es.take k ∧ ((es.take k).map (eventTicks c)).sum ≤ d ∧
      d < ((es.take (k + 1)).map (eventTicks c)).sum := by
  induction es generalizing d with
  | nil => simp at h
  | cons e es ih =>
    simp only [List.map_cons, List.sum_cons] at h
    unfold cutEvents
    split
    · obtain ⟨k, h1, h2, h3⟩ := ih (d - eventTicks c e) (by omega)
      refine ⟨k + 1, by rw [h1]; rfl, ?_, ?_⟩ <;> simp only [List.take_succ_cons, List.map_cons, List.sum_cons] <;> omega
    · exact ⟨0, rfl, by simp, by simpa using by omega⟩

theorem cutWave_zero (ws : List WaveItem) : cutWave 0 ws = [] := by
  cases ws with
  | nil => rfl
  | cons w ws => cases w <;> rfl

/-- All `cutWave` does on a waveform that lasts longer than `d > 0`: whole pieces, and the last one shortened to fill `d`. -/
theorem cutWave_take (d : Nat) (ws : List WaveItem) (h0 : 0 < d) (h : d < (ws.map waveTicks).sum) :
    (∃ (k n m : Nat) (v : Drv), ws[k]? = some (.hold v n) ∧ m ≤ n ∧ cutWave d ws = ws.take k ++ [.hold v m]) ∧
      ((cutWave d ws).map waveTicks).sum = d := by
  induction ws generalizing d with
  | nil => simp at h
  | cons w ws ih =>
    have hd : d ≠ 0 := by omega
    cases w with
    | sample x =>
      obtain ⟨⟨k, n, m, v, h1, h2, h3⟩, h4⟩ := ih d h0 (by simpa [waveTicks] using h)
      simp only [cutWave, hd, reduceIte]
      exact ⟨⟨k + 1, n, m, v, by simpa using h1, h2, by rw [h3]; rfl⟩, by simpa [waveTicks] using h4⟩
    | hold x n =>
      simp only [cutWave, hd, reduceIte]
      split
      · obtain ⟨⟨k, n', m, v, h1, h2, h3⟩, h4⟩ := ih (d - n) (by omega) (by simp [waveTicks] at h; omega)
        refine ⟨⟨k + 1, n', m, v, by simpa using h1, h2, by rw [h3]; rfl⟩, ?_⟩
        simp only [List.map_cons, List.sum_cons, waveTicks, h4]
        omega
      · exact ⟨⟨0, n, d, x, rfl, by omega, rfl⟩, by simp [waveTicks]⟩

/-! Identities and scratchpads (R90). -/

/-- The identities and the scratchpads of the reference responders on the line. -/
def Env.devices : Env → List (BitVec 64 × List Byte)
  | .oracle _ => []
  | .responders rs => rs.map (fun r => (r.rid, r.pad))
  | .unsettled rs => rs.map (fun r => (r.rid, r.pad))

theorem Responder.onWrite_device (c : Config) (b : Bit) (r : Responder) :
    (r.onWrite c b).rid = r.rid ∧ (r.onWrite c b).pad = r.pad := by
  unfold onWrite onFunc
  repeat' split
  all_goals exact ⟨rfl, rfl⟩

theorem Responder.onRead_device (r : Responder) : r.onRead.rid = r.rid ∧ r.onRead.pad = r.pad := by
  unfold onRead
  split <;> exact ⟨rfl, rfl⟩

theorem settle_devices (n : Nat) (rs : List Responder) :
    (settle n rs).map (fun r => (r.rid, r.pad)) = rs.map (fun r => (r.rid, r.pad)) := by
  induction rs generalizing n with
  | nil => rfl
  | cons r rs ih => simp [settle, ih, Responder.onReset]

/-- A presence check that settles responders leaves each of them in its initial mode (R91, R271). -/
theorem settle_mode (n : Nat) (rs : List Responder) : ∀ r ∈ settle n rs, r.mode = .romCmd 0 0#8 := by
  induction rs generalizing n with
  | nil => intro r h; cases h
  | cons r rs ih =>
    intro x h
    rcases List.mem_cons.1 h with rfl | h
    · rfl
    · exact ih (n + 1) x h

@[simp] theorem envReset_devices (e : Env) (n : Nat) : (envReset e n).env.devices = e.devices := by
  cases e with
  | oracle script => cases script <;> rfl
  | responders rs => simp [envReset, Env.devices, Responder.onReset, Function.comp_def]
  | unsettled rs => exact settle_devices n rs

@[simp] theorem envRead_devices (e : Env) (n : Nat) : (envRead e n).env.devices = e.devices := by
  cases e with
  | oracle script => cases script <;> rfl
  | responders rs => simp [envRead, Env.devices, Responder.onRead_device, Function.comp_def]
  | unsettled rs => rfl

@[simp] theorem envWrite_devices (c : Config) (v : Bit) (e : Env) : (envWrite c v e).devices = e.devices := by
  cases e with
  | oracle script => rfl
  | responders rs => simp [envWrite, Env.devices, Responder.onWrite_device, Function.comp_def]
  | unsettled rs => rfl

@[simp] theorem unsettle_devices (e : Env) : e.unsettle.devices = e.devices := by
  cases e <;> rfl

@[simp] theorem lineAfter_devices (c : Config) (es : List BusEvent) (e : Env) (n : Nat) :
    (lineAfter c es e n).devices = e.devices := by
  induction es generalizing e n with
  | nil => rfl
  | cons x es ih => cases x <;> simp [lineAfter, ih]

/-- The line's other side after the slots a reset cut has reference responders exactly if it had them before. -/
theorem lineAfter_unsettled (c : Config) (es : List BusEvent) (rs : List Responder) (n : Nat) :
    ∃ rs', (lineAfter c es (.responders rs) n).unsettle = .unsettled rs' ∧
      rs'.map (fun r => (r.rid, r.pad)) = rs.map (fun r => (r.rid, r.pad)) := by
  have h : ∃ rs', lineAfter c es (.responders rs) n = .responders rs' := by
    induction es generalizing rs n with
    | nil => exact ⟨rs, rfl⟩
    | cons x es ih => cases x <;> exact ih _ _
  obtain ⟨rs', h⟩ := h
  have k := lineAfter_devices c es (.responders rs) n
  rw [h] at k
  exact ⟨rs', by rw [h]; rfl, k⟩

/-- No run of time slots changes an identity or a scratchpad. -/
theorem LineTells.devices {c : Config} {es : List BusEvent} {e e' : Env} {n n' : Nat} (h : LineTells c es e n e' n') :
    e'.devices = e.devices := by
  induction h with
  | nil => rfl
  | draw _ ih => exact ih
  | rst _ ih => simpa using ih
  | r _ ih => simpa using ih
  | w v _ ih => simpa using ih
  | spu _ ih => exact ih

/-- Whether the responders are as R90 says depends on their identities and scratchpads only. -/
theorem Env.wf_of_devices {c : Config} {e e' : Env} (h : e'.devices = e.devices) (w : e.wf c = true) : e'.wf c = true := by
  have key : ∀ x : Env, x.wf c = x.devices.all (fun d => Responder.wf c { rid := d.1, pad := d.2, mode := .idle, conversions := 0 }) := by
    intro x
    cases x <;> simp [Env.wf, Env.devices, Responder.wf, Function.comp_def] <;> rfl
  rw [key] at w ⊢
  rw [h]
  exact w

/-- The responder R90 describes, whatever data it holds. -/
theorem newResponder_wf (c : Config) (h : 0 < c.spLen.toNat) (rid : BitVec 64) (data : List Byte) :
    (newResponder c rid data).wf c = true := by
  simp only [newResponder, scratchpad, Responder.wf, List.dropLast_concat, decide_true, Bool.and_true]
  simp only [List.length_append, List.length_take, List.length_replicate, List.length_cons, List.length_nil]
  rw [Nat.min_eq_left (by omega)]
  exact decide_eq_true (by omega)

end Sys2Proof.Machine
end

