-- ==== Sys2Proof/Laws/Discover.lean ====
section
/-! SUPPORT. What a search pass returns, how long it takes, and everything a discovery can do (rules R185, R190 to R196, R301). -/

namespace Sys2Proof.Machine

theorem posNumber_toNat (c : Config) (p : Nat) (hp : p < 64) : (posNumber c p).toNat = p + c.base := by
  unfold posNumber
  have : c.base ≤ 1 := by unfold Config.base; split <;> omega
  exact toNat_ofNat8 (by omega)

/-- The deviation value of positions `p` to `p + n - 1`: what it was, or the number of one that records itself. -/
theorem devAfter_cases (c : Config) (last : Byte) (p : Nat) (d : Byte) (xs : List Position) :
    devAfter c last p d xs = d ∨
      ∃ i, ∃ h : i < xs.length, (xs[i]).records c last (p + i) = true ∧ devAfter c last p d xs = posNumber c (p + i) := by
  induction xs generalizing p d with
  | nil => exact .inl rfl
  | cons x xs ih =>
    rw [devAfter]
    rcases ih (p + 1) (if x.records c last p then posNumber c p else d) with e | ⟨i, hi, hr, he⟩
    · by_cases r : x.records c last p = true
      · rw [if_pos r] at e
        rw [if_pos r]
        exact .inr ⟨0, by simp, by simpa using r, by simpa using e⟩
      · rw [if_neg r] at e
        rw [if_neg r]
        exact .inl e
    · refine .inr ⟨i + 1, by simpa using hi, ?_, ?_⟩
      · have : p + (i + 1) = p + 1 + i := by omega
        rw [this]; simpa using hr
      · have : p + (i + 1) = p + 1 + i := by omega
        rw [this]; exact he

/-- The value a search pass returns (R126, R185): 0 or the sentinel, or the number of a position; under SOURCE one beyond `last`. -/
theorem searchPass_value (k last : Byte) (s : State) (hk : k < s.cfg.cap) (w : Memory.wf s.mem = true) :
    (searchPass k last s).1 = 0#8 ∨ (searchPass k last s).1 = sentinel ∨
      ∃ p, p < 64 ∧ (searchPass k last s).1 = posNumber s.cfg p ∧
        (s.cfg.variant = .source → last < (searchPass k last s).1) := by
  obtain ⟨xs, -, -, he, -⟩ := searchPass_run k last s hk w
  rcases he with ⟨hl, -, hv⟩ | ⟨-, -, hv⟩
  · rcases devAfter_cases s.cfg last 0 0#8 xs with e | ⟨i, hi, hr, e⟩
    · exact .inl (hv.trans e)
    · rw [Nat.zero_add] at hr e
      refine .inr (.inr ⟨i, by omega, hv.trans e, fun hsrc => ?_⟩)
      rw [hv, e]
      unfold Position.records at hr
      simp only [Bool.and_eq_true, Bool.or_eq_true, decide_eq_true_eq, hsrc] at hr
      rcases hr.2 with h | h
      · exact h
      · exact absurd h.1.1 (by decide)
  · exact .inr (.inl hv)

theorem searchPass_legal (k last : Byte) (s : State) (hk : k < s.cfg.cap) (w : Memory.wf s.mem = true) :
    legalDeviation s.cfg.variant (searchPass k last s).1 = true := by
  rcases searchPass_value k last s hk w with e | e | ⟨p, hp, e, -⟩
  · rw [e]; cases s.cfg.variant <;> rfl
  · rw [e]; cases s.cfg.variant <;> rfl
  · rw [e]
    have := posNumber_toNat s.cfg p hp
    unfold Config.base at this
    unfold legalDeviation
    cases hv : s.cfg.variant <;> rw [hv] at this <;> simp only [Bool.or_eq_true, decide_eq_true_eq] <;> left <;>
      simp at this <;> omega

theorem txEvents_ticks (c : Config) (b : Byte) : ((txEvents b).map (eventTicks c)).sum = 8 * c.tW := by
  simp [txEvents, lsbFirst, Function.comp_def, eventTicks]; omega

theorem positions_ticks (c : Config) (xs : List Position) :
    ((xs.flatMap Position.events).map (eventTicks c)).sum = xs.length * (2 * c.tR + c.tW) := by
  induction xs with
  | nil => simp
  | cons x xs ih =>
    rw [List.flatMap_cons, List.map_append, List.sum_append, ih, List.length_cons, Nat.add_mul]
    simp [Position.events, eventTicks]; omega

/-- How long a pass takes (R301). -/
theorem searchPass_ticks (k last : Byte) (s : State) (hk : k < s.cfg.cap) (w : Memory.wf s.mem = true) :
    ((searchPass k last s).1 ≠ sentinel ∧
      (searchPass k last s).2.bus.clock = s.bus.clock + passTicks s.cfg) ∨
    ((searchPass k last s).1 = sentinel ∧
      ∃ q, q < 64 ∧ (searchPass k last s).2.bus.clock = s.bus.clock + abortTicks s.cfg q) := by
  obtain ⟨xs, -, -, he, -⟩ := searchPass_run k last s hk w
  rcases he with ⟨hl, ho, hv⟩ | ⟨hl, ho, hv⟩
  · refine .inl ⟨?_, ?_⟩
    · rw [hv]
      rcases devAfter_cases s.cfg last 0 0#8 xs with e | ⟨i, hi, -, e⟩
      · rw [e]; decide
      · rw [e, Nat.zero_add]
        intro h
        have := posNumber_toNat s.cfg i (by omega)
        rw [h] at this
        have hb : s.cfg.base ≤ 1 := by unfold Config.base; split <;> omega
        have : (sentinel).toNat = 255 := rfl
        omega
    · rw [ho.clock, List.map_append, List.sum_append, txEvents_ticks, positions_ticks, hl, passTicks]
  · refine .inr ⟨hv, xs.length, hl, ?_⟩
    rw [ho.clock, List.map_append, List.sum_append, txEvents_ticks, List.map_append, List.sum_append, positions_ticks,
      abortTicks]
    simp [eventTicks]; omega

theorem searchPass_op (k last : Byte) (s : State) (hk : k < s.cfg.cap) (w : Memory.wf s.mem = true) :
    ∃ new, OpRun (isIdOf k) s (searchPass k last s).2 new := by
  obtain ⟨xs, -, -, ⟨-, ho, -⟩ | ⟨-, ho, -⟩, -⟩ := searchPass_run k last s hk w
  · exact ⟨_, ho⟩
  · exact ⟨_, ho⟩

/-- Address `a` is an identity byte of some slot. -/
def isId (c : Config) (a : Nat) : Prop := ∃ k : Byte, k < c.cap ∧ isIdOf k a

theorem legalDeviation_zero (v : SearchVariant) : legalDeviation v 0#8 = true := by cases v <;> rfl

theorem seedSlot_run (s : State) : MemRun s (seedSlot s) (isIdOf s.dp.npass) := by
  unfold seedSlot
  split
  · exact .refl s _
  · exact copyId_run _ _ 8 (by omega) s

/-- The state in which a discovery's pass starts: presence answered, the slot seeded (R190, R191). -/
def seeded (s : State) : State := seedSlot (checkPresence s).2

/-- The bits a discovery's next pass is seeded with (R191): those of the slot filled last, or of slot 0 before the first pass. -/
def seedBits (s : State) : List Bit :=
  (List.range 64).map (fun q => idBit (if s.dp.npass = 0#8 then 0#8 else s.dp.npass - 1#8) q s)

theorem seedBits_getD (s : State) (q : Nat) (hq : q < 64) :
    (seedBits s).getD q 0#1 = idBit (if s.dp.npass = 0#8 then 0#8 else s.dp.npass - 1#8) q s := by
  unfold seedBits
  rw [List.getD_eq_getElem?_getD, List.getElem?_map, List.getElem?_range hq]
  rfl

theorem seeded_run (s : State) (hk : s.dp.npass < s.cfg.cap) (w : Memory.wf s.mem = true) :
    OpRun (isIdOf s.dp.npass) s (seeded s) [.rst (checkPresence s).1] ∧
    (seeded s).dp = { s.dp with tickcnt := 0 } ∧ (seeded s).result = s.result ∧ (seeded s).count = s.count ∧
    (seeded s).lastdev = s.lastdev ∧ (seeded s).drv = .rel ∧
    ∀ q, q < 64 → idBit s.dp.npass q (seeded s) = (seedBits s).getD q 0#1 := by
  have r := checkPresence_run s
  have m := seedSlot_run (checkPresence s).2
  have hd := checkPresence_dp s
  rw [hd] at m
  refine ⟨by simpa [seeded] using (r.op _).trans m.op, m.dp.trans hd, ?_, m.count.trans r.same.count,
    m.lastdev.trans r.same.lastdev, m.drv.trans (checkPresence_drv s), fun q hq => ?_⟩
  · have : (seedSlot (checkPresence s).2).result = (checkPresence s).2.result := by rw [m.eq]
    exact this.trans r.same.result
  · rw [seedBits_getD s q hq]
    unfold seeded seedSlot
    rw [hd]
    by_cases h0 : s.dp.npass = 0#8
    · rw [if_pos h0, if_pos h0, h0]
      exact idBit_congr r.same.cfg r.same.mem _ _
    · rw [if_neg h0, if_neg h0]
      have hne : s.dp.npass - 1#8 ≠ s.dp.npass := fun e => by
        have := congrArg BitVec.toNat e
        rw [BitVec.toNat_sub] at this
        have := s.dp.npass.isLt
        simp at *
      unfold idBit idByte
      rw [copyId_read _ _ 8 (by omega) _ (by rw [r.same.mem]; exact w) (by rw [r.same.cfg]; exact hk) hne _ (by omega)]
      rw [memRead_congr r.same.cfg r.same.mem]

/-- A pass of a discovery with its presence check and seeding (R190, R191). -/
structure RoundRun (s : State) (v : Byte) (t : State) (xs : List Position) : Prop where
  follows : ∀ i (h : i < xs.length), (xs[i]).Follows s.cfg s.lastdev ((seedBits s).getD i 0#1) i
  bits : ∀ q, q < 64 → idBit s.dp.npass q t = if h : q < xs.length then (xs[q]).ch else (seedBits s).getD q 0#1
  ends : (xs.length = 64 ∧ OpRun (isIdOf s.dp.npass) s t (passEvents s.cfg xs) ∧
      v = devAfter s.cfg s.lastdev 0 0#8 xs ∧ v ≠ sentinel) ∨
    (xs.length < 64 ∧ OpRun (isIdOf s.dp.npass) s t ((DiscoveryEnd.collision xs).events s.cfg) ∧ v = sentinel)
  lastdev : t.lastdev = v
  result : t.result = s.result
  npass : t.dp.npass = s.dp.npass
  drv : t.drv = .rel
  legal : legalDeviation s.cfg.variant v = true

theorem round_run (s : State) (hk : s.dp.npass < s.cfg.cap) (w : Memory.wf s.mem = true)
    (hp : (checkPresence s).1 ≠ 0#1) :
    ∃ xs, RoundRun s (searchPass s.dp.npass s.lastdev (seeded s)).1 (searchPass s.dp.npass s.lastdev (seeded s)).2 xs := by
  obtain ⟨o, hdp, hr, -, -, -, hs⟩ := seeded_run s hk w
  rw [(bit_cases _).resolve_left hp] at o
  have hk' : s.dp.npass < (seeded s).cfg.cap := by rw [o.cfg]; exact hk
  have w' := o.wf w
  obtain ⟨xs, hf, hb, he, hl, hr2, -, hn, hd⟩ := searchPass_run s.dp.npass s.lastdev (seeded s) hk' w'
  have hlen : xs.length ≤ 64 := by
    rcases he with h | h
    · exact Nat.le_of_eq h.1
    · exact Nat.le_of_lt h.1
  rw [o.cfg] at hf he
  refine ⟨xs, fun i hi => ?_, fun q hq => ?_, ?_, hl, hr2.trans hr, hn.trans (by rw [hdp]), hd, ?_⟩
  · rw [← hs i (by omega)]; exact hf i hi
  · rw [hb q hq, hs q hq]
  · rcases he with ⟨h1, h2, h3⟩ | ⟨h1, h2, h3⟩
    · refine .inl ⟨h1, o.trans h2, h3, ?_⟩
      rw [h3]
      rcases devAfter_cases s.cfg s.lastdev 0 0#8 xs with e | ⟨i, hi, -, e⟩
      · rw [e]; decide
      · rw [e, Nat.zero_add]
        intro h
        have hp' := posNumber_toNat s.cfg i (by omega)
        rw [h] at hp'
        have hb' : s.cfg.base ≤ 1 := by unfold Config.base; split <;> omega
        have : (sentinel).toNat = 255 := rfl
        omega
    · exact .inr ⟨h1, o.trans h2, h3⟩
  · have := searchPass_legal s.dp.npass s.lastdev (seeded s) hk' w'
    rwa [o.cfg] at this

/-- One iteration of `Discover`'s loop (R190). -/
theorem discoverLoop_succ (fuel : Nat) (last : Byte) (s : State) :
    discoverLoop (fuel + 1) last s =
      if (checkPresence s).1 = 0#1 then setCount 0#8 (checkPresence s).2
      else
        let d := searchPass (seeded s).dp.npass last (seeded s)
        if d.1 = sentinel then takeCount d.2
        else
          let u := onDp (fun r => { r with npass := r.npass + 1#8 }) d.2
          if d.1 = 0#8 then takeCount u
          else if u.dp.npass = u.cfg.cap then takeCount u
          else discoverLoop fuel d.1 u := rfl

/-- What the loop of a discovery does from a state with NPASS slots filled (R190 to R195): the passes `ps`, the end `e`. -/
structure DiscoverRun (s t : State) (ps : List (List Position)) (e : DiscoveryEnd) : Prop where
  passes : passesFrom s.cfg s.lastdev (seedBits s) ps
  op : OpRun (isIdIn s.dp.npass.toNat (ps.length + e.slots)) s t (ps.flatMap (passEvents s.cfg) ++ e.events s.cfg)
  ids : ∀ m (h : m < ps.length), ∀ q, q < 64 →
    idBit (BitVec.ofNat 8 (s.dp.npass.toNat + m)) q t = (passBits ps[m]).getD q 0#1
  ends : e.Holds s.cfg s.dp.npass.toNat s.lastdev (seedBits s) ps t
  result : t.result = s.result
  drv : t.drv = .rel
  legal : legalDeviation s.cfg.variant s.lastdev = true → legalDeviation s.cfg.variant t.lastdev = true

theorem isIdOf_isIdIn {k : Byte} {a n : Nat} (hn : 0 < n) (h : isIdOf k a) : isIdIn k.toNat n a := by
  obtain ⟨j, hj, e⟩ := h
  exact ⟨k.toNat, j, Nat.le_refl _, by omega, hj, e⟩

theorem isIdIn_isId {c : Config} {k n a : Nat} (hn : k + n ≤ c.cap.toNat) (h : isIdIn k n a) : isId c a := by
  obtain ⟨i, j, h1, h2, hj, e⟩ := h
  have := c.cap.isLt
  refine ⟨BitVec.ofNat 8 i, BitVec.lt_def.2 ?_, j, hj, ?_⟩
  · rw [toNat_ofNat8 (by omega)]; omega
  · unfold idAddr slotBase
    rw [toNat_ofNat8 (by omega)]; exact e

/-- A discovery writes no slot that does not exist. -/
theorem DiscoveryEnd.Holds.slots {c : Config} {n : Nat} {last : Byte} {seed : List Bit} {ps : List (List Position)}
    {t : State} {e : DiscoveryEnd} (h : e.Holds c n last seed ps t) : n + (ps.length + e.slots) ≤ c.cap.toNat := by
  cases e with
  | absent => obtain ⟨a, -⟩ := h; simp only [DiscoveryEnd.slots]; omega
  | collision xs => obtain ⟨a, -⟩ := h; simp only [DiscoveryEnd.slots]; omega
  | noMore => obtain ⟨a, -⟩ := h; simp only [DiscoveryEnd.slots]; omega
  | capacity => obtain ⟨a, -⟩ := h; simp only [DiscoveryEnd.slots]; omega

/-- `COUNT <= CAP` after a discovery (R24). -/
theorem DiscoveryEnd.Holds.countLe {c : Config} {n : Nat} {last : Byte} {seed : List Bit} {ps : List (List Position)}
    {t : State} {e : DiscoveryEnd} (h : e.Holds c n last seed ps t) : t.count ≤ c.cap := by
  apply BitVec.le_def.2
  cases e with
  | absent => obtain ⟨-, a, -⟩ := h; rw [a]; exact Nat.zero_le _
  | collision xs => obtain ⟨a, b, -⟩ := h; omega
  | noMore => obtain ⟨a, b, -⟩ := h; omega
  | capacity => obtain ⟨-, b, -⟩ := h; rw [b]

theorem passBits_getD {p : List Position} {q : Nat} (h : q < p.length) : (passBits p).getD q 0#1 = (p[q]).ch := by
  unfold passBits
  rw [List.getD_eq_getElem?_getD, List.getElem?_map, List.getElem?_eq_getElem h]
  rfl

/-- The end of a discovery seen from one pass earlier. -/
theorem DiscoveryEnd.Holds.cons {c : Config} {n : Nat} {last : Byte} {seed : List Bit} {p : List Position}
    {ps : List (List Position)} {t : State} {e : DiscoveryEnd} (h0 : devAfter c last 0 0#8 p ≠ 0#8)
    (h : e.Holds c (n + 1) (devAfter c last 0 0#8 p) (passBits p) ps t) : e.Holds c n last seed (p :: ps) t := by
  have hl : (p :: ps).length = ps.length + 1 := rfl
  have hidx : n + (ps.length + 1) = n + 1 + ps.length := by omega
  have hlast : (ps ≠ [] → lastAfter c (devAfter c last 0 0#8 p) ps ≠ 0#8) →
      (p :: ps ≠ [] → lastAfter c last (p :: ps) ≠ 0#8) := by
    intro h _
    cases ps with
    | nil => exact h0
    | cons x xs => exact h (by simp)
  cases e with
  | absent =>
    obtain ⟨a, b, d, f⟩ := h
    exact ⟨by omega, b, d, hlast f⟩
  | collision xs =>
    obtain ⟨a, b, d, f, g, i, j⟩ := h
    refine ⟨by omega, by omega, d, hlast f, g, i, ?_⟩
    rw [hl, hidx]; exact j
  | noMore =>
    obtain ⟨a, b, d, f, g⟩ := h
    exact ⟨by omega, by omega, by simp, f, g⟩
  | capacity =>
    obtain ⟨a, b, d, f, g⟩ := h
    exact ⟨by omega, b, by simp, f, g⟩

/-- One complete pass in front of the rest of a discovery. -/
theorem DiscoverRun.cons {s d u t : State} {v : Byte} {xs : List Position} {ps : List (List Position)} {e : DiscoveryEnd}
    (R : RoundRun s v d xs) (hs : v ≠ sentinel) (h0 : v ≠ 0#8) (hcap : s.dp.npass.toNat + 1 < s.cfg.cap.toNat)
    (hu : u = onDp (fun r => { r with npass := r.npass + 1#8 }) d) (D : DiscoverRun u t ps e) :
    DiscoverRun s t (xs :: ps) e := by
  obtain ⟨rf, rb, re, rl, rr, rn, rd, rg⟩ := R
  obtain ⟨hlen, ro, hv, -⟩ : xs.length = 64 ∧ OpRun (isIdOf s.dp.npass) s d (passEvents s.cfg xs) ∧
      v = devAfter s.cfg s.lastdev 0 0#8 xs ∧ v ≠ sentinel := by
    rcases re with h | h
    · exact h
    · exact absurd h.2.2 hs
  have hN : (s.dp.npass + 1#8).toNat = s.dp.npass.toNat + 1 := by
    rw [BitVec.toNat_add]
    have := s.cfg.cap.isLt
    simp; omega
  have ucfg : u.cfg = s.cfg := by rw [hu]; exact ro.cfg
  have unp : u.dp.npass = s.dp.npass + 1#8 := by rw [hu, onDp_dp]; simp only [rn]
  have ulast : u.lastdev = v := by rw [hu]; exact rl
  have ures : u.result = s.result := by rw [hu]; exact rr
  have ro' : OpRun (isIdOf s.dp.npass) s u (passEvents s.cfg xs) := by
    rw [hu]
    have := ro.trans (OpRun.onDp _ d (fun r => { r with npass := r.npass + 1#8 }) rfl)
    rwa [List.append_nil] at this
  have hseed : seedBits u = passBits xs := by
    have hne : ¬ s.dp.npass + 1#8 = 0#8 := fun h => by
      have := congrArg BitVec.toNat h
      rw [hN] at this; simp at this
    refine List.ext_getElem (by simp [seedBits, passBits, hlen]) fun q hq hq' => ?_
    have hq64 : q < 64 := by simpa [seedBits] using hq
    simp only [seedBits, passBits, List.getElem_map, List.getElem_range, unp, if_neg hne, BitVec.add_sub_cancel]
    have : idBit s.dp.npass q u = idBit s.dp.npass q d := by
      rw [hu]; exact idBit_congr rfl rfl _ _
    rw [this, rb q hq64, dif_pos (by omega)]
  obtain ⟨dp, dop, di, de, dr, dd, dg⟩ := D
  rw [ucfg, ulast, hseed] at dp de
  rw [unp, hN, ucfg] at dop
  rw [unp, hN] at di de
  rw [ucfg, ulast] at dg
  rw [hv] at dp de h0
  have hidx : (xs :: ps).length + e.slots = (ps.length + e.slots) + 1 := by rw [List.length_cons]; omega
  refine ⟨⟨hlen, fun i hi => rf i hi, fun _ => h0, dp⟩, ?_, ?_, de.cons h0, dr.trans ures, dd, fun _ => dg rg⟩
  · rw [List.flatMap_cons, List.append_assoc, hidx]
    refine OpRun.trans (ro'.mono fun a h => isIdOf_isIdIn (by omega) h) (dop.mono ?_)
    rintro a ⟨i, j, h1, h2, h3, h4⟩
    exact ⟨i, j, by omega, by omega, h3, h4⟩
  · intro m hm q hq
    cases m with
    | zero =>
      rw [List.getElem_cons_zero, passBits_getD (by omega), Nat.add_zero]
      have e1 : BitVec.ofNat 8 s.dp.npass.toNat = s.dp.npass := by simp
      rw [e1]
      have e2 : idBit s.dp.npass q t = idBit s.dp.npass q u := by
        unfold idBit idByte
        rw [dop.other]
        rintro ⟨i, j, h1, h2, h3, h4⟩
        unfold idAddr slotBase at h4
        omega
      have e3 : idBit s.dp.npass q u = idBit s.dp.npass q d := by
        rw [hu]; exact idBit_congr rfl rfl _ _
      rw [e2, e3, rb q hq, dif_pos (by omega)]
    | succ m =>
      rw [List.getElem_cons_succ]
      have := di m (by simpa using hm) q hq
      rwa [show s.dp.npass.toNat + 1 + m = s.dp.npass.toNat + (m + 1) by omega] at this

theorem discoverLoop_run (fuel : Nat) (s : State) (hf : s.dp.npass.toNat + (fuel + 1) = s.cfg.cap.toNat)
    (w : Memory.wf s.mem = true) : ∃ ps e, DiscoverRun s (discoverLoop (fuel + 1) s.lastdev s) ps e := by
  induction fuel using Nat.strongRecOn generalizing s with
  | _ fuel ih =>
  rw [discoverLoop_succ]
  have hk : s.dp.npass < s.cfg.cap := BitVec.lt_def.2 (by omega)
  obtain ⟨-, hdp, -⟩ := seeded_run s hk w
  have hnp : (seeded s).dp.npass = s.dp.npass := by rw [hdp]
  by_cases hp : (checkPresence s).1 = 0#1
  · rw [if_pos hp]
    have r := checkPresence_run s
    rw [hp] at r
    refine ⟨[], .absent, trivial, ?_, fun m h => absurd h (by simp), ⟨by have := BitVec.lt_def.1 hk; simpa using this, rfl, r.same.lastdev, fun h => absurd rfl h⟩,
      r.same.result, checkPresence_drv s, fun h => ?_⟩
    · have := (r.op (isIdIn s.dp.npass.toNat 0)).trans
        (OpRun.setRegs _ (checkPresence s).2 (checkPresence s).2.result 0#8 (checkPresence s).2.lastdev)
      exact this
    · show legalDeviation _ (checkPresence s).2.lastdev = _
      rw [r.same.lastdev]; exact h
  · rw [if_neg hp]
    obtain ⟨xs, R⟩ := round_run s hk w hp
    simp only [hnp]
    generalize searchPass s.dp.npass s.lastdev (seeded s) = d at *
    have hn1 : (d.2.dp.npass + 1#8).toNat = s.dp.npass.toNat + 1 := by
      rw [BitVec.toNat_add, R.npass]
      have := s.cfg.cap.isLt
      simp; omega
    by_cases hs : d.1 = sentinel
    · rw [if_pos hs]
      obtain ⟨hl, o, -⟩ : xs.length < 64 ∧ OpRun (isIdOf s.dp.npass) s d.2 ((DiscoveryEnd.collision xs).events s.cfg) ∧
          d.1 = sentinel := by
        rcases R.ends with h | h
        · exact absurd hs h.2.2.2
        · exact h
      refine ⟨[], .collision xs, trivial, ?_, fun m h => absurd h (by simp), ⟨by have := BitVec.lt_def.1 hk; simpa using this, ?_, ?_,
        fun h => absurd rfl h, hl,
        fun i hi => R.follows i hi, fun q hq => ?_⟩, R.result, R.drv, fun _ => ?_⟩
      · have := (o.mono fun a h => isIdOf_isIdIn (n := 1) (by omega) h).trans
          (OpRun.setRegs _ d.2 d.2.result d.2.dp.npass d.2.lastdev)
        rwa [List.append_nil] at this
      · show d.2.dp.npass.toNat = _
        rw [R.npass]; rfl
      · show d.2.lastdev = _
        rw [R.lastdev, hs]
      · have e1 : BitVec.ofNat 8 (s.dp.npass.toNat + ([] : List (List Position)).length) = s.dp.npass := by simp
        rw [e1]
        exact R.bits q hq
      · show legalDeviation _ d.2.lastdev = _
        rw [R.lastdev]; exact R.legal
    · rw [if_neg hs]
      obtain ⟨hlen, o, hv, -⟩ : xs.length = 64 ∧ OpRun (isIdOf s.dp.npass) s d.2 (passEvents s.cfg xs) ∧
          d.1 = devAfter s.cfg s.lastdev 0 0#8 xs ∧ d.1 ≠ sentinel := by
        rcases R.ends with h | h
        · exact h
        · exact absurd h.2.2 hs
      have fin : ∀ e : DiscoveryEnd, e.slots = 0 → e.events s.cfg = [] →
          e.Holds s.cfg s.dp.npass.toNat s.lastdev (seedBits s) [xs]
            (takeCount (onDp (fun r => { r with npass := r.npass + 1#8 }) d.2)) →
          DiscoverRun s (takeCount (onDp (fun r => { r with npass := r.npass + 1#8 }) d.2)) [xs] e := by
        intro e he hev hh
        refine ⟨⟨hlen, fun i hi => R.follows i hi, fun h => absurd rfl h, trivial⟩, ?_, ?_, hh, R.result, R.drv, fun _ => ?_⟩
        · rw [he, hev, List.flatMap_cons, List.flatMap_nil]
          have := ((o.mono fun a h => isIdOf_isIdIn (n := 1) (by omega) h).trans
            (OpRun.onDp _ d.2 (fun r => { r with npass := r.npass + 1#8 }) rfl)).trans
            (OpRun.setRegs _ _ d.2.result (d.2.dp.npass + 1#8) d.2.lastdev)
          rw [List.append_nil, List.append_nil] at this
          rw [List.append_nil, List.append_nil]
          exact this
        · intro m hm q hq
          obtain rfl : m = 0 := by simpa using hm
          rw [List.getElem_cons_zero, passBits_getD (by omega), Nat.add_zero]
          have e1 : BitVec.ofNat 8 s.dp.npass.toNat = s.dp.npass := by simp
          rw [e1]
          have e2 : idBit s.dp.npass q (takeCount (onDp (fun r => { r with npass := r.npass + 1#8 }) d.2)) =
              idBit s.dp.npass q d.2 := idBit_congr rfl rfl _ _
          rw [e2, R.bits q hq, dif_pos (by omega)]
        · show legalDeviation _ d.2.lastdev = _
          rw [R.lastdev]; exact R.legal
      by_cases h0 : d.1 = 0#8
      · rw [if_pos h0]
        refine ⟨[xs], .noMore, fin .noMore rfl rfl ⟨?_, hn1, by simp, ?_, ?_⟩⟩
        · show s.dp.npass.toNat + 1 ≤ _
          omega
        · show d.2.lastdev = _
          rw [R.lastdev, h0]
        · show devAfter _ _ _ _ _ = _
          rw [← hv, h0]
      · rw [if_neg h0]
        by_cases hcap : d.2.dp.npass + 1#8 = s.cfg.cap
        · rw [if_pos (by simp only [onDp_dp, onDp_cfg, o.cfg]; exact hcap)]
          refine ⟨[xs], .capacity, fin .capacity rfl rfl ⟨?_, hcap, by simp, ?_, ?_, ?_⟩⟩
          · show s.dp.npass.toNat + 1 = _
            rw [← hn1, hcap]
          · show d.2.lastdev = devAfter _ _ _ _ _
            rw [R.lastdev, hv]
          · show d.2.lastdev ≠ _
            rw [R.lastdev]; exact h0
          · show d.2.lastdev ≠ _
            rw [R.lastdev]; exact hs
        · rw [if_neg (by simp only [onDp_dp, onDp_cfg, o.cfg]; exact hcap)]
          have hne : s.dp.npass.toNat + 1 ≠ s.cfg.cap.toNat := fun e => hcap (BitVec.eq_of_toNat_eq (hn1.trans e))
          obtain ⟨f, rfl⟩ : ∃ f, fuel = f + 1 := ⟨fuel - 1, by omega⟩
          obtain ⟨ps, e, D⟩ := ih f (by omega) (onDp (fun r => { r with npass := r.npass + 1#8 }) d.2)
            (by simp only [onDp_dp, onDp_cfg, o.cfg, hn1]; omega) (o.wf w)
          rw [onDp_lastdev, R.lastdev] at D
          exact ⟨xs :: ps, e, D.cons R hs h0 (by omega) rfl⟩

/-- The state in which a discovery's loop begins (R190). -/
def discoverStart (s : State) : State := onDp (fun d => { d with npass := 0#8 }) (setLastdev 0#8 (clearRegistry s))

/-- What `Discover` does before its loop: the identities zeroed, COUNT, LASTDEV and NPASS 0. -/
theorem discoverStart_run (s : State) (w : Memory.wf s.mem = true) :
    OpRun (isIdIn 0 s.cfg.cap.toNat) s (discoverStart s) [] ∧ (discoverStart s).lastdev = 0#8 ∧
    (discoverStart s).dp.npass = 0#8 ∧ (discoverStart s).result = s.result ∧
    ∀ k : Byte, k < s.cfg.cap → ∀ j, j < 8 → idByte k j (discoverStart s) = 0#8 := by
  have hc := s.cfg.cap.isLt
  have m : MemRun s (clearSlots s.cfg.cap.toNat s) (isIdIn 0 s.cfg.cap.toNat) :=
    (clearSlots_run _ (by omega) s).mono fun a ⟨k, hk, j, hj, e⟩ => ⟨k.toNat, j, by omega, by omega, hj, e⟩
  have o := (m.op.trans (OpRun.setRegs _ (clearSlots s.cfg.cap.toNat s) (clearSlots s.cfg.cap.toNat s).result 0#8 0#8)).trans
    (OpRun.onDp (isIdIn 0 s.cfg.cap.toNat) _ (fun d => { d with npass := 0#8 }) rfl)
  refine ⟨o, rfl, rfl, ?_, fun k hk j hj => ?_⟩
  · show (clearSlots s.cfg.cap.toNat s).result = _
    rw [m.eq]
  · have : idByte k j (discoverStart s) = idByte k j (clearSlots s.cfg.cap.toNat s) := memRead_congr rfl rfl _
    rw [this]
    exact clearSlots_read _ (by omega) s w (Nat.le_refl _) k (BitVec.lt_def.1 hk) j hj

/-- Everything a discovery does after its start (R190 to R196). -/
theorem discover_run (s : State) (hc : 0 < s.cfg.cap.toNat) (w : Memory.wf s.mem = true) :
    ∃ ps e, DiscoverRun (discoverStart s) (discover s) ps e := by
  obtain ⟨o, hl, hn, -, -⟩ := discoverStart_run s w
  obtain ⟨f, hf⟩ : ∃ f, s.cfg.cap.toNat = f + 1 := ⟨s.cfg.cap.toNat - 1, by omega⟩
  have := discoverLoop_run f (discoverStart s) (by rw [o.cfg, hf, hn]; show 0 + _ = _; omega) (o.wf w)
  rw [hl] at this
  unfold discover
  rw [hf]
  exact this

end Sys2Proof.Machine
end

