-- ==== Sys2Proof/Laws/Encoding.lean ====
section
/-! SUPPORT. The command word taken apart and put together (30_encoding.md rules R100, R105). -/

namespace Sys2Proof

theorem opField_packWord (op a b : Byte) : opField (packWord op a b) = op := by
  unfold opField packWord
  ext i hi
  simp only [BitVec.getElem_extractLsb', BitVec.getLsbD_append]
  simp [hi]

theorem aField_packWord (op a b : Byte) : aField (packWord op a b) = a := by
  unfold aField packWord
  ext i hi
  simp only [BitVec.getElem_extractLsb', BitVec.getLsbD_append]
  simp [hi]

theorem bField_packWord (op a b : Byte) : bField (packWord op a b) = b := by
  unfold bField packWord
  ext i hi
  simp only [BitVec.getElem_extractLsb', BitVec.getLsbD_append]
  have h1 : ¬ 16 + i < 8 := by omega
  have h2 : ¬ 16 + i - 8 < 8 := by omega
  have h3 : 16 + i - 8 - 8 < 8 := by omega
  have h4 : 16 + i - 8 - 8 = i := by omega
  simp [h1, h2, hi, h4]

theorem zField_packWord (op a b : Byte) : zField (packWord op a b) = 0#8 := by
  unfold zField packWord
  ext i hi
  simp only [BitVec.getElem_extractLsb', BitVec.getLsbD_append]
  have h1 : ¬ 24 + i < 8 := by omega
  have h2 : ¬ 24 + i - 8 < 8 := by omega
  have h3 : ¬ 24 + i - 8 - 8 < 8 := by omega
  simp [h1, h2, h3]

/-- The decoder on a word of fields: `Z` is 0 in it (R100). -/
theorem decode_packWord (op a b : Byte) : decode (packWord op a b) = decodeOp op a b := by
  unfold decode
  rw [zField_packWord, if_pos rfl, opField_packWord, aField_packWord, bField_packWord]

/-- Where each bit of a word of fields comes from (R100). -/
theorem getLsbD_packWord (op a b : Byte) (i : Nat) :
    (packWord op a b).getLsbD i =
      if i < 8 then op.getLsbD i else if i < 16 then a.getLsbD (i - 8) else if i < 24 then b.getLsbD (i - 16) else false := by
  unfold packWord
  simp only [BitVec.getLsbD_append]
  by_cases h1 : i < 8
  · simp [h1]
  · by_cases h2 : i < 16
    · have : i - 8 < 8 := by omega
      simp [h1, h2, this]
    · by_cases h3 : i < 24
      · have h4 : ¬ i - 8 < 8 := by omega
        have h5 : i - 16 < 8 := by omega
        have h6 : i - 8 - 8 = i - 16 := by omega
        simp [h1, h2, h3, h4, h5, h6]
      · have h4 : ¬ i - 8 < 8 := by omega
        have h5 : ¬ i - 8 - 8 < 8 := by omega
        simp [h1, h2, h3, h4, h5]

/-- A word whose `Z` is 0 is made of its other three fields (R100). -/
theorem word_of_fields (w : Word) (h : zField w = 0#8) : packWord (opField w) (aField w) (bField w) = w := by
  apply BitVec.eq_of_getLsbD_eq
  intro i hi
  rw [getLsbD_packWord]
  unfold opField aField bField
  simp only [BitVec.getLsbD_extractLsb']
  by_cases h1 : i < 8
  · simp [h1]
  · by_cases h2 : i < 16
    · have h3 : i - 8 < 8 := by omega
      have h4 : 8 + (i - 8) = i := by omega
      simp [h1, h2, h3, h4]
    · by_cases h3 : i < 24
      · have h4 : i - 16 < 8 := by omega
        have h5 : 16 + (i - 16) = i := by omega
        simp [h1, h2, h3, h4, h5]
      · have hz := congrArg (fun x => BitVec.getLsbD x (i - 24)) h
        simp only [zField, BitVec.getLsbD_extractLsb', BitVec.getLsbD_zero] at hz
        have h4 : i - 24 < 8 := by omega
        have h5 : 24 + (i - 24) = i := by omega
        rw [h5] at hz
        simp only [h4, decide_true, Bool.true_and] at hz
        simp [h1, h2, h3, hz]

/-- The mask of R105, bit by bit. -/
theorem getLsbD_mask (i : Nat) (h : i < 32) : (0xFF0000FF#32).getLsbD i = (decide (i < 8) || decide (24 ≤ i)) := by
  revert h; revert i; decide

/-- What the mask of R105 leaves of a word: its code when `Z` is 0, else not a code. -/
theorem mask_eq_iff (w : Word) (op : Byte) : w &&& 0xFF0000FF#32 = op.zeroExtend 32 ↔ zField w = 0#8 ∧ opField w = op := by
  constructor
  · intro h
    have hb : ∀ i, i < 32 → (w.getLsbD i && (decide (i < 8) || decide (24 ≤ i))) = (decide (i < 32) && op.getLsbD i) := by
      intro i hi
      have := congrArg (fun x => BitVec.getLsbD x i) h
      simp only [BitVec.getLsbD_and, getLsbD_mask i hi, BitVec.zeroExtend, BitVec.getLsbD_setWidth] at this
      exact this
    constructor
    · apply BitVec.eq_of_getLsbD_eq
      intro i hi
      have := hb (24 + i) (by omega)
      have h1 : op.getLsbD (24 + i) = false := BitVec.getLsbD_of_ge _ _ (by omega)
      unfold zField
      simp only [BitVec.getLsbD_extractLsb', hi, decide_true, Bool.true_and, BitVec.getLsbD_zero]
      simpa [h1] using this
    · apply BitVec.eq_of_getLsbD_eq
      intro i hi
      have := hb i (by omega)
      have h2 : i < 32 := by omega
      unfold opField
      simp only [BitVec.getLsbD_extractLsb', hi, decide_true, Bool.true_and, Nat.zero_add]
      simpa [hi, h2] using this
  · rintro ⟨hz, ho⟩
    apply BitVec.eq_of_getLsbD_eq
    intro i hi
    simp only [BitVec.getLsbD_and, getLsbD_mask i hi, BitVec.zeroExtend, BitVec.getLsbD_setWidth, hi, decide_true, Bool.true_and]
    by_cases h1 : i < 8
    · rw [← ho]
      unfold opField
      simp [h1]
    · have h3 : op.getLsbD i = false := BitVec.getLsbD_of_ge _ _ (by omega)
      rw [h3]
      by_cases h2 : 24 ≤ i
      · have hz' := congrArg (fun x => BitVec.getLsbD x (i - 24)) hz
        simp only [zField, BitVec.getLsbD_extractLsb', BitVec.getLsbD_zero] at hz'
        have h4 : i - 24 < 8 := by omega
        have h5 : 24 + (i - 24) = i := by omega
        rw [h5] at hz'
        simp only [h4, decide_true, Bool.true_and] at hz'
        simp [hz']
      · simp [h1, h2]

end Sys2Proof
end

