-- ==== Sys2Proof/Laws/Exec.lean ====
section
/-! SUPPORT. What a command can do: rejected, or accepted and run to completion (`exec_accepted`, `exec_next`); the footprint of
each operation (`bodyOf_run`, `exec_run`). -/

namespace Sys2Proof.Machine

/-- What an accepted command does between its acceptance and its completion. -/
def bodyOf : Instr → State → State
  | .checkPresence => checkPresenceBody
  | .writeBit v => writeBit v
  | .readBit => readBitBody
  | .sendByte b => sendByte b
  | .readByte => readByteBody
  | .clear => clearRegistry
  | .select k => selectDevice k
  | .count => countBody
  | .searchPass k last => searchPassBody k last
  | .discover => discoverBody
  | .readAll => readAll
  | .startConversion => startConversion
  | .getTemperature k => getTemperatureBody k
  | .process => processBody
  | .crc8Update c b => setResult (zextByte (crc8Update c b))

/-- The registry addresses a command may write (R36). -/
def footprint (c : Config) (count : Byte) : Instr → Nat → Prop
  | .clear => isId c
  | .discover => isId c
  | .searchPass k _ => isIdOf k
  | .readAll => isCacheIn 0 count.toNat
  | .process => isCacheIn 0 count.toNat
  | .checkPresence => fun _ => False
  | .writeBit _ => fun _ => False
  | .readBit => fun _ => False
  | .sendByte _ => fun _ => False
  | .readByte => fun _ => False
  | .select _ => fun _ => False
  | .count => fun _ => False
  | .startConversion => fun _ => False
  | .getTemperature _ => fun _ => False
  | .crc8Update _ _ => fun _ => False

/-- What a command that ends normally found: the machine idle, and its operands within the machine. -/
def Accepted (i : Instr) (s : State) : Prop :=
  s.seq = .idle ∧
  match i with
  | .select k => k < s.cfg.cap
  | .searchPass k _ => k < s.cfg.cap
  | .discover => 0 < s.cfg.cap.toNat
  | .readAll => s.count ≤ s.cfg.cap
  | .process => s.count ≤ s.cfg.cap
  | .getTemperature k => k < s.count → k < s.cfg.cap
  | .checkPresence => True
  | .writeBit _ => True
  | .readBit => True
  | .sendByte _ => True
  | .readByte => True
  | .clear => True
  | .count => True
  | .startConversion => True
  | .crc8Update _ _ => True

theorem not_busy {s : State} (h : s.seq = .idle) : isBusy s = false := by
  unfold isBusy; rw [h]

theorem busy_of {s : State} (h : s.seq ≠ .idle) : isBusy s = true := by
  unfold isBusy
  cases hs : s.seq with
  | idle => exact absurd hs h
  | busy op => rfl

/-- An accepted command runs to completion (R21, R40). -/
theorem exec_accepted {i : Instr} {s : State} (h : Accepted i s) : exec i s = .next (complete (bodyOf i (accept i s))) := by
  obtain ⟨hs, h⟩ := h
  have hb := not_busy hs
  cases i <;>
    simp only [exec, execCheckPresence, execWriteBit, execReadBit, execSendByte, execReadByte, execClear, execSelect,
      execCount, execSearchPass, execDiscover, execReadAll, execStartConversion, execGetTemperature, execProcess,
      execCrc8Update, issue, issueWithin, issueSlot, hb, bodyOf] <;> simp_all

/-- All a command can do: it is rejected, or accepted and run to completion, or it faults. -/
theorem exec_next {i : Instr} {s t : State} (h : exec i s = .next t) :
    (t = reject s ∧ ¬ Accepted i s) ∨ (Accepted i s ∧ t = complete (bodyOf i (accept i s))) := by
  by_cases hs : s.seq = .idle
  · by_cases a : Accepted i s
    · rw [exec_accepted a] at h
      exact .inr ⟨a, (Host.Outcome.next.inj h).symm⟩
    · refine .inl ⟨?_, a⟩
      have hb := not_busy hs
      cases i <;> simp only [exec, execSelect, execSearchPass, execDiscover, execReadAll, execGetTemperature, execProcess,
        issueWithin, issueSlot, hb, Accepted, hs, true_and, decide_eq_true_eq] at h a <;>
        simp_all
  · refine .inl ⟨?_, fun a => hs a.1⟩
    have hb := busy_of hs
    cases i <;>
      simp only [exec, execCheckPresence, execWriteBit, execReadBit, execSendByte, execReadByte, execClear, execSelect,
        execCount, execSearchPass, execDiscover, execReadAll, execStartConversion, execGetTemperature, execProcess,
        execCrc8Update, issue, issueWithin, issueSlot, hb, reduceIte] at h <;> exact (Host.Outcome.next.inj h).symm

/-- What a command that ran to completion did outside its own results (R24, R25, R36, R45). -/
structure CommandRun (i : Instr) (s t : State) : Prop where
  op : ∃ new, OpRun (footprint s.cfg s.count i) s t new
  countLe : s.count ≤ s.cfg.cap → t.count ≤ s.cfg.cap
  count : t.count = s.count ∨ i = .clear ∨ i = .discover
  lastdevOk : legalDeviation s.cfg.variant s.lastdev = true → legalDeviation s.cfg.variant t.lastdev = true
  lastdev : t.lastdev = s.lastdev ∨ i = .discover ∨ ∃ k last, i = .searchPass k last

theorem CommandRun.ofOp {i : Instr} {s t : State} {new : List BusEvent}
    (o : OpRun (footprint s.cfg s.count i) s t new) (hc : t.count = s.count) (hl : t.lastdev = s.lastdev) :
    CommandRun i s t :=
  ⟨⟨_, o⟩, fun h => by rw [hc]; exact h, .inl hc, fun h => by rw [hl]; exact h, .inl hl⟩

/-- RESULT is no part of what `CommandRun` compares. -/
theorem CommandRun.setResult {i : Instr} {s t : State} (r : CommandRun i s t) (v : Word) :
    CommandRun i s (setResult v t) := by
  obtain ⟨⟨new, o⟩, a, b, c, d⟩ := r
  exact ⟨⟨_, o.trans (OpRun.setRegs _ t v t.count t.lastdev)⟩, a, b, c, d⟩

theorem LineRun.command {i : Instr} {s t : State} {new : List BusEvent} (r : LineRun s t new) : CommandRun i s t :=
  .ofOp (r.op _) r.same.count r.same.lastdev

theorem readAll_command {i : Instr} (s : State) (hi : footprint s.cfg s.count i = isCacheIn 0 s.count.toNat)
    (hc : s.count ≤ s.cfg.cap) (hsp : 2 ≤ s.cfg.spLen.toNat) (w : Memory.wf s.mem = true) :
    CommandRun i s (readAll s) := by
  obtain ⟨answers, -, -, o, -, -, h1, h2, -, -⟩ := readAll_run s hc hsp w
  exact .ofOp (by rw [hi]; exact o) h1 h2

theorem CommandRun.line {i : Instr} {s t u : State} {new : List BusEvent} (r : CommandRun i s t)
    (o : OpRun (footprint s.cfg s.count i) t u new) (hc : u.count = t.count) (hl : u.lastdev = t.lastdev) :
    CommandRun i s u := by
  obtain ⟨⟨n, o'⟩, a, b, c, d⟩ := r
  exact ⟨⟨_, o'.trans o⟩, by rw [hc]; exact a, by rw [hc]; exact b, by rw [hl]; exact c, by rw [hl]; exact d⟩

/-- What each command's operation does (R24, R25, R36). -/
theorem bodyOf_run (i : Instr) (s : State) (a : Accepted i { s with seq := .idle }) (hsp : 2 ≤ s.cfg.spLen.toNat)
    (w : Memory.wf s.mem = true) : CommandRun i s (bodyOf i s) := by
  cases i with
  | checkPresence => exact ((checkPresence_run s).command (i := .checkPresence)).setResult _
  | writeBit v => exact (writeBit_run v s).command
  | readBit => exact ((readBit_run s).command (i := .readBit)).setResult _
  | sendByte b => exact (sendByte_run b s).command
  | readByte => exact ((readByte_run s).command (i := .readByte)).setResult _
  | clear =>
    have m : MemRun s (clearSlots s.cfg.cap.toNat s) (isId s.cfg) :=
      (clearSlots_run _ (by have := s.cfg.cap.isLt; omega) s).mono fun a ⟨k, hk, h⟩ => ⟨k, BitVec.lt_def.2 hk, h⟩
    refine ⟨⟨_, m.op.trans (OpRun.setRegs _ (clearSlots s.cfg.cap.toNat s) _ 0#8 _)⟩, fun _ => ?_, .inr (.inl rfl), ?_, .inl ?_⟩
    · exact BitVec.le_def.2 (Nat.zero_le _)
    · show _ → legalDeviation _ (clearSlots s.cfg.cap.toNat s).lastdev = true
      rw [m.lastdev]; exact id
    · exact m.lastdev
  | select k => exact (selectDevice_run k s).command
  | count => exact (CommandRun.ofOp (i := .count) (OpRun.refl _ s) rfl rfl).setResult _
  | searchPass k last =>
    have hk : k < s.cfg.cap := a.2
    obtain ⟨new, o⟩ := searchPass_op k last s hk w
    obtain ⟨xs, -, -, -, hl, -, hc, -, -⟩ := searchPass_run k last s hk w
    refine CommandRun.setResult (i := .searchPass k last) (t := (searchPass k last s).2) ⟨⟨_, o⟩, ?_, .inl hc, ?_,
      .inr (.inr ⟨k, last, rfl⟩)⟩ _
    · rw [hc]; exact id
    · rw [hl]; exact fun _ => searchPass_legal k last s hk w
  | discover =>
    have hc : 0 < s.cfg.cap.toNat := a.2
    obtain ⟨o0, h1, h2, -, -⟩ := discoverStart_run s w
    obtain ⟨ps, e, D⟩ := discover_run s hc w
    have hs := D.ends.slots
    rw [o0.cfg] at hs
    refine CommandRun.setResult (i := .discover) (t := discover s)
      ⟨⟨_, (o0.mono fun a h => isIdIn_isId (by omega) h).trans (D.op.mono fun a h => isIdIn_isId hs h)⟩,
        fun _ => ?_, .inr (.inr rfl), fun _ => ?_, .inr (.inl rfl)⟩ _
    · have := D.ends.countLe
      rwa [o0.cfg] at this
    · have := D.legal (by rw [h1]; exact legalDeviation_zero _)
      rwa [o0.cfg] at this
  | readAll => exact readAll_command s rfl a.2 hsp w
  | startConversion =>
    obtain ⟨o, -, hc, hl, -, -⟩ := startConversion_run (fun _ => False) s
    exact .ofOp o hc hl
  | getTemperature k =>
    show CommandRun _ s (getTemperatureBody k s)
    unfold getTemperatureBody
    split
    · exact (CommandRun.ofOp (i := .getTemperature k) (OpRun.refl _ s) rfl rfl).setResult _
    · refine CommandRun.setResult (i := .getTemperature k) (s := s)
        (t := { s with bus := { s.bus with draws := s.bus.draws + 1 } }) (CommandRun.ofOp (new := []) ?_ rfl rfl) _
      exact ⟨rfl, rfl, rfl, rfl, rfl, rfl, id, id, fun _ _ => rfl, by simp, by simp, by simp, .inl rfl, id, .draw (.nil _ _)⟩
  | process =>
    have r := readAll_command (i := .process) s rfl a.2 hsp w
    rw [show bodyOf .process s = processBody s from rfl, processBody_eq]
    refine CommandRun.setResult ?_ _
    have r2 := r.line ((checkPresence_run (readAll s)).op _) (checkPresence_same _).count (checkPresence_same _).lastdev
    split
    · obtain ⟨o, -, hc, hl, -, -⟩ :=
        startConversion_run (footprint s.cfg s.count .process) (checkPresence (readAll s)).2
      exact r2.line o hc hl
    · exact r2
  | crc8Update c b => exact (CommandRun.ofOp (i := .crc8Update c b) (OpRun.refl _ s) rfl rfl).setResult _

/-- What a command that was not rejected does. -/
theorem exec_run {i : Instr} {s : State} (a : Accepted i s) (hsp : 2 ≤ s.cfg.spLen.toNat) (w : Memory.wf s.mem = true) :
    ∃ t, exec i s = .next t ∧ CommandRun i s t := by
  refine ⟨_, exec_accepted a, ?_⟩
  have hs := a.1
  have ha : Accepted i { accept i s with seq := .idle } := ⟨rfl, by obtain ⟨-, h⟩ := a; cases i <;> exact h⟩
  obtain ⟨⟨new, o⟩, b, c, d, e⟩ := bodyOf_run i (accept i s) ha hsp w
  refine ⟨⟨new, ?_⟩, b, c, d, e⟩
  exact ⟨o.cfg, o.inReset, o.ill, hs.symm, o.host, o.readLog, o.wf, o.inside, o.other, o.events, o.clock, o.wave, o.drv,
    o.tick, o.line⟩

end Sys2Proof.Machine
end

