-- ==== Sys2Proof/Laws/Regs.lean ====
section
/-! SUPPORT. Which datapath registers each operation may change: every other one is as it was. -/

namespace Sys2Proof.Machine

theorem PassRegs.trans {a b c : Datapath} (h : PassRegs a b) (g : PassRegs b c) : PassRegs a c := by
  unfold PassRegs at *; rw [g, h]

theorem DiscoverRegs.trans {a b c : Datapath} (h : DiscoverRegs a b) (g : DiscoverRegs b c) : DiscoverRegs a c := by
  unfold DiscoverRegs at *; rw [g, h]

theorem ReadRegs.trans {a b c : Datapath} (h : ReadRegs a b) (g : ReadRegs b c) : ReadRegs a c := by
  unfold ReadRegs at *; rw [g, h]

theorem PassRegs.discover {a b : Datapath} (h : PassRegs a b) : DiscoverRegs a b := by
  unfold PassRegs at h; unfold DiscoverRegs; rw [h]

theorem sendByte_regs (b : Byte) (s : State) : ByteRegs s.dp (sendByte b s).dp := sendByte_shift b s

theorem readByte_regs (s : State) : ByteRegs s.dp (readByte s).2.dp := readByte_shift s

theorem ByteRegs.pass {a b : Datapath} (h : ByteRegs a b) : PassRegs a b := by
  unfold ByteRegs at h; unfold PassRegs; rw [h]

theorem ByteRegs.read {a b : Datapath} (h : ByteRegs a b) : ReadRegs a b := by
  unfold ByteRegs at h; unfold ReadRegs; rw [h]

theorem SelectRegs.read {a b : Datapath} (h : SelectRegs a b) : ReadRegs a b := by
  unfold SelectRegs at h; unfold ReadRegs; rw [h]

theorem ByteRegs.trans {a b c : Datapath} (h : ByteRegs a b) (g : ByteRegs b c) : ByteRegs a c := by
  unfold ByteRegs at *; rw [g, h]

theorem searchFrom_regs (n : Nat) (s : State) : PassRegs s.dp (searchFrom n s).2.dp := by
  induction n generalizing s with
  | zero => rfl
  | succ n ih =>
    have h1 : PassRegs s.dp (readPair s).dp := by unfold PassRegs; rw [(readPair_run s).2]
    rw [searchFrom]
    split
    · exact h1
    · refine (h1.trans ?_).trans (ih _)
      unfold takeBranch PassRegs
      simp only [onDp_dp, writeBit_dp, setIdBit, memWrite_dp]

theorem searchPass_regs (k last : Byte) (s : State) : PassRegs s.dp (searchPass k last s).2.dp := by
  unfold searchPass
  refine PassRegs.trans ?_ (searchFrom_regs 64 _)
  rw [onDp_dp]
  unfold PassRegs
  rw [sendByte_shift, onDp_dp]

theorem discoverLoop_regs (fuel : Nat) (last : Byte) (s : State) : DiscoverRegs s.dp (discoverLoop fuel last s).dp := by
  induction fuel generalizing last s with
  | zero => rfl
  | succ fuel ih =>
    have h0 : DiscoverRegs s.dp (checkPresence s).2.dp := by unfold DiscoverRegs; rw [checkPresence_dp]
    have h1 : DiscoverRegs s.dp (seeded s).dp := by
      unfold seeded
      rw [(seedSlot_run _).dp]; exact h0
    rw [discoverLoop_succ]
    split
    · exact h0
    · have h2 := h1.trans (searchPass_regs (seeded s).dp.npass last (seeded s)).discover
      generalize searchPass (seeded s).dp.npass last (seeded s) = d at h2
      simp only
      split
      · exact h2
      · have h3 : DiscoverRegs s.dp (onDp (fun r => { r with npass := r.npass + 1#8 }) d.2).dp := by
          unfold DiscoverRegs at *; rw [onDp_dp, h2]
        split
        · exact h3
        · split
          · exact h3
          · exact h3.trans (ih _ _)

theorem discover_regs (s : State) : DiscoverRegs s.dp (discover s).dp := by
  refine DiscoverRegs.trans ?_ (discoverLoop_regs _ _ _)
  unfold DiscoverRegs
  rw [onDp_dp, setLastdev_dp, clearRegistry_eq]

theorem readScratch_regs (n : Nat) (s : State) : ReadRegs s.dp (readScratch n s).dp := by
  induction n generalizing s with
  | zero => rfl
  | succ n ih =>
    rw [readScratch_succ]
    refine ReadRegs.trans ?_ (ih _)
    have h := (readByte_regs s).read
    unfold scratchByte stage
    generalize readByte s = v at h
    unfold ReadRegs at *
    split
    · simp only [onDp_dp]; rw [h]
    · split
      · simp only [onDp_dp]; rw [h]
      · simp only [onDp_dp]; rw [h]

theorem commitCache_dp (s : State) : (commitCache s).dp = s.dp := by
  unfold commitCache; split <;> simp

theorem readDevice_regs (s : State) : ReadRegs s.dp (readDevice s).dp := by
  have h0 : ReadRegs s.dp (checkPresence s).2.dp := by unfold ReadRegs; rw [checkPresence_dp]
  unfold readDevice
  simp only
  split
  · refine h0.trans ?_
    unfold readBlock
    rw [commitCache_dp]
    refine ReadRegs.trans ?_ (readScratch_regs _ _)
    have h1 : SelectRegs (checkPresence s).2.dp (selectDevice (checkPresence s).2.dp.devidx (checkPresence s).2).dp :=
      selectDevice_dp _ _
    refine h1.read.trans ?_
    refine (sendByte_regs (checkPresence s).2.cfg.cmdReadMem _).read.trans ?_
    rfl
  · exact h0

theorem readDevices_regs (n : Nat) (s : State) : ReadRegs s.dp (readDevices n s).dp := by
  induction n generalizing s with
  | zero => rfl
  | succ n ih =>
    rw [readDevices]
    refine ReadRegs.trans ?_ (ih _)
    refine (readDevice_regs s).trans ?_
    rfl

theorem readAll_regs (s : State) : ReadRegs s.dp (readAll s).dp := by
  unfold readAll
  refine ReadRegs.trans ?_ (readDevices_regs _ _)
  rfl

theorem startConversion_regs (s : State) : ByteRegs s.dp (startConversion s).dp := by
  have h0 : ByteRegs s.dp (checkPresence s).2.dp := by unfold ByteRegs; rw [checkPresence_dp]
  unfold startConversion
  simp only
  split
  · have h1 := h0.trans ((sendByte_regs s.cfg.cmdSkip (checkPresence s).2).trans (sendByte_regs s.cfg.cmdConvert _))
    unfold strongPullUp
    split
    · exact h1
    · exact h1
  · exact h0

theorem processBody_regs (s : State) : ReadRegs s.dp (processBody s).dp := by
  rw [processBody_eq, setResult_dp]
  have h1 : ReadRegs s.dp (checkPresence (readAll s)).2.dp := (readAll_regs s).trans (by unfold ReadRegs; rw [checkPresence_dp])
  split
  · exact h1.trans (startConversion_regs _).read
  · exact h1

end Sys2Proof.Machine
end

