-- ==== Sys2Proof/Laws/Live.lean ====
section
/-! SUPPORT. What each operation makes of two states that differ in the datapath only (rule R45): two such states again. -/

namespace Sys2Proof.Machine

theorem sendByte_byteidx (b : Byte) (s : State) : (sendByte b s).dp.byteidx = s.dp.byteidx := by rw [sendByte_shift]
theorem sendByte_lastin (b : Byte) (s : State) : (sendByte b s).dp.lastin = s.dp.lastin := by rw [sendByte_shift]
theorem sendByte_newdev (b : Byte) (s : State) : (sendByte b s).dp.newdev = s.dp.newdev := by rw [sendByte_shift]
theorem sendByte_wslot (b : Byte) (s : State) : (sendByte b s).dp.wslot = s.dp.wslot := by rw [sendByte_shift]
theorem sendByte_npass (b : Byte) (s : State) : (sendByte b s).dp.npass = s.dp.npass := by rw [sendByte_shift]
theorem sendByte_devidx (b : Byte) (s : State) : (sendByte b s).dp.devidx = s.dp.devidx := by rw [sendByte_shift]

/-- Two states that agree but for the datapath are one state with two datapaths. -/
theorem SameLive.eq {s t : State} (h : SameLive s t) : t = { s with dp := t.dp } := by
  obtain ⟨h1, h2, h3, h4, h5, h6, h7, h8, h9, h10, h11, h12⟩ := h
  cases s; cases t; simp_all

theorem SameLive.setDp (s : State) (d : Datapath) : SameLive s { s with dp := d } :=
  ⟨rfl, rfl, rfl, rfl, rfl, rfl, rfl, rfl, rfl, rfl, rfl, rfl⟩

theorem SameLive.onDp {s t : State} (h : SameLive s t) (f g : Datapath → Datapath) : SameLive (onDp f s) (onDp g t) :=
  ⟨h.1, h.2, h.3, h.4, h.5, h.6, h.7, h.8, h.9, h.10, h.11, h.12⟩

theorem SameLive.memRead {s t : State} (h : SameLive s t) (a : Nat) : memRead a t = memRead a s :=
  memRead_congr h.cfg h.mem a

theorem SameLive.checkPresence {s t : State} (h : SameLive s t) :
    (checkPresence t).1 = (checkPresence s).1 ∧ SameLive (checkPresence s).2 (checkPresence t).2 := by
  rw [h.eq, checkPresence_eq, checkPresence_eq]
  exact ⟨rfl, ⟨rfl, rfl, rfl, rfl, rfl, rfl, rfl, rfl, rfl, rfl, rfl, rfl⟩⟩

theorem SameLive.writeBit {s t : State} (h : SameLive s t) (v : Bit) : SameLive (writeBit v s) (writeBit v t) := by
  rw [h.eq, writeBit_eq, writeBit_eq]
  exact ⟨rfl, rfl, rfl, rfl, rfl, rfl, rfl, rfl, rfl, rfl, rfl, rfl⟩

theorem SameLive.readBit {s t : State} (h : SameLive s t) :
    (readBit t).1 = (readBit s).1 ∧ SameLive (readBit s).2 (readBit t).2 := by
  rw [h.eq, readBit_eq, readBit_eq]
  exact ⟨rfl, ⟨rfl, rfl, rfl, rfl, rfl, rfl, rfl, rfl, rfl, rfl, rfl, rfl⟩⟩

theorem SameLive.memWrite {s t : State} (h : SameLive s t) (a : Nat) (v : Byte) :
    SameLive (memWrite a v s) (memWrite a v t) := by
  have hm := memWrite_congr h.cfg h.mem a v
  refine ⟨?_, ?_, ?_, ?_, ?_, hm, ?_, ?_, ?_, ?_, ?_, ?_⟩ <;> simp [h.1, h.2, h.3, h.4, h.5, h.7, h.8, h.9, h.10, h.11, h.12]

theorem SameLive.setRegs {s t : State} (h : SameLive s t) (r : Word) (c l : Byte) :
    SameLive { s with result := r, count := c, lastdev := l } { t with result := r, count := c, lastdev := l } :=
  ⟨h.1, h.2, rfl, rfl, rfl, h.6, h.7, h.8, h.9, h.10, h.11, h.12⟩

/-- SendByte's loop depends on no datapath register but SR. -/
theorem SameLive.sendBits {s t : State} (h : SameLive s t) (hs : t.dp.sr = s.dp.sr) (n : Nat) :
    SameLive (sendBits n s) (sendBits n t) := by
  induction n generalizing s t with
  | zero => exact h
  | succ n ih =>
    rw [Machine.sendBits, Machine.sendBits, hs]
    exact ih ((h.writeBit _).onDp _ _) (by simp only [onDp_dp, writeBit_dp, hs])

theorem SameLive.sendByte {s t : State} (h : SameLive s t) (b : Byte) : SameLive (sendByte b s) (sendByte b t) :=
  (h.onDp _ _).sendBits rfl 8

theorem SameLive.readBits {s t : State} (h : SameLive s t) (hs : t.dp.sr = s.dp.sr) (n : Nat) :
    SameLive (readBits n s) (readBits n t) ∧ (readBits n t).dp.sr = (readBits n s).dp.sr := by
  induction n generalizing s t with
  | zero => exact ⟨h, hs⟩
  | succ n ih =>
    obtain ⟨e, g⟩ := h.readBit
    rw [Machine.readBits, Machine.readBits]
    simp only [e]
    exact ih (g.onDp _ _) (by simp only [onDp_dp, readBit_dp, hs])

theorem SameLive.readByte {s t : State} (h : SameLive s t) :
    (readByte t).1 = (readByte s).1 ∧ SameLive (readByte s).2 (readByte t).2 := by
  obtain ⟨a, b⟩ := (h.onDp (fun d => { d with sr := 0#8, bitcnt := 0#4 })
    (fun d => { d with sr := 0#8, bitcnt := 0#4 })).readBits rfl 8
  exact ⟨b, a⟩

theorem SameLive.sendId {s t : State} (h : SameLive s t) (hb : t.dp.byteidx = s.dp.byteidx) (k : Byte) (n : Nat) :
    SameLive (sendId k n s) (sendId k n t) := by
  induction n generalizing s t with
  | zero => exact h
  | succ n ih =>
    have e : idByte k t.dp.byteidx.toNat t = idByte k s.dp.byteidx.toNat s := by rw [hb]; exact h.memRead _
    rw [Machine.sendId, Machine.sendId, e]
    refine ih ((h.sendByte _).onDp _ _) ?_
    simp only [onDp_dp, sendByte_byteidx, hb]

theorem SameLive.selectDevice {s t : State} (h : SameLive s t) (k : Byte) :
    SameLive (selectDevice k s) (selectDevice k t) := by
  unfold Machine.selectDevice
  rw [h.cfg]
  exact ((h.sendByte _).onDp _ _).sendId (by simp only [onDp_dp]) k 8

/-- The registers a search pass hands from one position to the next. -/
structure SamePass (s t : State) : Prop where
  live : SameLive s t
  pos : t.dp.pos = s.dp.pos
  lastin : t.dp.lastin = s.dp.lastin
  newdev : t.dp.newdev = s.dp.newdev
  wslot : t.dp.wslot = s.dp.wslot

theorem SamePass.readPair {s t : State} (h : SamePass s t) :
    SamePass (readPair s) (readPair t) ∧ (readPair t).dp.ba = (readPair s).dp.ba ∧
      (readPair t).dp.bb = (readPair s).dp.bb := by
  obtain ⟨e1, g1⟩ := h.live.readBit
  obtain ⟨e2, g2⟩ := (g1.onDp (fun d => { d with ba := (Machine.readBit s).1 })
    (fun d => { d with ba := (Machine.readBit s).1 })).readBit
  unfold Machine.readPair
  simp only [e1, e2]
  refine ⟨⟨g2.onDp _ _, ?_, ?_, ?_, ?_⟩, ?_, ?_⟩ <;>
    simp only [onDp_dp, readBit_dp, h.pos, h.lastin, h.newdev, h.wslot]

theorem SamePass.takeBranch {s t : State} (h : SamePass s t) (ha : t.dp.ba = s.dp.ba) (hb : t.dp.bb = s.dp.bb) :
    SamePass (takeBranch s) (takeBranch t) := by
  obtain ⟨l, h1, h2, h3, h4⟩ := h
  have e : idBit t.dp.wslot t.dp.pos.toNat t = idBit s.dp.wslot s.dp.pos.toNat s := by
    rw [h1, h4]; exact idBit_congr l.cfg l.mem _ _
  unfold Machine.takeBranch
  rw [e, h1, h2, h3, ha, hb, l.cfg]
  generalize searchChoice s.cfg.variant (posNumber s.cfg s.dp.pos.toNat) s.dp.lastin
    (idBit s.dp.wslot s.dp.pos.toNat s) s.dp.ba s.dp.bb s.dp.newdev = c
  simp only [onDp_dp, h1, h4]
  have g := l.onDp (fun d => { d with ch := c.1, newdev := c.2 }) (fun d => { d with ch := c.1, newdev := c.2 })
  have ei : idByte s.dp.wslot (s.dp.pos.toNat / 8) (onDp (fun d => { d with ch := c.1, newdev := c.2 }) t) =
      idByte s.dp.wslot (s.dp.pos.toNat / 8) (onDp (fun d => { d with ch := c.1, newdev := c.2 }) s) := g.memRead _
  unfold setIdBit
  rw [ei]
  refine ⟨(((g.memWrite _ _).writeBit _).onDp _ _), ?_, ?_, ?_, ?_⟩ <;>
    simp only [onDp_dp, writeBit_dp, memWrite_dp, h1, h2, h4]

theorem SamePass.searchFrom {s t : State} (h : SamePass s t) (n : Nat) :
    (searchFrom n t).1 = (searchFrom n s).1 ∧ SameLive (searchFrom n s).2 (searchFrom n t).2 := by
  induction n generalizing s t with
  | zero =>
    refine ⟨h.newdev, ?_⟩
    have l := h.live
    exact ⟨l.1, l.2, l.3, l.4, h.newdev, l.6, l.7, l.8, l.9, l.10, l.11, l.12⟩
  | succ n ih =>
    obtain ⟨g, ea, eb⟩ := h.readPair
    rw [Machine.searchFrom, Machine.searchFrom]
    simp only [ea, eb]
    split
    · have l := g.live
      exact ⟨rfl, ⟨l.1, l.2, l.3, l.4, rfl, l.6, l.7, l.8, l.9, l.10, l.11, l.12⟩⟩
    · exact ih (g.takeBranch ea eb)

/-- A search pass depends on no datapath register. -/
theorem SameLive.searchPass {s t : State} (h : SameLive s t) (k last : Byte) :
    (searchPass k last t).1 = (searchPass k last s).1 ∧ SameLive (searchPass k last s).2 (searchPass k last t).2 := by
  unfold Machine.searchPass
  rw [h.cfg]
  have g := h.onDp (fun d => { d with wslot := k, lastin := last, newdev := 0#8 })
    (fun d => { d with wslot := k, lastin := last, newdev := 0#8 })
  refine SamePass.searchFrom ⟨(g.sendByte _).onDp _ _, ?_, ?_, ?_, ?_⟩ 64 <;>
    simp only [onDp_dp, sendByte_lastin, sendByte_newdev, sendByte_wslot]

theorem SameLive.copyId {s t : State} (h : SameLive s t) (src dst : Byte) (n : Nat) :
    SameLive (copyId src dst n s) (copyId src dst n t) := by
  induction n with
  | zero => exact h
  | succ n ih =>
    have e : idByte src n (Machine.copyId src dst n t) = idByte src n (Machine.copyId src dst n s) := ih.memRead _
    rw [Machine.copyId, Machine.copyId, e]
    exact ih.memWrite _ _

theorem SameLive.seedSlot {s t : State} (h : SameLive s t) (hn : t.dp.npass = s.dp.npass) :
    SameLive (seedSlot s) (seedSlot t) := by
  unfold Machine.seedSlot
  rw [hn]
  split
  · exact h
  · exact h.copyId _ _ 8

theorem SameLive.takeCount {s t : State} (h : SameLive s t) (hn : t.dp.npass = s.dp.npass) :
    SameLive (takeCount s) (takeCount t) := by
  unfold Machine.takeCount
  rw [hn]
  exact ⟨h.1, h.2, h.3, rfl, h.5, h.6, h.7, h.8, h.9, h.10, h.11, h.12⟩

/-- A discovery's loop depends on no datapath register but NPASS. -/
theorem SameLive.discoverLoop {s t : State} (h : SameLive s t) (hn : t.dp.npass = s.dp.npass) (fuel : Nat) (last : Byte) :
    SameLive (discoverLoop fuel last s) (discoverLoop fuel last t) := by
  induction fuel generalizing last s t with
  | zero => exact h.takeCount hn
  | succ fuel ih =>
    obtain ⟨e, g⟩ := h.checkPresence
    have gn : (Machine.checkPresence t).2.dp.npass = (Machine.checkPresence s).2.dp.npass := by
      rw [checkPresence_dp, checkPresence_dp, hn]
    have sn : ∀ u, (seeded u).dp.npass = u.dp.npass := fun u => by
      unfold seeded
      rw [(seedSlot_run _).dp, checkPresence_dp]
    have g2 : SameLive (seeded s) (seeded t) := g.seedSlot gn
    rw [discoverLoop_succ, discoverLoop_succ, e, sn, sn, hn]
    split
    · exact ⟨g.1, g.2, g.3, rfl, g.5, g.6, g.7, g.8, g.9, g.10, g.11, g.12⟩
    · obtain ⟨e1, l⟩ := g2.searchPass s.dp.npass last
      have n1 : (Machine.searchPass s.dp.npass last (seeded t)).2.dp.npass =
          (Machine.searchPass s.dp.npass last (seeded s)).2.dp.npass := by
        rw [searchPass_regs s.dp.npass last (seeded t), searchPass_regs s.dp.npass last (seeded s)]
        simp only [sn, hn]
      generalize Machine.searchPass s.dp.npass last (seeded t) = dt at *
      generalize Machine.searchPass s.dp.npass last (seeded s) = ds at *
      simp only [onDp_dp, onDp_cfg, e1, n1, l.cfg]
      split
      · exact l.takeCount n1
      · have l2 := l.onDp (fun r => { r with npass := r.npass + 1#8 }) (fun r => { r with npass := r.npass + 1#8 })
        have n2 : (Machine.onDp (fun r => { r with npass := r.npass + 1#8 }) dt.2).dp.npass =
            (Machine.onDp (fun r => { r with npass := r.npass + 1#8 }) ds.2).dp.npass := by
          simp only [onDp_dp, n1]
        split
        · exact l2.takeCount n2
        · by_cases hc : ds.2.dp.npass + 1#8 = ds.2.cfg.cap
          · simp only [hc, reduceIte]
            exact l2.takeCount n2
          · simp only [hc, reduceIte]
            exact ih l2 n2 _

theorem SameLive.clearSlots {s t : State} (h : SameLive s t) (n : Nat) : SameLive (clearSlots n s) (clearSlots n t) := by
  have hk : ∀ (k : Byte) (m : Nat) (s t : State), SameLive s t → SameLive (clearId k m s) (clearId k m t) := by
    intro k m
    induction m with
    | zero => exact fun _ _ h => h
    | succ m ih => exact fun s t h => (ih s t h).memWrite _ _
  induction n with
  | zero => exact h
  | succ n ih => exact hk _ 8 _ _ ih

theorem SameLive.clearRegistry {s t : State} (h : SameLive s t) : SameLive (clearRegistry s) (clearRegistry t) := by
  unfold Machine.clearRegistry
  rw [h.cfg]
  have g := h.clearSlots s.cfg.cap.toNat
  exact ⟨g.1, g.2, g.3, rfl, g.5, g.6, g.7, g.8, g.9, g.10, g.11, g.12⟩

/-- A discovery depends on no datapath register. -/
theorem SameLive.discover {s t : State} (h : SameLive s t) : SameLive (discover s) (discover t) := by
  unfold Machine.discover
  rw [h.cfg]
  have g := h.clearRegistry
  have g2 : SameLive (setLastdev 0#8 (Machine.clearRegistry s)) (setLastdev 0#8 (Machine.clearRegistry t)) :=
    ⟨g.1, g.2, g.3, g.4, rfl, g.6, g.7, g.8, g.9, g.10, g.11, g.12⟩
  exact (g2.onDp _ _).discoverLoop rfl _ _

/-- The registers the scratchpad loop of READ_ALL hands from one byte to the next. -/
structure SameScratch (s t : State) : Prop where
  live : SameLive s t
  crc : t.dp.crc = s.dp.crc
  byteidx : t.dp.byteidx = s.dp.byteidx
  devidx : t.dp.devidx = s.dp.devidx
  stg0 : s.dp.byteidx ≠ 0#8 → t.dp.stg0 = s.dp.stg0
  stg1 : 2 ≤ s.dp.byteidx.toNat → t.dp.stg1 = s.dp.stg1

theorem SameLive.stage {s t : State} (h : SameLive s t) (hb : t.dp.byteidx = s.dp.byteidx) (b : Byte) :
    SameLive (stage b s) (stage b t) := by
  unfold Machine.stage
  rw [hb]
  split
  · exact h.onDp _ _
  · split
    · exact h.onDp _ _
    · exact h

theorem SameScratch.step {s t : State} (h : SameScratch s t) (hi : s.dp.byteidx.toNat < 255) :
    SameScratch (scratchByte s) (scratchByte t) := by
  obtain ⟨e, l⟩ := h.live.readByte
  obtain ⟨-, c1, a1, b1, i1, d1⟩ := scratchByte_run s
  obtain ⟨-, c2, a2, b2, i2, d2⟩ := scratchByte_run t
  rw [e] at c2 a2 b2
  rw [h.byteidx] at a2 b2 i2
  have hN : (s.dp.byteidx + 1#8).toNat = s.dp.byteidx.toNat + 1 := by
    rw [BitVec.toNat_add]; simp; omega
  refine ⟨?_, by rw [c1, c2, h.crc], by rw [i1, i2], by rw [d1, d2, h.devidx], fun _ => ?_, fun h2 => ?_⟩
  · unfold scratchByte
    rw [e]
    exact (l.stage (by rw [readByte_byteidx, readByte_byteidx, h.byteidx]) _).onDp _ _
  · rw [a1, a2]
    split
    · rfl
    · rename_i h0
      exact h.stg0 h0
  · rw [b1, b2]
    rw [i1, hN] at h2
    split
    · rfl
    · rename_i h0
      refine h.stg1 ?_
      have : s.dp.byteidx.toNat ≠ 1 := fun x => h0 (BitVec.eq_of_toNat_eq x)
      omega

theorem SameScratch.loop {s t : State} (h : SameScratch s t) (n : Nat) (hi : s.dp.byteidx.toNat + n ≤ 255) :
    SameScratch (readScratch n s) (readScratch n t) ∧
      (readScratch n s).dp.byteidx.toNat = s.dp.byteidx.toNat + n := by
  induction n generalizing s t with
  | zero => exact ⟨h, rfl⟩
  | succ n ih =>
    have hN : (scratchByte s).dp.byteidx.toNat = s.dp.byteidx.toNat + 1 := by
      rw [(scratchByte_run s).2.2.2.2.1, BitVec.toNat_add]; simp; omega
    rw [readScratch_succ, readScratch_succ]
    obtain ⟨a, b⟩ := ih (h.step (by omega)) (by omega)
    exact ⟨a, by omega⟩

/-- The verdict on a block depends on no datapath register but those the loop handed on. -/
theorem SameScratch.commit {s t : State} (h : SameScratch s t) (h0 : 2 ≤ s.dp.byteidx.toNat) :
    SameLive (commitCache s) (commitCache t) := by
  have hs0 := h.stg0 (fun e => by rw [e] at h0; simp at h0)
  have hs1 := h.stg1 h0
  unfold commitCache
  rw [h.crc, h.devidx, hs0, hs1]
  split
  · exact (h.live.memWrite _ _).memWrite _ _
  · exact h.live

theorem SameLive.startScratch {s t : State} (h : SameLive s t) (hd : t.dp.devidx = s.dp.devidx) :
    SameScratch (Machine.onDp (fun d => { d with crc := 0#8, byteidx := 0#8 }) s)
      (Machine.onDp (fun d => { d with crc := 0#8, byteidx := 0#8 }) t) := by
  refine ⟨h.onDp _ _, ?_, ?_, ?_, ?_, ?_⟩ <;> simp only [onDp_dp, hd]
  · exact fun h => absurd rfl h
  · exact fun h => absurd h (by decide)

theorem SameLive.readBlock {s t : State} (h : SameLive s t) (hd : t.dp.devidx = s.dp.devidx)
    (hsp : 2 ≤ s.cfg.spLen.toNat) :
    SameLive (readBlock s) (readBlock t) ∧ (readBlock t).dp.devidx = (readBlock s).dp.devidx := by
  have g := (h.selectDevice s.dp.devidx).sendByte s.cfg.cmdReadMem
  have d : ∀ x : State, (Machine.sendByte s.cfg.cmdReadMem (Machine.selectDevice s.dp.devidx x)).dp.devidx = x.dp.devidx :=
    fun x => by rw [sendByte_devidx, selectDevice_dp]
  have ds := d s
  have dt := d t
  unfold Machine.readBlock
  rw [h.cfg, hd]
  generalize Machine.sendByte s.cfg.cmdReadMem (Machine.selectDevice s.dp.devidx s) = a at *
  generalize Machine.sendByte s.cfg.cmdReadMem (Machine.selectDevice s.dp.devidx t) = b at *
  have k := g.startScratch (by rw [dt, ds, hd])
  have k0 : (Machine.onDp (fun d => { d with crc := 0#8, byteidx := 0#8 }) a).dp.byteidx.toNat = 0 := by
    rw [onDp_dp]; rfl
  generalize Machine.onDp (fun d => { d with crc := 0#8, byteidx := 0#8 }) a = x at k k0 ⊢
  generalize Machine.onDp (fun d => { d with crc := 0#8, byteidx := 0#8 }) b = y at k ⊢
  have hsp' := s.cfg.spLen.isLt
  obtain ⟨l, ln⟩ := k.loop s.cfg.spLen.toNat (by omega)
  refine ⟨l.commit (by omega), ?_⟩
  rw [commitCache_dp, commitCache_dp, l.devidx]

/-- One device of READ_ALL depends on no datapath register but DEVIDX. -/
theorem SameLive.readDevice {s t : State} (h : SameLive s t) (hd : t.dp.devidx = s.dp.devidx)
    (hsp : 2 ≤ s.cfg.spLen.toNat) :
    SameLive (readDevice s) (readDevice t) ∧ (readDevice t).dp.devidx = (readDevice s).dp.devidx := by
  obtain ⟨e, g⟩ := h.checkPresence
  have gd : (Machine.checkPresence t).2.dp.devidx = (Machine.checkPresence s).2.dp.devidx := by
    rw [checkPresence_dp, checkPresence_dp, hd]
  have gc := (checkPresence_same s).cfg
  unfold Machine.readDevice
  simp only [e]
  generalize (Machine.checkPresence s).2 = u at g gd gc
  generalize (Machine.checkPresence t).2 = v at g gd
  split
  · exact g.readBlock gd (by rw [gc]; exact hsp)
  · exact ⟨g, gd⟩

theorem readScratch_cfg (n : Nat) (s : State) : (readScratch n s).cfg = s.cfg := by
  induction n generalizing s with
  | zero => rfl
  | succ n ih => rw [readScratch_succ, ih, (scratchByte_run s).1.same.cfg]

theorem commitCache_cfg (s : State) : (commitCache s).cfg = s.cfg := by
  unfold commitCache; split <;> simp

theorem readDevice_cfg (s : State) : (readDevice s).cfg = s.cfg := by
  unfold readDevice
  simp only
  split
  · unfold readBlock
    rw [commitCache_cfg, readScratch_cfg, onDp_cfg, (sendByte_run _ _).same.cfg, (selectDevice_run _ _).same.cfg,
      (checkPresence_same s).cfg]
  · exact (checkPresence_same s).cfg

theorem SameLive.readDevices {s t : State} (h : SameLive s t) (hd : t.dp.devidx = s.dp.devidx)
    (hsp : 2 ≤ s.cfg.spLen.toNat) (n : Nat) : SameLive (readDevices n s) (readDevices n t) := by
  induction n generalizing s t with
  | zero => exact h
  | succ n ih =>
    obtain ⟨a, b⟩ := h.readDevice hd hsp
    have hc : (Machine.readDevice s).cfg = s.cfg := readDevice_cfg s
    rw [Machine.readDevices, Machine.readDevices]
    exact ih (a.onDp _ _) (by simp only [onDp_dp, b]) (by rw [onDp_cfg, hc]; exact hsp)

/-- READ_ALL depends on no datapath register. -/
theorem SameLive.readAll {s t : State} (h : SameLive s t) (hsp : 2 ≤ s.cfg.spLen.toNat) :
    SameLive (readAll s) (readAll t) := by
  unfold Machine.readAll
  rw [h.count]
  exact (h.onDp _ _).readDevices (by simp only [onDp_dp]) hsp _

theorem SameLive.strongPullUp {s t : State} (h : SameLive s t) : SameLive (strongPullUp s) (strongPullUp t) := by
  unfold Machine.strongPullUp
  rw [h.cfg]
  split
  · exact ⟨h.1, h.2, h.3, h.4, h.5, h.6, h.7, rfl, by simp only [emit_bus, drive_bus, h.bus], h.10, h.11, h.12⟩
  · exact h

/-- START_CONVERSION depends on no datapath register. -/
theorem SameLive.startConversion {s t : State} (h : SameLive s t) : SameLive (startConversion s) (startConversion t) := by
  obtain ⟨e, g⟩ := h.checkPresence
  unfold Machine.startConversion
  simp only [e, h.cfg]
  split
  · exact ((g.sendByte s.cfg.cmdSkip).sendByte s.cfg.cmdConvert).strongPullUp
  · exact g

end Sys2Proof.Machine
end

