-- ==== Sys2Proof/Laws/PerInstr.lean ====
section
/-! SUPPORT. Statements about every instruction, one lemma per constructor. -/

namespace Sys2Proof.Laws.EncodedFields

/-- The four fields of a command's word (rules R100, R103): its code, its operands, `Z` 0. -/
def Statement (i : Instr) : Prop :=
  opField (encode i) = i.opcode ∧ aField (encode i) = i.operandA ∧ bField (encode i) = i.operandB ∧
    zField (encode i) = 0#8

theorem of_packWord (i : Instr) : Statement i :=
  ⟨opField_packWord _ _ _, aField_packWord _ _ _, bField_packWord _ _ _, zField_packWord _ _ _⟩

theorem checkPresence : Statement .checkPresence := of_packWord _
theorem writeBit (v : Bit) : Statement (.writeBit v) := of_packWord _
theorem readBit : Statement .readBit := of_packWord _
theorem sendByte (b : Byte) : Statement (.sendByte b) := of_packWord _
theorem readByte : Statement .readByte := of_packWord _
theorem clear : Statement .clear := of_packWord _
theorem select (k : Byte) : Statement (.select k) := of_packWord _
theorem count : Statement .count := of_packWord _
theorem searchPass (k last : Byte) : Statement (.searchPass k last) := of_packWord _
theorem discover : Statement .discover := of_packWord _
theorem readAll : Statement .readAll := of_packWord _
theorem startConversion : Statement .startConversion := of_packWord _
theorem getTemperature (i : Byte) : Statement (.getTemperature i) := of_packWord _
theorem process : Statement .process := of_packWord _
theorem crc8Update (c b : Byte) : Statement (.crc8Update c b) := of_packWord _

end Sys2Proof.Laws.EncodedFields
end

