-- ==== Sys2Proof/Laws/Responder.lean ====
section
/-! SUPPORT. What the reference responders (20_memory.md section 6) make of a byte, of a select frame and of a search pass, and
what a selected one answers. -/

namespace Sys2Proof.Machine

/-- Eight bits collected at ROM level select a mode (R91, R92). -/
theorem romCmd_byte (c : Config) (r : Responder) (b : Byte) (h : r.mode = .romCmd 0 0#8) :
    (lsbFirst b).foldl (fun r v => Responder.onWrite c v r) r = { r with mode := romMode c b } := by
  have hb := lsbFirst_foldl (lsbFirst b) (lsbFirst_length b) 0#8
  have he : (lsbFirst b).foldl (fun a b => shiftIn b a) 0#8 = b := lsbFirst_injective hb
  obtain ⟨rid, pad, mode, conv⟩ := r
  subst h
  conv_rhs => rw [← he]
  simp only [lsbFirst, List.range, List.range.loop, List.map_cons, List.map_nil, List.foldl_cons, List.foldl_nil]
  simp [Responder.onWrite]

theorem foldl_envWrite_responders (c : Config) (vs : List Bit) (rs : List Responder) :
    vs.foldl (fun e v => envWrite c v e) (.responders rs) =
      .responders (rs.map fun r => vs.foldl (fun r v => Responder.onWrite c v r) r) := by
  induction vs generalizing rs with
  | nil => simp
  | cons v vs ih =>
    rw [List.foldl_cons]
    refine (ih _).trans ?_
    rw [List.map_map]; rfl

/-- Every responder takes the first byte after a presence check as a ROM-level command (R91, R92). -/
theorem sendByte_romCmd (b : Byte) (s : State) (rs : List Responder) (h : s.bus.env = .responders rs)
    (hm : ∀ r ∈ rs, r.mode = .romCmd 0 0#8) :
    (sendByte b s).bus.env = .responders (rs.map fun r => { r with mode := romMode s.cfg b }) := by
  rw [(sendByte_env b s).1, h, foldl_envWrite_responders]
  congr 1
  exact List.map_congr_left fun r hr => romCmd_byte s.cfg r b (hm r hr)

/-- A lone responder in a search position answers its bit, then the complement (R92). -/
theorem readPair_single (s : State) (r : Responder) (p : Nat) (h : s.bus.env = .responders [r])
    (hm : r.mode = .search p .bit) :
    (readPair s).dp.ba = r.rid.extractLsb' p 1 ∧ (readPair s).dp.bb = ~~~ r.rid.extractLsb' p 1 ∧
      (readPair s).bus.env = .responders [{ r with mode := .search p .choice }] := by
  have e1 : (readBit s).1 = r.rid.extractLsb' p 1 ∧
      (readBit s).2.bus.env = .responders [{ r with mode := .search p .complement }] := by
    rw [readBit_eq]
    simp only [h, envRead, List.any_cons, List.any_nil, Responder.pulls, hm, Responder.onRead, List.map_cons, List.map_nil,
      and_true]
    rcases bit_cases (r.rid.extractLsb' p 1) with e | e <;> rw [e] <;> rfl
  have e2 : ∀ f, (readBit (onDp f (readBit s).2)).1 = ~~~ r.rid.extractLsb' p 1 ∧
      (readBit (onDp f (readBit s).2)).2.bus.env = .responders [{ r with mode := .search p .choice }] := by
    intro f
    rw [readBit_eq]
    simp only [onDp_bus, e1.2, envRead, List.any_cons, List.any_nil, Responder.pulls, Responder.onRead, List.map_cons,
      List.map_nil, and_true]
    rcases bit_cases (r.rid.extractLsb' p 1) with e | e <;> rw [e] <;> rfl
  unfold readPair
  simp only [onDp_dp, readBit_dp, onDp_bus]
  exact ⟨e1.1, (e2 _).1, (e2 _).2⟩

/-- The line after a position: the write slot of the bit chosen (R183). -/
theorem takeBranch_env (s : State) : (takeBranch s).bus.env = envWrite s.cfg (takeBranch s).dp.ch s.bus.env := by
  unfold takeBranch
  simp only [onDp_bus, onDp_dp, writeBit_eq, setIdBit, memWrite_bus, memWrite_cfg, memWrite_dp, onDp_cfg]

/-- A pass over a lone responder, from position POS on: every pair differs, the responder follows, its bits are taken. -/
theorem searchFrom_single (n : Nat) (s : State) (r : Responder) (hp : s.dp.pos.toNat + n = 64)
    (hk : s.dp.wslot < s.cfg.cap) (w : Memory.wf s.mem = true) (h : s.bus.env = .responders [r]) (hn : 0 < n)
    (hm : r.mode = .search s.dp.pos.toNat .bit) :
    (searchFrom n s).1 = s.dp.newdev ∧
      (∀ q, q < 64 → idBit s.dp.wslot q (searchFrom n s).2 =
        if s.dp.pos.toNat ≤ q then r.rid.extractLsb' q 1 else idBit s.dp.wslot q s) ∧
      (searchFrom n s).2.bus.env = .responders [{ r with mode := .funcCmd 0 0#8 }] := by
  induction n generalizing s r with
  | zero => omega
  | succ n ih =>
    obtain ⟨rp, rdp⟩ := readPair_run s
    obtain ⟨ea, eb, ee⟩ := readPair_single s r _ h hm
    have hpos : (readPair s).dp.pos = s.dp.pos := by rw [rdp]
    have hws : (readPair s).dp.wslot = s.dp.wslot := by rw [rdp]
    have hnd : (readPair s).dp.newdev = s.dp.newdev := by rw [rdp]
    have hne : (readPair s).dp.ba ≠ (readPair s).dp.bb := by
      rw [ea, eb]
      rcases bit_cases (r.rid.extractLsb' s.dp.pos.toNat 1) with e | e <;> rw [e] <;> decide
    have ab : ¬ ((readPair s).dp.ba = 1#1 ∧ (readPair s).dp.bb = 1#1) := fun x => hne (x.1.trans x.2.symm)
    have hpos64 : (readPair s).dp.pos.toNat < 64 := by rw [hpos]; omega
    rw [searchFrom]
    simp only [if_neg ab]
    obtain ⟨x, xa, xb, hf, ho, hdp, hmem, -, -, -, -⟩ := takeBranch_run (readPair s) hpos64 ab
    have hch : x.ch = r.rid.extractLsb' s.dp.pos.toNat 1 := by
      rw [hf.noChoice (by rw [xa, xb]; exact hne), xa, ea]
    have hrec : x.records (readPair s).cfg (readPair s).dp.lastin (readPair s).dp.pos.toNat = false := by
      unfold Position.records
      have : ¬ (x.ba = 0#1 ∧ x.bb = 0#1) := fun y => hne (by rw [← xa, ← xb, y.1, y.2])
      by_cases y : x.ba = 0#1
      · have z : ¬ x.bb = 0#1 := fun z => this ⟨y, z⟩
        simp [z]
      · simp [y]
    rw [hrec] at hdp
    have henv := takeBranch_env (readPair s)
    have hchd : (takeBranch (readPair s)).dp.ch = r.rid.extractLsb' s.dp.pos.toNat 1 := by rw [hdp]; exact hch
    rw [hchd, ee] at henv
    have hbit : ∀ q, idBit s.dp.wslot q (takeBranch (readPair s)) =
        if q = s.dp.pos.toNat then r.rid.extractLsb' s.dp.pos.toNat 1 else idBit s.dp.wslot q s := by
      intro q
      rw [hpos, hws] at hmem
      rw [idBit_congr (s := setIdBit s.dp.wslot s.dp.pos.toNat x.ch (readPair s)) (by
            rw [ho.cfg]; unfold setIdBit; rw [memWrite_cfg]) hmem,
          idBit_setIdBit _ _ _ _ _ (by rw [rp.same.mem]; exact w) (by rw [rp.same.cfg]; exact hk) (by omega), hch,
          idBit_congr rp.same.cfg rp.same.mem]
    have hpos1 : (s.dp.pos + 1#7).toNat = s.dp.pos.toNat + 1 ∨ n = 0 := by
      rcases Nat.eq_zero_or_pos n with e | e
      · exact .inr e
      · refine .inl ?_
        rw [BitVec.toNat_add]; simp; omega
    have hmode : envWrite (readPair s).cfg (r.rid.extractLsb' s.dp.pos.toNat 1)
        (.responders [{ r with mode := .search s.dp.pos.toNat .choice }]) =
        .responders [{ r with mode := if s.dp.pos.toNat = 63 then .funcCmd 0 0#8 else .search (s.dp.pos.toNat + 1) .bit }] := by
      simp only [envWrite, List.map_cons, List.map_nil, Responder.onWrite, ne_eq, not_true_eq_false, if_false]
      split <;> rfl
    rw [hmode] at henv
    have hws' : (takeBranch (readPair s)).dp.wslot = s.dp.wslot := by rw [hdp]; exact hws
    have hnd' : (takeBranch (readPair s)).dp.newdev = s.dp.newdev := by rw [hdp]; simpa using hnd
    rcases Nat.eq_zero_or_pos n with e | e
    · subst e
      have h63 : s.dp.pos.toNat = 63 := by omega
      rw [if_pos h63] at henv
      refine ⟨hnd', fun q hq => ?_, henv⟩
      have : idBit s.dp.wslot q (searchFrom 0 (takeBranch (readPair s))).2 = idBit s.dp.wslot q (takeBranch (readPair s)) :=
        idBit_congr rfl rfl _ _
      rw [this, hbit q]
      by_cases hq' : q = s.dp.pos.toNat
      · rw [if_pos hq', if_pos (by omega), hq']
      · rw [if_neg hq', if_neg (by omega)]
    · have hp1 := hpos1.resolve_right (by omega)
      have hpos' : (takeBranch (readPair s)).dp.pos.toNat = s.dp.pos.toNat + 1 := by
        rw [hdp]; simp only [hpos]; exact hp1
      rw [if_neg (by omega)] at henv
      obtain ⟨i1, i2, i3⟩ := ih (takeBranch (readPair s)) { r with mode := .search (s.dp.pos.toNat + 1) .bit } (by omega)
        (by rw [hws', ho.cfg, rp.same.cfg]; exact hk) (ho.wf (by rw [rp.same.mem]; exact w)) henv e (by rw [hpos'])
      refine ⟨i1.trans hnd', fun q hq => ?_, i3⟩
      rw [hws', hpos'] at i2
      rw [i2 q hq, hbit q]
      by_cases h1 : s.dp.pos.toNat + 1 ≤ q
      · rw [if_pos h1, if_pos (by omega)]
      · rw [if_neg h1]
        by_cases hq' : q = s.dp.pos.toNat
        · rw [if_pos hq', if_pos (by omega), hq']
        · rw [if_neg hq', if_neg (by omega)]

/-- Eight bits collected at function level are a function command (R93). -/
theorem funcCmd_byte (c : Config) (r : Responder) (b : Byte) (h : r.mode = .funcCmd 0 0#8) :
    (lsbFirst b).foldl (fun r v => Responder.onWrite c v r) r = r.onFunc c b := by
  have hb := lsbFirst_foldl (lsbFirst b) (lsbFirst_length b) 0#8
  have he : (lsbFirst b).foldl (fun a b => shiftIn b a) 0#8 = b := lsbFirst_injective hb
  obtain ⟨rid, pad, mode, conv⟩ := r
  subst h
  conv_rhs => rw [← he]
  simp only [lsbFirst, List.range, List.range.loop, List.map_cons, List.map_nil, List.foldl_cons, List.foldl_nil]
  simp [Responder.onWrite, Responder.onFunc]

theorem foldl_onWrite_idle (c : Config) (vs : List Bit) (r : Responder) (h : r.mode = .idle) :
    vs.foldl (fun r v => Responder.onWrite c v r) r = r := by
  induction vs with
  | nil => rfl
  | cons v vs ih =>
    rw [List.foldl_cons]
    have : Responder.onWrite c v r = r := by unfold Responder.onWrite; rw [h]
    rw [this]; exact ih

/-- A responder that compares (R92): it ends selected exactly when every bit sent is its own. -/
theorem foldl_onWrite_matching (c : Config) (vs : List Bit) (r : Responder) (p : Nat) (hp : p + vs.length = 64)
    (hn : vs ≠ []) (h : r.mode = .matching p) :
    vs.foldl (fun r v => Responder.onWrite c v r) r =
      { r with mode := if ∀ i (h : i < vs.length), vs[i] = r.rid.extractLsb' (p + i) 1 then .funcCmd 0 0#8 else .idle } := by
  induction vs generalizing r p with
  | nil => exact absurd rfl hn
  | cons v vs ih =>
    rw [List.foldl_cons]
    by_cases hv : v = r.rid.extractLsb' p 1
    · by_cases hz : vs = []
      · subst hz
        have hp63 : p = 63 := by simpa using hp
        have : Responder.onWrite c v r = { r with mode := .funcCmd 0 0#8 } := by
          unfold Responder.onWrite; rw [h]; simp [hv, hp63]
        rw [this, if_pos]; · rfl
        intro i hi
        have : i = 0 := by simpa using hi
        subst this; simpa using hv
      · have hl : 0 < vs.length := List.length_pos_iff.2 hz
        have hp' : p + 1 + vs.length = 64 := by rw [List.length_cons] at hp; omega
        have : Responder.onWrite c v r = { r with mode := .matching (p + 1) } := by
          unfold Responder.onWrite; rw [h]
          simp only
          rw [if_neg (by rw [hv]; simp), if_neg (by omega)]
        rw [this, ih { r with mode := .matching (p + 1) } (p + 1) hp' hz rfl]
        have iff : (∀ i (h : i < vs.length), vs[i] = r.rid.extractLsb' (p + 1 + i) 1) ↔
            ∀ i (h : i < (v :: vs).length), (v :: vs)[i] = r.rid.extractLsb' (p + i) 1 := by
          constructor
          · intro H i hi
            match i with
            | 0 => simpa using hv
            | i + 1 =>
              have := H i (by simpa using hi)
              rw [List.getElem_cons_succ, this]; congr 1; omega
          · intro H i hi
            have := H (i + 1) (by simpa using hi)
            rw [List.getElem_cons_succ] at this
            rw [this]; congr 1; omega
        simp only [iff]
    · have : Responder.onWrite c v r = { r with mode := .idle } := by
        unfold Responder.onWrite; rw [h]
        simp only
        rw [if_pos hv]
      rw [this, foldl_onWrite_idle _ _ _ rfl, if_neg]
      intro H
      exact hv (H 0 (by simp))

/-- The line's other side through the bytes of an identity: their write slots in order. -/
theorem sendId_envWrite (k : Byte) (n : Nat) (s : State) (hb : s.dp.byteidx.toNat + n ≤ 8) :
    (sendId k n s).bus.env =
      (((List.range n).map (fun i => idByte k (s.dp.byteidx.toNat + i) s)).flatMap lsbFirst).foldl
        (fun e v => envWrite s.cfg v e) s.bus.env := by
  induction n generalizing s with
  | zero => rfl
  | succ n ih =>
    have r := sendByte_run (idByte k s.dp.byteidx.toNat s) s
    have sh := sendByte_shift (idByte k s.dp.byteidx.toNat s) s
    have he := (sendByte_env (idByte k s.dp.byteidx.toNat s) s).1
    have hdp : (sendByte (idByte k s.dp.byteidx.toNat s) s).dp.byteidx = s.dp.byteidx := by rw [sh]
    have hidx : (s.dp.byteidx + 1#8).toNat = s.dp.byteidx.toNat + 1 := by
      rw [BitVec.toNat_add]; simp; omega
    have g := ih (onDp (fun d => { d with byteidx := d.byteidx + 1#8 })
      (sendByte (idByte k s.dp.byteidx.toNat s) s)) (by simp only [onDp_dp, hdp, hidx]; omega)
    rw [sendId, g]
    simp only [onDp_dp, hdp, hidx, onDp_cfg, onDp_bus, he, r.same.cfg]
    rw [List.range_succ_eq_map, List.map_cons, List.flatMap_cons, List.foldl_append, List.map_map]
    have e : ∀ i, idByte k i (onDp (fun d => { d with byteidx := d.byteidx + 1#8 })
        (sendByte (idByte k s.dp.byteidx.toNat s) s)) = idByte k i s := fun i =>
      idByte_same (t := onDp (fun d => { d with byteidx := d.byteidx + 1#8 })
        (sendByte (idByte k s.dp.byteidx.toNat s) s)) (r.same.trans (SameOutsideLine.setDp _ _)) k i
    simp only [e]
    congr 3
    funext i
    show idByte k _ s = idByte k _ s
    congr 1; omega

/-- The line's other side through a select frame (R120): its 72 write slots in order. -/
theorem selectDevice_envWrite (k : Byte) (s : State) :
    (selectDevice k s).bus.env =
      ((identity k s).flatMap lsbFirst).foldl (fun e v => envWrite s.cfg v e)
        ((lsbFirst s.cfg.cmdMatch).foldl (fun e v => envWrite s.cfg v e) s.bus.env) := by
  have r := sendByte_run s.cfg.cmdMatch s
  have he := (sendByte_env s.cfg.cmdMatch s).1
  have g := sendId_envWrite k 8 (onDp (fun d => { d with byteidx := 0#8 }) (sendByte s.cfg.cmdMatch s)) (by rw [onDp_dp]; simp)
  unfold selectDevice
  rw [g]
  have e : ∀ i, idByte k i (onDp (fun d => { d with byteidx := 0#8 }) (sendByte s.cfg.cmdMatch s)) = idByte k i s := fun i =>
    idByte_same (t := onDp (fun d => { d with byteidx := 0#8 }) (sendByte s.cfg.cmdMatch s))
      (r.same.trans (SameOutsideLine.setDp _ _)) k i
  simp only [e, onDp_dp, onDp_cfg, onDp_bus, he, r.same.cfg]
  unfold identity
  simp

/-- The 64 bits of an identity in the order they travel (R63, R120). -/
theorem identity_bits (k : Byte) (s : State) :
    ((identity k s).flatMap lsbFirst).length = 64 ∧
    ∀ i (h : i < ((identity k s).flatMap lsbFirst).length), ((identity k s).flatMap lsbFirst)[i] = idBit k i s := by
  have e : (identity k s).flatMap lsbFirst = (List.range 64).map (fun q => idBit k q s) := by
    simp only [identity, lsbFirst, idBit, List.range, List.range.loop, List.map_cons, List.map_nil, List.flatMap_cons,
      List.flatMap_nil, List.cons_append, List.nil_append]
  rw [e]
  exact ⟨by simp, fun i h => by rw [List.getElem_map, List.getElem_range]⟩

/-- After a presence check a select frame leaves every responder idle but those of that identity (R92, R120). -/
theorem selectDevice_responders (k : Byte) (s : State) (rs : List Responder) (hw : s.cfg.cmdMatch ≠ s.cfg.cmdSearch)
    (h : s.bus.env = .responders rs) (hm : ∀ r ∈ rs, r.mode = .romCmd 0 0#8) :
    (selectDevice k s).bus.env = .responders (rs.map fun r =>
      { r with mode := if holdsIdentity k s r then .funcCmd 0 0#8 else .idle }) := by
  rw [selectDevice_envWrite, h, foldl_envWrite_responders, foldl_envWrite_responders, List.map_map]
  congr 1
  refine List.map_congr_left fun r hr => ?_
  obtain ⟨hl, hb⟩ := identity_bits k s
  simp only [Function.comp]
  rw [romCmd_byte s.cfg r s.cfg.cmdMatch (hm r hr)]
  have hmode : romMode s.cfg s.cfg.cmdMatch = .matching 0 := by
    unfold romMode; rw [if_neg hw, if_pos rfl]
  rw [hmode, foldl_onWrite_matching s.cfg _ _ 0 (by rw [hl]) (by intro h0; rw [h0] at hl; simp at hl) rfl]
  congr 1
  have iff : (∀ i (h : i < ((identity k s).flatMap lsbFirst).length),
      ((identity k s).flatMap lsbFirst)[i] = r.rid.extractLsb' (0 + i) 1) ↔ holdsIdentity k s r = true := by
    simp only [holdsIdentity, List.all_eq_true, List.mem_range, decide_eq_true_eq]
    constructor
    · intro H p hp
      have := H p (by rw [hl]; exact hp)
      rw [hb, Nat.zero_add] at this; exact this
    · intro H i hi
      rw [hb, Nat.zero_add]; exact H i (by rw [hl] at hi; exact hi)
  simp only [iff]

/-- A lone transmitting responder through `n` read slots (R93). -/
theorem readBits_tx (n : Nat) (s : State) (r : Responder) (m j : Nat) (hj : j + n ≤ 8) (h : s.bus.env = .responders [r])
    (hmode : r.mode = .tx (8 * m + j)) (hm : m < r.pad.length) :
    (readBits n s).dp.sr = ((List.range n).map (fun i => bitOf r.pad[m] (j + i))).foldl (fun a b => shiftIn b a) s.dp.sr ∧
      (readBits n s).bus.env = .responders [{ r with mode := .tx (8 * m + j + n) }] := by
  induction n generalizing s r j with
  | zero => exact ⟨rfl, by rw [readBits, h]; obtain ⟨a, b, c, d⟩ := r; simp only at hmode; subst hmode; rfl⟩
  | succ n ih =>
    have e1 : (readBit s).1 = bitOf r.pad[m] j ∧
        (readBit s).2.bus.env = .responders [{ r with mode := .tx (8 * m + (j + 1)) }] := by
      rw [readBit_eq]
      have d1 : (8 * m + j) / 8 = m := by omega
      have d2 : (8 * m + j) % 8 = j := by omega
      simp only [h, envRead, List.any_cons, List.any_nil, Responder.pulls, hmode, Responder.onRead,
        List.map_cons, List.map_nil, d1, d2]
      have d3 : r.pad.getD m 0xFF#8 = r.pad[m] := by simp [List.getD, hm]
      rw [d3]
      refine ⟨?_, rfl⟩
      rcases bit_cases (bitOf r.pad[m] j) with e | e <;> rw [e] <;> simp [hm]
    rw [readBits]
    obtain ⟨g1, g2⟩ := ih
      (onDp (fun d => { d with sr := shiftIn (readBit s).1 d.sr, bitcnt := d.bitcnt + 1#4 }) (readBit s).2)
      { r with mode := .tx (8 * m + (j + 1)) } (j + 1) (by omega) e1.2 rfl hm
    refine ⟨?_, ?_⟩
    · rw [g1, List.range_succ_eq_map, List.map_cons, List.foldl_cons, List.map_map]
      have hsr : (onDp (fun d => { d with sr := shiftIn (readBit s).1 d.sr, bitcnt := d.bitcnt + 1#4 }) (readBit s).2).dp.sr =
          shiftIn (bitOf r.pad[m] (j + 0)) s.dp.sr := by
        rw [onDp_dp, readBit_dp, e1.1]; rfl
      rw [hsr]
      congr 1
      apply List.map_congr_left
      intro i _
      simp only [Function.comp, Nat.succ_eq_add_one]
      congr 1; omega
    · rw [g2]; congr 3; simp only [RMode.tx.injEq]; omega

/-- `ReadByte` from a lone transmitting responder reads its scratchpad byte (R93). -/
theorem readByte_tx (s : State) (r : Responder) (m : Nat) (h : s.bus.env = .responders [r]) (hmode : r.mode = .tx (8 * m))
    (hm : m < r.pad.length) :
    (readByte s).1 = r.pad[m] ∧ (readByte s).2.bus.env = .responders [{ r with mode := .tx (8 * (m + 1)) }] := by
  unfold readByte
  obtain ⟨g1, g2⟩ := readBits_tx 8 (onDp (fun d => { d with sr := 0#8, bitcnt := 0#4 }) s) r m 0 (by omega) h hmode hm
  refine ⟨?_, ?_⟩
  · refine lsbFirst_injective ?_
    simp only [g1]
    rw [lsbFirst_foldl _ (by simp)]
    unfold lsbFirst
    apply List.map_congr_left
    intro i _
    congr 1; omega
  · rw [g2, show 8 * m + 0 + 8 = 8 * (m + 1) from by omega]

/-- The scratchpad of a lone transmitting responder, byte by byte (R93, R200). -/
theorem readScratch_tx (n : Nat) (s : State) (r : Responder) (m : Nat) (h : s.bus.env = .responders [r])
    (hmode : r.mode = .tx (8 * m)) (hm : m + n = r.pad.length) :
    (readScratch n s).bus.events = s.bus.events ++ (r.pad.drop m).flatMap rxEvents ∧
      (readScratch n s).bus.env = .responders [{ r with mode := .tx (8 * (m + n)) }] := by
  induction n generalizing s r m with
  | zero =>
    refine ⟨?_, ?_⟩
    · rw [List.drop_of_length_le (by omega)]; simp [readScratch]
    · rw [readScratch, h]; obtain ⟨a, b, c, d⟩ := r; simp only at hmode; subst hmode; rfl
  | succ n ih =>
    obtain ⟨e1, e2⟩ := readByte_tx s r m h hmode (by omega)
    have R := (scratchByte_run s).1
    rw [readScratch_succ]
    have hb : (scratchByte s).bus.env = .responders [{ r with mode := .tx (8 * (m + 1)) }] := by rw [scratchByte_bus]; exact e2
    obtain ⟨g1, g2⟩ := ih (scratchByte s) _ (m + 1) hb rfl (by show m + 1 + n = r.pad.length; omega)
    refine ⟨?_, ?_⟩
    · rw [g1, R.events, e1, List.append_assoc]
      congr 1
      show rxEvents r.pad[m] ++ (r.pad.drop (m + 1)).flatMap rxEvents = _
      rw [← List.flatMap_cons, List.getElem_cons_drop]
    · rw [g2]; congr 3; simp only [RMode.tx.injEq]; omega

end Sys2Proof.Machine
end

