-- ==== Sys2Proof/Laws/Step.lean ====
section
/-! SUPPORT. The invariant through a command, a host access at IDLE or while an operation runs, a gap: what the steps of the
machine are made of. -/

namespace Sys2Proof.Machine

theorem Config.wf_spLen {c : Config} (h : c.wf = true) : 3 ≤ c.spLen.toNat := by
  unfold Config.wf at h
  simp only [Bool.and_eq_true, decide_eq_true_eq] at h
  exact h.1.1.1.1.2

theorem Config.wf_cap {c : Config} (h : c.wf = true) : 0 < c.cap.toNat := by
  unfold Config.wf at h
  simp only [Bool.and_eq_true, decide_eq_true_eq] at h
  rcases Nat.eq_zero_or_pos c.cap.toNat with e | e
  · exact absurd (BitVec.eq_of_toNat_eq e) h.1.1.1.1.1
  · exact e

/-- In a state of the invariant, only a missing slot has a command rejected. -/
theorem State.Inv.accepted_iff {s : State} (h : s.Inv) (i : Instr) :
    Accepted i s ↔ i.wellFormed s.cfg = true := by
  have hs := h.seqIdle
  have h1 := Config.wf_cap h.cfgOk
  have h2 := h.countLe
  have h3 : ∀ k, k < s.count → k < s.cfg.cap := fun k hk => BitVec.lt_def.2
    (Nat.lt_of_lt_of_le (BitVec.lt_def.1 hk) (BitVec.le_def.1 h2))
  cases i <;> simp only [Accepted, Instr.wellFormed, hs, h1, h2, true_and, decide_eq_true_eq]
  exact ⟨fun _ => trivial, fun _ hk => h3 _ hk⟩

/-- A rejection keeps the invariant. -/
theorem State.Inv.reject {s : State} (h : s.Inv) (hr : s.inReset = false) : (reject s).Inv :=
  ⟨h.cfgOk, h.memWf, h.memIn, h.countLe, h.lastdevOk, h.seqIdle, h.drvOk, h.tickIdle, fun e => absurd e (by simp [hr])⟩

/-- With reset released the invariant looks at nothing of ILL, RESULT, the line's side, the host's side and the log of reads. -/
theorem State.Inv.setOther {s : State} (h : s.Inv) (hr : s.inReset = false) (ill : Bool) (r : Word) (b : Bus)
    (q : List HostEvent) (l : List (Nat × Word)) :
    State.Inv { s with ill := ill, result := r, bus := b, host := q, readLog := l } :=
  ⟨h.cfgOk, h.memWf, h.memIn, h.countLe, h.lastdevOk, h.seqIdle, h.drvOk, h.tickIdle, fun e => absurd e (by simp [hr])⟩

/-- The invariant looks at nothing of the line's side, the host's side and the log of reads. -/
theorem State.Inv.setOutside {s : State} (h : s.Inv) (b : Bus) (q : List HostEvent) (l : List (Nat × Word)) :
    State.Inv { s with bus := b, host := q, readLog := l } :=
  ⟨h.cfgOk, h.memWf, h.memIn, h.countLe, h.lastdevOk, h.seqIdle, h.drvOk, h.tickIdle,
    fun e => congrArg (fun x : State => { x with bus := b, host := q, readLog := l }) (h.resetHeld e)⟩

theorem OpRun.inv {touch : Nat → Prop} {s t : State} {new : List BusEvent} (o : OpRun touch s t new) (h : s.Inv)
    (hr : s.inReset = false) (hc : t.count ≤ s.cfg.cap) (hl : legalDeviation s.cfg.variant t.lastdev = true) : t.Inv where
  cfgOk := by rw [o.cfg]; exact h.cfgOk
  memWf := o.wf h.memWf
  memIn := by rw [o.cfg]; exact o.inside h.memIn
  countLe := by rw [o.cfg]; exact hc
  lastdevOk := by rw [o.cfg]; exact hl
  seqIdle := o.seq.trans h.seqIdle
  drvOk := by
    rw [o.cfg]
    rcases o.drv with e | e | e
    · rw [e]; exact h.drvOk
    · exact .inl e
    · exact .inr e
  tickIdle := o.tick h.tickIdle
  resetHeld := fun e => absurd e (by simp [o.inReset, hr])

/-- A command leaves the reset input as it is. -/
theorem exec_inReset {s t : State} {i : Instr} (h : s.Inv) (e : exec i s = .next t) : t.inReset = s.inReset := by
  by_cases a : Accepted i s
  · obtain ⟨u, hu, r⟩ := exec_run a (Nat.le_trans (by omega) (Config.wf_spLen h.cfgOk)) h.memWf
    rw [hu] at e
    cases e
    obtain ⟨new, o⟩ := r.op
    exact o.inReset
  · rcases exec_next e with ⟨rfl, -⟩ | ⟨a', -⟩
    · rfl
    · exact absurd a' a

/-- With reset released a command keeps the invariant. -/
theorem State.Inv.exec {s t : State} {i : Instr} (h : s.Inv) (hr : s.inReset = false) (e : exec i s = .next t) : t.Inv := by
  by_cases a : Accepted i s
  · obtain ⟨u, hu, r⟩ := exec_run a (Nat.le_trans (by omega) (Config.wf_spLen h.cfgOk)) h.memWf
    rw [hu] at e
    cases e
    obtain ⟨new, o⟩ := r.op
    exact o.inv h hr (r.countLe h.countLe) (r.lastdevOk h.lastdevOk)
  · rcases exec_next e with ⟨rfl, -⟩ | ⟨a', -⟩
    · exact h.reject hr
    · exact absurd a' a

/-- Whatever stands on the line and on the host's side, reset leaves a state of the invariant. -/
theorem State.Inv.afterReset {c : Config} (h : c.wf = true) (b : Bus) (q : List HostEvent) (l : List (Nat × Word)) :
    State.Inv { State.resetWith c with bus := b, host := q, readLog := l } :=
  ⟨h, rfl, rfl, BitVec.le_def.2 (Nat.zero_le _), legalDeviation_zero _, rfl, .inl rfl, rfl, fun e => absurd e Bool.false_ne_true⟩

/-- And so does reset held asserted (R270). -/
theorem State.Inv.inReset {c : Config} (h : c.wf = true) (b : Bus) (q : List HostEvent) (l : List (Nat × Word)) :
    State.Inv { State.resetWith c with inReset := true, bus := b, host := q, readLog := l } :=
  ⟨h, rfl, rfl, BitVec.le_def.2 (Nat.zero_le _), legalDeviation_zero _, rfl, .inl rfl, rfl, fun _ => rfl⟩

theorem State.Inv.hostRead {s : State} (h : s.Inv) (off : Nat) : (hostRead off s).Inv := by
  unfold Machine.hostRead
  split
  · exact h.setOutside _ s.host _
  · exact h.setOutside s.bus s.host _

theorem State.Inv.hostWrite {s : State} (h : s.Inv) (off : Nat) (w : Word) : (hostWrite off w s).Inv := by
  unfold Machine.hostWrite
  split
  · exact h
  rename_i hr
  have hr : s.inReset = false := by simpa using hr
  split
  · exact h.setOther hr _ s.result s.bus s.host s.readLog
  · exact h

/-- An action of the host at IDLE keeps the invariant. -/
theorem State.Inv.hostAccess {s t : State} {act : HostAct} (h : s.Inv) (e : hostAccess act s = .next t) : t.Inv := by
  cases act with
  | read off size =>
    simp only [Machine.hostAccess] at e
    split at e
    · cases e; exact h.hostRead off
    · cases e
  | write off size w =>
    simp only [Machine.hostAccess] at e
    split at e
    · split at e
      · unfold hostCommand at e
        split at e
        · cases e; exact h
        · rename_i hr
          have hr : s.inReset = false := by simpa using hr
          split at e
          · cases e; exact h.reject hr
          · split at e
            · cases e; exact h.reject hr
            · exact h.exec hr e
      · cases e; exact h.hostWrite off w
    · cases e
  | reset asserted =>
    simp only [Machine.hostAccess] at e
    cases e
    unfold setReset resetMachine
    split
    · exact State.Inv.inReset h.cfgOk s.bus s.host s.readLog
    · split
      · exact State.Inv.afterReset h.cfgOk s.bus s.host s.readLog
      · exact h

/-- What a host access does while an operation runs (R69, R240): ILL, the log of reads and the free values only. -/
theorem hostAccess_busy {s v : State} {act : HostAct} (hb : isBusy s = true) (hr : ∀ a, act ≠ .reset a)
    (e : hostAccess act s = .next v) :
    v = { s with ill := v.ill, readLog := v.readLog, bus := { s.bus with draws := v.bus.draws } } := by
  cases act with
  | read off size =>
    simp only [hostAccess] at e
    split at e
    · cases e; unfold hostRead; split <;> rfl
    · cases e
  | write off size w =>
    simp only [hostAccess] at e
    split at e
    · split at e
      · simp only [hostCommand, hb, reduceIte] at e
        split at e <;> (cases e; rfl)
      · cases e; unfold hostWrite; split
        · rfl
        · split <;> rfl
    · cases e
  | reset a => exact absurd rfl (hr a)

theorem busyView_busy (op : Instr) (t : State) : isBusy (busyView op t) = true := rfl

/-- The actions that land while an operation runs keep the invariant of the state it leads to. -/
theorem State.Inv.serveBusy {op : Instr} {s0 : State} {dur : Nat} {q : List HostEvent} {el : Nat} {t u : State}
    (h : t.Inv) (hr : t.inReset = false) (e : serveBusy op s0 dur q el t = .next u) : u.Inv := by
  induction q generalizing el t with
  | nil =>
    simp only [Machine.serveBusy] at e
    cases e
    exact h.setOutside t.bus [] t.readLog
  | cons ev rest ih =>
    simp only [Machine.serveBusy] at e
    have keep : ∀ act v, (∀ a, act ≠ HostAct.reset a) → Machine.hostAccess act (busyView op t) = .next v →
        State.Inv { v with seq := t.seq, drv := t.drv } := by
      intro act v hn hv
      rw [hostAccess_busy (busyView_busy op t) hn hv]
      exact h.setOther hr v.ill t.result { t.bus with draws := v.bus.draws } t.host v.readLog
    have keepR : ∀ act v, (∀ a, act ≠ HostAct.reset a) → Machine.hostAccess act (busyView op t) = .next v →
        State.inReset { v with seq := t.seq, drv := t.drv } = false := by
      intro act v hn hv
      rw [hostAccess_busy (busyView_busy op t) hn hv]
      exact hr
    split at e
    · cases e
      exact h.setOutside t.bus _ t.readLog
    · split at e
      · split at e
        · cases e
          exact State.Inv.inReset h.cfgOk _ _ _
        · exact ih h hr e
        · split at e
          · rename_i hv
            exact ih (keep _ _ (by simp) hv) (keepR _ _ (by simp) hv) e
          · cases e
          · cases e
        · split at e
          · rename_i hv
            exact ih (keep _ _ (by simp) hv) (keepR _ _ (by simp) hv) e
          · cases e
          · cases e
      · cases e
        exact h.setOutside t.bus _ t.readLog

theorem State.Inv.idleFor {s : State} (h : s.Inv) (n : Nat) : (idleFor n s).Inv := by
  unfold Machine.idleFor
  split
  · exact h
  · exact h.setOutside _ s.host s.readLog

end Sys2Proof.Machine
end

