-- ==== Sys2Proof/Laws/Ticks.lean ====
section
/-! SUPPORT. How long the frames last (70_reset_and_hazards.md rule R301), and what the passes of a discovery are bound by
(43_rom_search.md rules R185, R192). -/

namespace Sys2Proof.Machine

theorem rxEvents_ticks (c : Config) (b : Byte) : ((rxEvents b).map (eventTicks c)).sum = 8 * c.tR := by
  simp [rxEvents, lsbFirst, eventTicks, List.range_succ]; omega

theorem selectEvents_ticks (k : Byte) (s : State) :
    ((selectEvents k s).map (eventTicks s.cfg)).sum = 72 * s.cfg.tW := by
  simp [selectEvents, identity, List.range_succ, txEvents_ticks]; omega

theorem convertFrame_ticks (c : Config) (p : Bit) :
    ((convertFrame c p).map (eventTicks c)).sum = if p = 1#1 then c.tP + 16 * c.tW else c.tP := by
  unfold convertFrame
  split
  · simp only [List.map_cons, List.map_append, List.sum_cons, List.sum_append, txEvents_ticks]
    split <;> simp [eventTicks] <;> omega
  · simp [eventTicks]

theorem passEvents_ticks (c : Config) (p : List Position) (h : p.length = 64) :
    ((passEvents c p).map (eventTicks c)).sum = c.tP + passTicks c := by
  unfold passEvents
  simp only [List.map_cons, List.map_append, List.sum_cons, List.sum_append, txEvents_ticks, positions_ticks, h,
    passTicks]
  simp [eventTicks]

theorem passes_ticks (c : Config) (ps : List (List Position)) (h : ∀ p ∈ ps, p.length = 64) :
    ((ps.flatMap (passEvents c)).map (eventTicks c)).sum = ps.length * (c.tP + passTicks c) := by
  induction ps with
  | nil => simp
  | cons p ps ih =>
    rw [List.flatMap_cons, List.map_append, List.sum_append, passEvents_ticks _ _ (h p (by simp)),
      ih (fun q hq => h q (by simp [hq])), List.length_cons]
    ring

theorem blockEvents_ticks (c : Config) (block : List Byte) :
    ((block.flatMap rxEvents).map (eventTicks c)).sum = block.length * (8 * c.tR) := by
  induction block with
  | nil => simp
  | cons b bs ih => rw [List.flatMap_cons, List.map_append, List.sum_append, ih, rxEvents_ticks, List.length_cons]; ring

theorem readFrames_ticks (s : State) (k : Nat) (as : List (Option (List Byte)))
    (h : ∀ ans ∈ as, ∀ block, ans = some block → block.length = s.cfg.spLen.toNat) :
    ((readFrames s k as).map (eventTicks s.cfg)).sum =
      as.length * s.cfg.tP + as.countP Option.isSome * (80 * s.cfg.tW + 8 * s.cfg.spLen.toNat * s.cfg.tR) := by
  induction as generalizing k with
  | nil => simp [readFrames]
  | cons a as ih =>
    unfold readFrames
    rw [List.map_append, List.sum_append, ih (k + 1) (fun x hx => h x (by simp [hx]))]
    cases a with
    | none => simp [readFrame, eventTicks, List.length_cons]; ring
    | some block =>
      have hl := h _ (by simp) block rfl
      simp only [readFrame, List.map_cons, List.map_append, List.sum_cons, List.sum_append, blockEvents_ticks, hl,
        txEvents_ticks, selectEvents_ticks, List.length_cons, List.countP_cons]
      simp only [eventTicks, Option.isSome_some, if_true]
      ring

theorem passesFrom_length {c : Config} {last : Byte} {seed : List Bit} {ps : List (List Position)}
    (h : passesFrom c last seed ps) : ∀ p ∈ ps, p.length = 64 := by
  induction ps generalizing last seed with
  | nil => intro p hp; cases hp
  | cons q ps ih =>
    intro p hp
    obtain ⟨h1, h2, h3, h4⟩ := h
    rcases List.mem_cons.1 hp with rfl | hp
    · exact h1
    · exact ih h4 p hp

/-- A deviation value a complete pass records is the number of one of its positions (R126). -/
theorem devAfter_range (c : Config) (last : Byte) (p : List Position) (hp : p.length = 64)
    (h : devAfter c last 0 0#8 p ≠ 0#8) :
    1 ≤ (devAfter c last 0 0#8 p).toNat ∧ (devAfter c last 0 0#8 p).toNat ≤ 64 := by
  constructor
  · have : (devAfter c last 0 0#8 p).toNat ≠ 0 := fun hh => h (BitVec.eq_of_toNat_eq hh)
    omega
  · rcases devAfter_cases c last 0 0#8 p with e | ⟨i, hi, -, e⟩
    · exact absurd e h
    · rw [e, posNumber_toNat _ _ (by omega)]
      unfold Config.base; split <;> omega

theorem lastAfter_range {c : Config} {last : Byte} {seed : List Bit} {ps : List (List Position)}
    (h : passesFrom c last seed ps) (hne : ps ≠ []) (h0 : lastAfter c last ps ≠ 0#8) :
    1 ≤ (lastAfter c last ps).toNat ∧ (lastAfter c last ps).toNat ≤ 64 := by
  induction ps generalizing last seed with
  | nil => exact absurd rfl hne
  | cons q ps ih =>
    obtain ⟨h1, h2, h3, h4⟩ := h
    by_cases hps : ps = []
    · subst hps; exact devAfter_range c last q h1 h0
    · exact ih h4 hps h0

/-- Under SOURCE a complete pass that records a deviation records one beyond `last` (R185). -/
theorem devAfter_source {c : Config} (hv : c.variant = .source) (last : Byte) (p : List Position) (hp : p.length = 64)
    (h : devAfter c last 0 0#8 p ≠ 0#8) :
    last.toNat < (devAfter c last 0 0#8 p).toNat ∧ (devAfter c last 0 0#8 p).toNat ≤ 63 := by
  rcases devAfter_cases c last 0 0#8 p with e | ⟨i, hi, hr, e⟩
  · exact absurd e h
  · rw [e, posNumber_toNat _ _ (by omega)]
    have hb : c.base = 0 := by unfold Config.base; rw [hv]
    simp [Position.records, hv] at hr
    have h3 := BitVec.lt_def.1 hr.2
    rw [posNumber_toNat _ _ (by omega)] at h3
    omega

end Sys2Proof.Machine
end

