-- ==== Sys2Proof/Tests/Slice0.lean ====
section
/-! SUPPORT. Tests: ill-formed commands refused, one word of every command decoded, the vectors of 95_test_vectors.md one step at
a time, and for every statement with hypotheses a state and operands that meet them. -/

namespace Sys2Proof.Tests

open Sys2Proof.Machine

/-! ## Well-formed commands and the command word -/

/-- CAP = 4 (30_encoding.md R102 (4)): slot 3 exists, slot 4 does not. -/
theorem test_wellFormed_select : (Instr.select 4#8).wellFormed Config.default = false ∧
    (Instr.select 3#8).wellFormed Config.default = true := by decide

theorem test_wellFormed_searchPass : (Instr.searchPass 4#8 0#8).wellFormed Config.default = false ∧
    (Instr.searchPass 3#8 0xFF#8).wellFormed Config.default = true := by decide

/-- The ranges of R5 and R6: CAP 0, SP_LEN 2 and a duration of 0 are none of them. -/
theorem test_config_ranges : { Config.default with cap := 0#8 }.wf = false ∧
    { Config.default with spLen := 2#8 }.wf = false ∧ { Config.default with tRs := 0 }.wf = false ∧
    Config.default.wf = true ∧ Config.default.wiresDistinct = true := by decide

/-! Words written out from R100 and R103: code, first operand, second operand. -/

theorem test_decode_checkPresence : decode 0x00000001#32 = .ok .checkPresence := by decide
theorem test_decode_writeBit : decode 0x0000FE02#32 = .ok (.writeBit 0#1) ∧
    decode 0x00000302#32 = .ok (.writeBit 1#1) := by decide
theorem test_decode_readBit : decode 0x00000003#32 = .ok .readBit := by decide
theorem test_decode_sendByte : decode 0x00008004#32 = .ok (.sendByte 0x80#8) := by decide
theorem test_decode_readByte : decode 0x00000005#32 = .ok .readByte := by decide
theorem test_decode_clear : decode 0x00000006#32 = .ok .clear := by decide
theorem test_decode_select : decode 0x00000307#32 = .ok (.select 3#8) := by decide
theorem test_decode_count : decode 0x00000008#32 = .ok .count := by decide
theorem test_decode_searchPass : decode 0x00FF0009#32 = .ok (.searchPass 0#8 0xFF#8) := by decide
theorem test_decode_discover : decode 0x0000000A#32 = .ok .discover := by decide
theorem test_decode_readAll : decode 0x0000000B#32 = .ok .readAll := by decide
theorem test_decode_startConversion : decode 0x0000000C#32 = .ok .startConversion := by decide
theorem test_decode_getTemperature : decode 0x0000C80D#32 = .ok (.getTemperature 200#8) := by decide
theorem test_decode_process : decode 0x0000000E#32 = .ok .process := by decide
theorem test_decode_crc8Update : decode 0x0005DB0F#32 = .ok (.crc8Update 0xDB#8 0x05#8) := by decide

/-- V60, V61, V62: the two illegal codes next to the legal ones, and a reserved field that is not 0. -/
theorem test_decode_rejects : decode 0x00000000#32 = .error .opcode ∧ decode 0x00000010#32 = .error .opcode ∧
    decode 0x01000001#32 = .error .reserved ∧ decode 0x80000000#32 = .error .reserved := by decide

/-! ## One command at a time -/

/-- A component of the next state. -/
def after {α : Type} (f : State → α) : Host.Outcome State Fault Refusal → Option α
  | .next t => some (f t)
  | .fault _ => none
  | .refused _ => none

/-- The machine with the default parameters and something on its line. -/
def onLine (e : Env) (s : State) : State := { s with bus := { s.bus with env := e } }

/-- Registry bytes stored. -/
def store (cells : List (Nat × Byte)) (s : State) : State := cells.foldl (fun s c => memWrite c.1 c.2 s) s

/-- The registry of V44 with the caches of V30: slot 0 = B, slot 1 = A. -/
def twoDevices : State :=
  { State.reset with
    count := 2#8
    mem := [(0, 0x10), (1, 0x11), (2, 0x22), (3, 0x33), (4, 0x44), (5, 0x55), (6, 0x66), (7, 0xB3), (8, 0x32),
      (16, 0x28), (17, 0x11), (18, 0x22), (19, 0x33), (20, 0x44), (21, 0x55), (22, 0x66), (23, 0x56), (24, 0x91), (25, 0x01)] }

/-- It is what storing the bytes gives, in canonical form. -/
theorem test_store : (store [(25, 0x01), (24, 0x91), (24, 0x00), (10, 0x77)] State.reset).mem = [(25, 0x01#8)] ∧
    Memory.wf twoDevices.mem = true := by decide

/-- Device A of V44 with the scratchpad of V53. -/
def deviceA : Responder := { newResponder Config.default 0x5666554433221128#64 [] with
  pad := [0x91, 0x01, 0x4B, 0x46, 0x7F, 0xFF, 0x0C, 0x10, 0x70] }

/-- Device B of V44 with the scratchpad of V53. -/
def deviceB : Responder := { newResponder Config.default 0xB366554433221110#64 [] with
  pad := [0x32, 0x00, 0x4B, 0x46, 0xFF, 0xFF, 0x0C, 0x10, 0x6B] }

/-- V1. -/
theorem test_checkPresence_present :
    after (fun t => (t.result, t.bus.wave)) (exec .checkPresence (onLine (.responders [deviceA]) State.reset)) =
      some (1#32, [.hold .low 480, .hold .rel 70, .sample 0#1, .hold .rel 410]) := by decide

/-- V2. -/
theorem test_checkPresence_absent :
    after (fun t => (t.result, t.bus.events, t.bus.clock)) (exec .checkPresence (onLine (.responders []) State.reset)) =
      some (0#32, [.rst 0#1], 960) := by decide

/-- V4, and the RESULT it leaves. -/
theorem test_writeBit_one :
    after (fun t => (t.result, t.bus.wave)) (exec (.writeBit 1#1) { State.reset with result := 7#32 }) =
      some (7#32, [.hold .low 6, .hold .rel 10, .hold .rel 54]) := by decide

/-- V5. -/
theorem test_writeBit_zero :
    after (fun t => (t.bus.events, t.bus.wave)) (exec (.writeBit 0#1) State.reset) =
      some ([.w 0#1], [.hold .low 6, .hold .low 54, .hold .rel 10]) := by decide

/-- V8. -/
theorem test_readBit_idle :
    after (fun t => (t.result, t.bus.wave)) (exec .readBit (onLine (.responders [deviceA]) State.reset)) =
      some (1#32, [.hold .low 6, .hold .rel 9, .sample 1#1, .hold .rel 55]) := by decide

/-- V10: two devices sending 1 and 0. -/
theorem test_readBit_wired_and :
    after (fun t => (t.result, t.bus.events))
      (exec .readBit (onLine (.responders [{ deviceA with mode := .tx 0 }, { deviceB with mode := .tx 0 }]) State.reset)) =
      some (0#32, [.r 0#1]) := by decide

/-- V12. -/
theorem test_sendByte_order :
    after (fun t => (t.bus.events, t.bus.clock)) (exec (.sendByte 0xCC#8) State.reset) =
      some ([.w 0#1, .w 0#1, .w 1#1, .w 1#1, .w 0#1, .w 0#1, .w 1#1, .w 1#1], 560) := by decide

/-- V14: reads of 1,0,0,0,1,1,0,0. -/
theorem test_readByte_order :
    after (fun t => t.result)
      (exec .readByte (onLine (.oracle [false, true, true, true, false, false, true, true]) State.reset)) =
      some 0x31#32 := by decide

/-- V17: the last bit read is the most significant. -/
theorem test_readByte_top_bit :
    after (fun t => t.result)
      (exec .readByte (onLine (.oracle [true, true, true, true, true, true, true, false]) State.reset)) =
      some 0x80#32 := by decide

set_option maxRecDepth 100000 in
/-- V30. -/
theorem test_clear_keeps_caches :
    after (fun t => (t.count, t.mem)) (exec .clear twoDevices) = some (0#8, [(8, 0x32#8), (24, 0x91#8), (25, 0x01#8)]) := by
  decide

set_option maxRecDepth 100000 in
/-- V31: the match command, then the family byte of slot 1. -/
theorem test_select_frame :
    after (fun t => (t.bus.events.take 16, t.bus.events.length, t.bus.clock)) (exec (.select 1#8) twoDevices) =
      some ([.w 1#1, .w 0#1, .w 1#1, .w 0#1, .w 1#1, .w 0#1, .w 1#1, .w 0#1,
        .w 0#1, .w 0#1, .w 0#1, .w 1#1, .w 0#1, .w 1#1, .w 0#1, .w 0#1], 72, 5040) := by decide

/-- V32. -/
theorem test_select_rejected :
    after (fun t => (t.ill, t.bus.events)) (exec (.select 4#8) twoDevices) = some (true, []) := by decide

/-- V33. -/
theorem test_count : after (fun t => t.result) (exec .count twoDevices) = some 2#32 := by decide

/-- V45: the line forces both reads at position 5 to 1. -/
theorem test_searchPass_abort :
    after (fun t => (t.result, t.lastdev, t.mem, t.bus.clock))
      (exec (.searchPass 0#8 0#8)
        (onLine (.oracle [true, false, true, false, true, false, false, true, true, false, false, false]) State.reset)) =
      some (0xFF#32, 0xFF#8, [(0, 0x08#8)], 1750) := by decide

set_option maxRecDepth 100000 in
/-- V48: a deviation value beyond every position replays the slot. -/
theorem test_searchPass_replay :
    after (fun t => (t.result, t.mem))
      (exec (.searchPass 0#8 0xFF#8) (store [(0, 0x08)]
        (onLine (.responders [{ newResponder Config.default 0#64 [] with mode := .romCmd 0 0#8 },
          { newResponder Config.default 8#64 [] with mode := .romCmd 0 0#8 }]) State.reset))) =
      some (0#32, [(0, 0x08#8)]) := by decide

set_option maxRecDepth 100000 in
/-- V44: two realistic devices. -/
theorem test_discover_two :
    after (fun t => (t.result, t.lastdev, t.bus.clock, [0x100, 0x104, 0x110, 0x114].map (fun o => regRead o t)))
      (exec .discover (onLine (.responders [deviceA, deviceB]) State.reset)) =
      some (2#32, 0#8, 29920, [0x33221110#32, 0xB3665544#32, 0x33221128#32, 0x56665544#32]) := by decide

set_option maxRecDepth 100000 in
/-- V46d: CAP = 1. -/
theorem test_discover_capacity :
    after (fun t => (t.count, t.lastdev)) (exec .discover (resetWithDevices { Config.default with cap := 1#8 } [0#64, 8#64])) =
      some (1#8, 3#8) := by decide

set_option maxRecDepth 100000 in
/-- V53 with both devices answering: the caches take the first two bytes. -/
theorem test_readAll_commits :
    after (fun t => (cacheByte 0#8 0 t, cacheByte 0#8 1 t, cacheByte 1#8 0 t, cacheByte 1#8 1 t, t.bus.clock))
      (exec .readAll (store [(8, 0), (24, 0), (25, 0)] (onLine (.responders [deviceA, deviceB]) twoDevices))) =
      some (0x32#8, 0x00#8, 0x91#8, 0x01#8, 23200) := by decide

set_option maxRecDepth 100000 in
/-- V52: a bad checksum leaves the cache. -/
theorem test_readAll_bad_checksum :
    after (fun t => (cacheByte 1#8 0 t, cacheByte 1#8 1 t, t.ill))
      (exec .readAll (onLine (.responders [{ deviceA with pad := [0xA0, 0x01, 0x4B, 0x46, 0x7F, 0xFF, 0x0C, 0x10, 0x70] }])
        twoDevices)) = some (0x91#8, 0x01#8, false) := by decide

/-- V57. -/
theorem test_startConversion :
    after (fun t => (t.bus.events, t.drv, t.bus.clock)) (exec .startConversion (onLine (.responders [deviceA]) State.reset)) =
      some ([.rst 1#1, .w 0#1, .w 0#1, .w 1#1, .w 1#1, .w 0#1, .w 0#1, .w 1#1, .w 1#1,
        .w 0#1, .w 0#1, .w 1#1, .w 0#1, .w 0#1, .w 0#1, .w 1#1, .w 0#1], .rel, 2080) := by decide

/-- V57 with PARASITE = 1. -/
theorem test_startConversion_parasite :
    after (fun t => (t.bus.events.drop 17, statusWord t, t.bus.clock))
      (exec .startConversion (resetWithDevices { Config.default with parasite := true } [0#64])) =
      some ([.spu], 4#32, 2080) := by decide

/-- V55: -7 on a higher-resolution device. -/
theorem test_getTemperature_truncates :
    after (fun t => t.result) (exec (.getTemperature 1#8) (store [(24, 0xF9), (25, 0xFF)] twoDevices)) = some (-4#32) := by
  decide

/-- V55: the most negative raw value on a standard device. -/
theorem test_getTemperature_no_wrap :
    after (fun t => t.result) (exec (.getTemperature 0#8) (store [(8, 0x00), (9, 0x80)] twoDevices)) =
      some (-163840#32) := by decide

set_option maxRecDepth 100000 in
/-- V58. -/
theorem test_process :
    after (fun t => (t.result, t.bus.events.length, t.bus.clock))
      (exec .process (onLine (.responders [deviceA, deviceB]) twoDevices)) = some (2#32, 324, 26240) := by decide

/-- V59. -/
theorem test_process_no_devices :
    after (fun t => (t.result, t.bus.events.take 2, t.bus.events.length))
      (exec .process (onLine (.responders [deviceA]) State.reset)) = some (0#32, [.rst 1#1, .rst 1#1], 18) := by decide

/-- V21. -/
theorem test_crc8Update : after (fun t => t.result) (exec (.crc8Update 0x00#8 0x50#8) State.reset) = some 0xDB#32 := by decide

set_option maxRecDepth 100000 in
/-- V22, V23, V24c, V25. -/
theorem test_crc_folds : crcFold 0#8 [0x50, 0x05, 0x4B, 0x46, 0x7F, 0xFF, 0x0C, 0x10, 0x1C] = 0x00#8 ∧
    crcFold 0#8 [0x91, 0x01, 0x4B, 0x46, 0x7F, 0xFF, 0x0C, 0x10] = 0x70#8 ∧
    crcFold 0#8 [0x02, 0x1C, 0xB8, 0x01, 0x00, 0x00, 0x00] = 0xA2#8 ∧
    crcFold 0#8 [0x91, 0x01, 0x4B, 0x46, 0x7F, 0xFF, 0x0C, 0x10, 0x71] = 0x5E#8 := by decide

/-! ## The host and the step -/

/-- V66: ILL cleared by a write of 1 to bit 1, left by a write of 1 to the others. -/
theorem test_status_write :
    after State.ill (hostAccess (.write 4 4 0x2#32) { State.reset with ill := true }) = some false ∧
    after State.ill (hostAccess (.write 4 4 0xFFFFFFFD#32) { State.reset with ill := true }) = some true := by decide

/-- V67: an accepted command leaves ILL. -/
theorem test_step_keeps_ill :
    after (fun t => (t.ill, t.bus.events.length)) (step (State.withFetchWord { State.reset with ill := true } 32 0x00000104)) =
      some (true, 8) := by decide

set_option maxRecDepth 100000 in
/-- R69, R240: while a SEND_BYTE runs, STATUS reads BUSY, a second word is lost and sets ILL; the read after it shows both. -/
theorem test_step_busy :
    after (fun t => (t.readLog, t.ill, t.bus.events.length, t.host))
      (step { State.reset with host := [⟨.polled 5, .write 0 4 0x00000104#32⟩, ⟨.timed 1, .read 4 4⟩,
        ⟨.timed 0, .write 0 4 0x0000000A#32⟩, ⟨.timed 558, .read 4 4⟩, ⟨.timed 1, .read 4 4⟩] }) =
      some ([(4, 1#32), (4, 3#32)], true, 8, [⟨.timed 0, .read 4 4⟩]) := by decide

/-- R272: a reset 75 ticks into a SEND_BYTE: one slot complete, the second cut 5 ticks into its low. -/
theorem test_step_reset_cuts :
    after (fun t => (t.bus.events, t.bus.wave, t.bus.clock, t.seq))
      (step { State.reset with host := [⟨.polled 0, .write 0 4 0x00000104#32⟩, ⟨.timed 75, .reset true⟩] }) =
      some ([.w 1#1], [.hold .low 6, .hold .rel 10, .hold .rel 54, .hold .low 5], 75, .idle) := by decide

/-- R270: reset asserted and not yet released. -/
def held : State := { State.reset with inReset := true }

/-- R270: a DISCOVER written while reset is asserted starts nothing; a read of STATUS then returns 0, and so it does after the
release. -/
theorem test_step_reset_held :
    after (fun t => (t.bus.events, t.ill, t.inReset, t.bus.clock))
      (step { held with host := [⟨.timed 3, .write 0 4 0x0000000A#32⟩] }) = some ([], false, true, 3) ∧
    after (fun t => (t.readLog, t.inReset)) (step { held with host := [⟨.timed 3, .read 4 4⟩] }) = some ([(4, 0#32)], true) ∧
    after (fun t => (statusWord t, t.inReset)) (step { held with host := [⟨.timed 3, .reset false⟩] }) = some (0#32, false) := by
  decide

/-- R79, R271, U12: responders whose slot was cut are unsettled; the next presence check finds them, in their initial mode and
with their identities and scratchpads. -/
theorem test_cut_responders_come_back :
    after (fun t => t.bus.env) (step (onLine (.responders [deviceA, deviceB])
      { State.reset with host := [⟨.polled 0, .write 0 4 0x00000104#32⟩, ⟨.timed 75, .reset true⟩] })) =
      some (.unsettled [deviceA, deviceB]) ∧
    after (fun t => (t.result, match t.bus.env with
        | .responders rs => rs.map (fun r => (r.rid, r.pad, r.mode))
        | .oracle _ => []
        | .unsettled _ => []))
      (exec .checkPresence (onLine (.unsettled [deviceA, deviceB]) State.reset)) =
      some (1#32, [deviceA, deviceB].map (fun r => (r.rid, r.pad, .romCmd 0 0#8))) := by decide

set_option maxRecDepth 100000 in
/-- R90, V53: a scratchpad of SP_LEN bytes with its CRC-8; one with a wrong last byte is none. -/
theorem test_scratchpad :
    scratchpad Config.default [0x91, 0x01, 0x4B, 0x46, 0x7F, 0xFF, 0x0C, 0x10] = deviceA.pad ∧
    (scratchpad Config.default []).length = 9 ∧ deviceA.wf Config.default = true ∧ deviceB.wf Config.default = true ∧
    Responder.wf Config.default { deviceA with pad := [0x91, 0x01, 0x4B, 0x46, 0x7F, 0xFF, 0x0C, 0x10, 0x71] } = false := by decide

/-- The row COUNT of the opcode table, placed and run. -/
theorem test_withFetchWord : decodeTableWord 32 8 = some .count ∧
    after (fun t => t.result) (step (twoDevices.withFetchWord 32 8)) = some 2#32 := by decide

/-! ## Witnesses: for every statement with hypotheses, states and operands that meet them, at the ends of their ranges -/

/-- The invariant with reset released, as one test. -/
def invTest (s : State) : Bool :=
  s.cfg.wf && Memory.wf s.mem && memInside s.cfg s.mem && decide (s.count ≤ s.cfg.cap) &&
    legalDeviation s.cfg.variant s.lastdev && decide (s.seq = .idle) &&
    (decide (s.drv = .rel) || (decide (s.drv = .high) && s.cfg.parasite)) && decide (s.dp.tickcnt = 0) &&
    decide (s.inReset = false)

theorem inv_of_test {s : State} (h : invTest s = true) : s.Inv := by
  simp only [invTest, Bool.and_eq_true, Bool.or_eq_true, decide_eq_true_eq] at h
  exact ⟨h.1.1.1.1.1.1.1.1, h.1.1.1.1.1.1.1.2, h.1.1.1.1.1.1.2, h.1.1.1.1.1.2, h.1.1.1.1.2, h.1.1.1.2, h.1.1.2, h.1.2,
    fun e => absurd e (by simp [h.2])⟩

theorem reset_inv : State.reset.Inv := inv_of_test (by decide)
theorem twoDevices_inv : twoDevices.Inv := inv_of_test (by decide)

/-- A machine running a SEND_BYTE. -/
def running : State := { State.reset with seq := .busy (.sendByte 1#8) }

/-- A SEND_BYTE to come, and one more action `d` ticks after it. -/
def sendThen (d : Nat) (act : HostAct) : State :=
  { State.reset with host := [⟨.polled 5, .write 0 4 0x00000104#32⟩, ⟨.timed d, act⟩] }

theorem sendThen_inv (d : Nat) (act : HostAct) : (sendThen d act).Inv :=
  reset_inv.setOther rfl false 0#32 Bus.start _ []

/-- MaskAndMatchSelectTheOperation: the two ends of the codes. -/
theorem witness_mask : (1 ≤ (0x01#8).toNat ∧ (0x01#8).toNat ≤ 0x0F ∧ 0x00AB0001#32 &&& 0xFF0000FF#32 = (0x01#8).zeroExtend 32) ∧
    (1 ≤ (0x0F#8).toNat ∧ (0x0F#8).toNat ≤ 0x0F ∧ 0x0050000F#32 &&& 0xFF0000FF#32 = (0x0F#8).zeroExtend 32) := by decide

/-- RejectionSetsIllAndNothingElse: each cause at its boundary, and a state with ILL set that goes on. -/
theorem witness_rejection : running.inReset = false ∧ State.reset.inReset = false ∧ isBusy running = true ∧ zField 0x01000001#32 ≠ 0#8 ∧
    (zField 0x00000000#32 = 0#8 ∧ opField 0x00000000#32 = 0#8) ∧
    (zField 0x00000010#32 = 0#8 ∧ 0x0F#8 < opField 0x00000010#32) ∧
    (opField 0x00000407#32 = 0x07#8 ∧ State.reset.cfg.cap ≤ aField 0x00000407#32) ∧
    (opField 0x00000409#32 = 0x09#8 ∧ State.reset.cfg.cap ≤ aField 0x00000409#32) := by decide

theorem witness_ill_stays : ∃ s t : State, s.Inv ∧ s.ill = true ∧ hostAccess (.write 0 4 0x00000104#32) s = .next t :=
  ⟨{ State.reset with ill := true }, _, reset_inv.setOther rfl true 0#32 Bus.start [] [], rfl, rfl⟩

/-- WordIsAcceptedExactlyOnTheFourConditions: the ends of the codes, the last slot and the one beyond. -/
theorem witness_accepted : State.reset.Inv ∧ State.reset.inReset = false ∧ running.inReset = false ∧
    (zField 0x00AB0001#32 = 0#8 ∧ (1 ≤ (opField 0x00AB0001#32).toNat ∧ (opField 0x00AB0001#32).toNat ≤ 0x0F)) ∧
    (zField 0x0000000F#32 = 0#8 ∧ (1 ≤ (opField 0x0000000F#32).toNat ∧ (opField 0x0000000F#32).toNat ≤ 0x0F)) ∧
    (opField 0x00000307#32 = 0x07#8 ∧ aField 0x00000307#32 < State.reset.cfg.cap) ∧
    (opField 0x00000407#32 = 0x07#8 ∧ ¬ aField 0x00000407#32 < State.reset.cfg.cap) ∧ isBusy running = true :=
  ⟨reset_inv, by decide⟩

/-- StepRunsTheDecodedCommand. -/
theorem witness_step : (sendThen 1 (.reset true)).seq = .idle ∧ (sendThen 1 (.reset true)).inReset = false ∧
    (sendThen 1 (.reset true)).host = ⟨.polled 5, .write 0 4 0x00000104#32⟩ :: [⟨.timed 1, .reset true⟩] ∧
    decode 0x00000104#32 = .ok (.sendByte 1#8) := by decide

/-- StepOfAPlacedCommandIsExec. -/
theorem witness_placed : twoDevices.Inv ∧ twoDevices.host = [] ∧ decodeTableWord 32 0x0000000A = some .discover :=
  ⟨twoDevices_inv, by decide⟩

/-- StepWaitsOrServesTheHost: no action, an access, a reset, a rejected word. -/
theorem witness_serve : State.reset.host = [] ∧ commandOf (.read 4 4) = none ∧ commandOf (.reset true) = none ∧ commandOf (.reset false) = none ∧
    commandOf (.write 0 4 0x00000010#32) = none := by decide

/-- GapBetweenCommands: the line released, and driven high. -/
theorem witness_gap : State.reset.Inv ∧
    State.Inv { State.resetWith { Config.default with parasite := true } with drv := .high } ∧ 0 < 1 :=
  ⟨reset_inv, inv_of_test (by decide), by decide⟩

/-- BusyCommandIsLostWithoutDisturbing and ResetCutsARunningCommandShort: the last tick of a SEND_BYTE of 560. -/
theorem witness_landing : ((sendThen 559 (.reset true)).Inv ∧ (sendThen 559 (.reset true)).inReset = false ∧ ∃ t,
      exec (.sendByte 1#8) (idleFor 5 { sendThen 559 (.reset true) with host := [⟨.timed 559, .reset true⟩] }) = .next t ∧
      (sendThen 559 (.reset true)).bus.clock + 5 + 559 < t.bus.clock) ∧
    ((sendThen 559 (.write 0 4 0x0000000A#32)).Inv ∧ (sendThen 559 (.write 0 4 0x0000000A#32)).inReset = false ∧ ∃ t,
      exec (.sendByte 1#8) (idleFor 5
        { sendThen 559 (.write 0 4 0x0000000A#32) with host := [⟨.timed 559, .write 0 4 0x0000000A#32⟩] }) = .next t ∧
      (sendThen 559 (.write 0 4 0x0000000A#32)).bus.clock + 5 + 559 < t.bus.clock) :=
  ⟨⟨sendThen_inv _ _, rfl, _, rfl, by decide⟩, sendThen_inv _ _, rfl, _, rfl, by decide⟩

/-- ResetCutsARunningCommandShort: at the tick of the acceptance, with reference responders on the line. -/
theorem witness_cut : ((onLine (.responders [deviceA]) (sendThen 0 (.reset true))).Inv ∧
    (onLine (.responders [deviceA]) (sendThen 0 (.reset true))).inReset = false ∧ ∃ t,
      exec (.sendByte 1#8) (idleFor 5
        { onLine (.responders [deviceA]) (sendThen 0 (.reset true)) with host := [⟨.timed 0, .reset true⟩] }) = .next t ∧
      (onLine (.responders [deviceA]) (sendThen 0 (.reset true))).bus.clock + 5 + 0 < t.bus.clock) :=
  ⟨inv_of_test (by decide), rfl, _, rfl, by decide⟩

/-- ResetKeepsParametersAndResponders: reset held, an action to come; reset not asserted. -/
theorem witness_reset : held.Inv ∧ held.inReset = true ∧ (0xFFC % 4 = 0 ∧ 0 % 4 = 0) ∧ State.reset.inReset = false ∧
    ({ held with host := [⟨.timed 3, .reset false⟩] } : State).host = ⟨.timed 3, .reset false⟩ :: [] :=
  ⟨State.Inv.inReset (by decide) Bus.start [] [], by decide⟩

/-- StatusBitsAndTheirWrite: a status read at the last tick of a command, and one tick later. -/
theorem witness_status_read : ((sendThen 559 (.read 4 4)).Inv ∧ (sendThen 559 (.read 4 4)).inReset = false ∧ ∃ t,
      exec (.sendByte 1#8) (idleFor 5 { sendThen 559 (.read 4 4) with host := [⟨.timed 559, .read 4 4⟩] }) = .next t ∧
      (sendThen 559 (.read 4 4)).bus.clock + 5 + 559 < t.bus.clock) ∧
    ((sendThen 560 (.read 4 4)).Inv ∧ (sendThen 560 (.read 4 4)).inReset = false ∧ ∃ t,
      exec (.sendByte 1#8) (idleFor 5 { sendThen 560 (.read 4 4) with host := [⟨.timed 560, .read 4 4⟩] }) = .next t ∧
      ¬ (sendThen 560 (.read 4 4)).bus.clock + 5 + 560 < t.bus.clock) :=
  ⟨⟨sendThen_inv _ _, rfl, _, rfl, by decide⟩, sendThen_inv _ _, rfl, _, rfl, by decide⟩

theorem witness_status : (State.reset.Inv ∧ State.reset.inReset = false ∧ Instr.count.wellFormed State.reset.cfg = true ∧
      ∃ t, exec .count State.reset = .next t) ∧ decode 0x00000000#32 = .error .opcode ∧ 3 ≤ 31 :=
  ⟨⟨reset_inv, rfl, rfl, _, rfl⟩, by decide⟩

/-- RegisterOffsetsReadAsStated: IDLE, and the ends of the reserved and of the read-only offsets. -/
theorem witness_offsets : State.reset.seq = .idle ∧ (0x14 ≤ 0x14 ∧ 0x14 ≤ 0xFC ∧ 0x14 % 4 = 0) ∧
    (0x14 ≤ 0xFC ∧ 0xFC ≤ 0xFC ∧ 0xFC % 4 = 0) ∧ (0x08 ≤ 0x08 ∧ 0x08 ≤ 0xFC ∧ 0x08 % 4 = 0) := by decide

/-- WindowIsAnImageOfTheRegistry: the first and the last slot, the first offset beyond, and the window's own first offset. -/
theorem witness_window : twoDevices.seq = .idle ∧ 0#8 < twoDevices.cfg.cap ∧ 3#8 < twoDevices.cfg.cap ∧
    (0x100 + 16 * twoDevices.cfg.cap.toNat ≤ 0x140 ∧ 0x140 % 4 = 0) ∧ (0x100 ≤ 0x100 ∧ 0x100 % 4 = 0) := by decide

/-- HostAccessesHaveTheStatedSideEffects. -/
theorem witness_side_effects : State.reset.seq = .idle ∧ State.reset.inReset = false ∧ 0x13C % 4 = 0 ∧ (0x00000002#32).getLsbD 1 = true ∧
    (0xFFFFFFFD#32).getLsbD 1 = false ∧ (0x08 % 4 = 0 ∧ 0x08 ≠ 0x00 ∧ 0x08 ≠ 0x04) := by decide

/-- HostAccessesWhileBusy: the registers, and the first and the last word of the window. -/
theorem witness_busy : running.inReset = false ∧ isBusy running = true ∧ (0x100 ≤ 0x100 ∧ 0x100 < 0x100 + 16 * running.cfg.cap.toNat ∧ 0x100 % 4 = 0) ∧
    (0x100 ≤ 0x13C ∧ 0x13C < 0x100 + 16 * running.cfg.cap.toNat ∧ 0x13C % 4 = 0) := by decide

/-- UnsupportedAccessIsRefused: narrow, wide, not aligned. -/
theorem witness_unsupported : (2 ≠ 4 ∨ 8 % 4 ≠ 0) ∧ (8 ≠ 4 ∨ 8 % 4 ≠ 0) ∧ (4 ≠ 4 ∨ 6 % 4 ≠ 0) := by decide

/-- The statements whose only hypothesis is `SEQ = IDLE`: CheckPresenceResult, WriteBitResult, ReadBitResult, SendByteResult,
ReadByteResult, CountResult, StartConversionResult, Crc8UpdateResult. -/
theorem witness_idle : State.reset.seq = .idle ∧ twoDevices.seq = .idle := by decide

/-- The statements whose only hypothesis is the invariant: DiscoverResult, DiscoveryOutcomeTable, ReadAllResult, ProcessResult,
DurationOfEveryCommand. -/
theorem witness_inv : State.reset.Inv ∧ twoDevices.Inv := ⟨reset_inv, twoDevices_inv⟩

/-- PresenceCheckResetsTheResponders: nobody, and two. -/
theorem witness_responders : (onLine (.responders []) State.reset).bus.env = .responders [] ∧
    (onLine (.responders [deviceA, deviceB]) State.reset).bus.env = .responders [deviceA, deviceB] ∧
    (onLine (.responders []) State.reset).seq = .idle ∧
    (onLine (.unsettled []) State.reset).bus.env = .unsettled [] ∧ (onLine (.unsettled []) State.reset).seq = .idle ∧
    (onLine (.unsettled [deviceA, deviceB]) State.reset).bus.env = .unsettled [deviceA, deviceB] := by decide

/-- LoopBackReturnsTheByteSent: the byte 0x81 sent, the line of the second state echoing it. -/
theorem witness_loop_back : ∃ t u : State, exec (.sendByte 0x81#8) State.reset = .next t ∧ u.seq = .idle ∧
    u.bus.env = .oracle ((t.bus.events.drop State.reset.bus.events.length).map echo ++ []) :=
  ⟨_, onLine (.oracle [false, true, true, true, true, true, true, false]) State.reset, rfl, rfl, by decide⟩

/-- ClearResult and SelectResult: memory in form, the last slot; a cache address is none of CLEAR's. -/
theorem witness_registry : twoDevices.seq = .idle ∧ Memory.wf twoDevices.mem = true ∧ 3#8 < twoDevices.cfg.cap ∧ 7 < 8 ∧
    (∀ k j : Nat, k < 4 → j < 8 → 8 ≠ 16 * k + j) := by
  refine ⟨by decide, by decide, by decide, by decide, ?_⟩
  intro k j hk hj
  omega

/-- RegistryByteReadsAsLastWritten: the last byte that holds storage, the first of a slot that does not, the first beyond CAP. -/
theorem witness_storage : Memory.wf twoDevices.mem = true ∧ (57 < 16 * twoDevices.cfg.cap.toNat ∧ 57 % 16 < 10) ∧
    ¬ (58 < 16 * twoDevices.cfg.cap.toNat ∧ 58 % 16 < 10) ∧ ¬ (64 < 16 * twoDevices.cfg.cap.toNat ∧ 64 % 16 < 10) := by decide

/-- IdentityBitPositions: the first and the last position of the last slot. -/
theorem witness_positions : Memory.wf twoDevices.mem = true ∧ 3#8 < twoDevices.cfg.cap ∧ 0 < 64 ∧ 63 < 64 ∧ 63 ≠ 0 := by decide

/-- SelectAddressesTheDeviceOfItsSlot: the device of the slot and another. -/
theorem witness_select : 1#8 < twoDevices.cfg.cap ∧ twoDevices.cfg.cmdMatch ≠ twoDevices.cfg.cmdSearch ∧
    (∀ r ∈ [deviceA.onReset, deviceB.onReset], r.mode = .romCmd 0 0#8) ∧
    (onLine (.responders [deviceA.onReset, deviceB.onReset]) twoDevices).bus.env =
      .responders [deviceA.onReset, deviceB.onReset] ∧
    holdsIdentity 1#8 twoDevices deviceA = true ∧ holdsIdentity 1#8 twoDevices deviceB = false := by decide

/-- SearchPassResult and DeviationValuesOfAPass: both variants, the ends of `last`, a script of pairs that ends in a pair of ones
(V45). -/
theorem witness_search : twoDevices.seq = .idle ∧
    (onLine (.oracle [true, false, true, false, false, false, true]) twoDevices).bus.env =
      .oracle (pairScript [(true, false), (true, false), (false, false)] ++ [true]) ∧ 3#8 < twoDevices.cfg.cap ∧ Memory.wf twoDevices.mem = true ∧
    twoDevices.cfg.variant = .source ∧ (63#8).toNat ≤ 63 ∧
    (State.resetWith { Config.default with variant := .standard }).cfg.variant = .standard := by decide

/-- DiscoverResult: a script, and none. -/
theorem witness_script : (onLine (.oracle [true, false]) twoDevices).Inv ∧
    (onLine (.oracle [true, false]) twoDevices).bus.env = .oracle [true, false] ∧ State.reset.Inv ∧ State.reset.bus.env = .oracle [] :=
  ⟨inv_of_test (by decide), by decide, reset_inv, by decide⟩

/-- DiscoveryOnASilentLine. -/
theorem witness_silent : (onLine (.responders []) twoDevices).Inv ∧
    (envReset (onLine (.responders []) twoDevices).bus.env (onLine (.responders []) twoDevices).bus.draws).low = false :=
  ⟨inv_of_test (by decide), by decide⟩

/-- SourceDiscoveryRunsAtMost64Passes. -/
theorem witness_source : twoDevices.Inv ∧ twoDevices.cfg.variant = .source := ⟨twoDevices_inv, rfl⟩

/-- LoneResponderIsDiscovered: a responder in the middle of a search, under either variant. -/
theorem witness_lone : (onLine (.responders [{ deviceA with mode := .search 5 .choice }]) twoDevices).Inv ∧
    (onLine (.responders [deviceA]) (State.resetWith { Config.default with variant := .standard })).Inv :=
  ⟨inv_of_test (by decide), inv_of_test (by decide)⟩

/-- ReadAllReadsTheRegisteredDevice: a scratchpad that folds to 0, and one that does not. -/
def oneDevice (pad : List Byte) : State :=
  { onLine (.responders [{ deviceB with pad := pad }]) twoDevices with count := 1#8 }

set_option maxRecDepth 100000 in
theorem witness_read : (oneDevice deviceB.pad).Inv ∧ (oneDevice deviceB.pad).count = 1#8 ∧
    (oneDevice deviceB.pad).cfg.cmdMatch ≠ (oneDevice deviceB.pad).cfg.cmdSearch ∧
    holdsIdentity 0#8 (oneDevice deviceB.pad) deviceB = true ∧ deviceB.pad.length = (oneDevice deviceB.pad).cfg.spLen.toNat ∧
    crcFold 0#8 deviceB.pad = 0#8 ∧ deviceB.wf (oneDevice deviceB.pad).cfg = true ∧ crcFold 0#8 [0, 0, 0, 0, 0, 0, 0, 0, 1] ≠ 0#8 :=
  ⟨inv_of_test (by decide), by decide⟩

/-- StuckLowLineCommitsZeros: one device registered; the ends of the lengths. -/
theorem witness_stuck_low : (onLine (.oracle (List.replicate 73 true)) { State.reset with count := 1#8 }).Inv ∧
    Env.oracle (List.replicate 73 true) =
      .oracle (List.replicate ((1#8).toNat * (1 + 8 * Config.default.spLen.toNat)) true) ∧ 3 ≤ 3 ∧ 11 ≤ 11 ∧ 0#8 < 1#8 :=
  ⟨inv_of_test (by decide), by decide⟩

/-- StartConversionResult: nobody present, somebody present, PARASITE 0 and 1. -/
theorem witness_start : (envReset (.responders []) 0).low = false ∧ (envReset (.responders [deviceA]) 0).low = true ∧
    Config.default.parasite = false ∧ { Config.default with parasite := true }.parasite = true := by decide

/-- HighDriveLastsUntilTheNextSlot: a state with the line driven high; READ_ALL on both sides of its condition. -/
theorem witness_high : State.Inv { State.resetWith { Config.default with parasite := true } with drv := .high } ∧
    noBusActivity State.reset .readAll = true ∧ noBusActivity twoDevices .readAll = false ∧
    noBusActivity twoDevices .clear = true ∧ noBusActivity twoDevices (.select 3#8) = false ∧
    (Instr.select 3#8).wellFormed twoDevices.cfg = true ∧ (∃ t, hostAccess (.reset true) twoDevices = .next t) :=
  ⟨inv_of_test (by decide), by decide, by decide, by decide, by decide, by decide, _, rfl⟩

/-- GetTemperatureResult: the last index below COUNT, the first beyond, both families. -/
theorem witness_temperature : twoDevices.Inv ∧ 1#8 < twoDevices.count ∧ twoDevices.count ≤ 2#8 ∧
    idByte 1#8 0 twoDevices = twoDevices.cfg.hiresFamily ∧ idByte 0#8 0 twoDevices ≠ twoDevices.cfg.hiresFamily :=
  ⟨twoDevices_inv, by decide⟩

/-- ChecksumStepIsLinearAndBijective. -/
theorem witness_checksum : crc8Update 0x00#8 0x55#8 = crc8Update 0x00#8 0x55#8 := by decide

/-- InvariantHoldsAtReset: the smallest and the largest CAP and SP_LEN. -/
theorem witness_config : { Config.default with cap := 1#8, spLen := 3#8 }.wf = true ∧
    { Config.default with cap := 255#8, spLen := 255#8 }.wf = true := by decide

set_option maxRecDepth 100000 in
/-- EveryStepKeepsTheInvariant: a command, and a wait; reference responders on the line. -/
theorem witness_invariant_step : (sendThen 3 (.reset true)).Inv ∧ (∃ t, step (sendThen 3 (.reset true)) = .next t) ∧
    twoDevices.Inv ∧ (∃ t, step twoDevices = .next t) ∧
    (onLine (.responders [deviceA, deviceB]) twoDevices).Inv ∧
    Env.wf twoDevices.cfg (onLine (.responders [deviceA, deviceB]) twoDevices).bus.env = true ∧
    ∃ t, step (onLine (.responders [deviceA, deviceB]) twoDevices) = .next t :=
  ⟨sendThen_inv _ _, ⟨_, rfl⟩, twoDevices_inv, ⟨_, rfl⟩, inv_of_test (by decide), by decide, _, rfl⟩

set_option maxRecDepth 100000 in
/-- WritersOfCountAndLastdev and WritersOfTheRegistry: a command that runs, and COUNT and an identity byte changed by it. -/
theorem witness_writers : ∃ t, exec .clear twoDevices = .next t ∧ t.count ≠ twoDevices.count ∧
    idByte 1#8 7 t ≠ idByte 1#8 7 twoDevices :=
  ⟨_, rfl, by decide, by decide⟩

/-- CommandsAndResult: a command that leaves RESULT and one that writes it; a rejected word; a missing slot. -/
theorem witness_result : (∃ t, exec (.sendByte 1#8) twoDevices = .next t) ∧ (∃ t, exec .count twoDevices = .next t) ∧
    decode 0x00000010#32 = .error .opcode ∧ (∃ t, hostCommand 0x00000010#32 twoDevices = .next t) ∧
    (Instr.select 4#8).wellFormed twoDevices.cfg = false ∧ ∃ t, exec (.select 4#8) twoDevices = .next t :=
  ⟨⟨_, rfl⟩, ⟨_, rfl⟩, by decide, ⟨_, rfl⟩, by decide, _, rfl⟩

/-- EveryAcceptedCommandEnds: the last slot of SELECT. -/
theorem witness_ends : twoDevices.Inv ∧ (Instr.select 3#8).wellFormed twoDevices.cfg = true := ⟨twoDevices_inv, by decide⟩

/-- DatapathRegistersAreDead: two states that differ in datapath registers, agree in all that is live, meet the invariant, and
read alike. -/
theorem witness_dead : State.reset.cfg.wf = true ∧ State.reset.Inv ∧
    SameLive State.reset { State.reset with dp := { Datapath.reset with sr := 0xA5#8, byteidx := 7#8 } } ∧
    State.Inv { State.reset with dp := { Datapath.reset with sr := 0xA5#8, byteidx := 7#8 } } ∧
    (∀ off, off % 4 = 0 →
      regRead off State.reset = regRead off { State.reset with dp := { Datapath.reset with sr := 0xA5#8, byteidx := 7#8 } }) ∧
    State.reset ≠ { State.reset with dp := { Datapath.reset with sr := 0xA5#8, byteidx := 7#8 } } :=
  ⟨by decide, reset_inv, ⟨rfl, rfl, rfl, rfl, rfl, rfl, rfl, rfl, rfl, rfl, rfl, rfl⟩,
    ⟨by decide, by decide, by decide, by decide, by decide, rfl, by decide, rfl, fun e => absurd e (by decide)⟩, fun _ _ => rfl,
    fun h => absurd (congrArg (fun s => s.dp.sr) h)
      (show ¬ (0x00#8 = 0xA5#8) by decide)⟩

end Sys2Proof.Tests
end

/-! SUPPORT. The statements of 10_state.md: the step on a command word, the invariant, the dead registers, STATUS, the writers of
COUNT, LASTDEV and the registry, RESULT, and the reset values. -/

namespace Sys2Proof.Machine

/-! ## A command with everything it leaves unchanged -/

/-- What every command leaves alone, a rejected one too: the parameters, the reset input, the host's coming actions, the log of
reads, and the identities and scratchpads on the line; and the clock never goes back. -/
structure CommandFrame (s t : State) : Prop where
  cfg : t.cfg = s.cfg
  inReset : t.inReset = s.inReset
  host : t.host = s.host
  readLog : t.readLog = s.readLog
  clock : s.bus.clock ≤ t.bus.clock
  devices : t.bus.env.devices = s.bus.env.devices

theorem OpRun.commandFrame {touch : Nat → Prop} {s t : State} {new : List BusEvent} (o : OpRun touch s t new) :
    CommandFrame s t :=
  ⟨o.cfg, o.inReset, o.host, o.readLog, by rw [o.clock]; exact Nat.le_add_right .., o.line.devices⟩

/-- In a state of the invariant a command that answers a next state was rejected, or it was accepted and did all of
`CommandRun`. -/
theorem State.Inv.exec_cases {s t : State} {i : Instr} (h : s.Inv) (e : Machine.exec i s = .next t) :
    (t = Machine.reject s ∧ ¬ Accepted i s) ∨
      (Accepted i s ∧ t = complete (bodyOf i (accept i s)) ∧ CommandRun i s t) := by
  rcases exec_next e with rejected | ⟨a, rfl⟩
  · exact .inl rejected
  · obtain ⟨u, hu, run⟩ := exec_run a (Nat.le_trans (by decide) (Config.wf_spLen h.cfgOk)) h.memWf
    obtain rfl : complete (bodyOf i (accept i s)) = u := Host.Outcome.next.inj (e.symm.trans hu)
    exact .inr ⟨a, rfl, run⟩

theorem State.Inv.exec_frame {s t : State} {i : Instr} (h : s.Inv) (e : Machine.exec i s = .next t) : CommandFrame s t := by
  rcases h.exec_cases e with ⟨rfl, -⟩ | ⟨-, -, run⟩
  · exact ⟨rfl, rfl, rfl, rfl, Nat.le_refl _, rfl⟩
  · obtain ⟨new, o⟩ := run.op
    exact o.commandFrame

/-- In a state of the invariant a well-formed command is accepted and runs to completion. -/
theorem State.Inv.exec_wellFormed {s t : State} {i : Instr} (h : s.Inv) (hw : i.wellFormed s.cfg = true)
    (e : Machine.exec i s = .next t) : t = complete (bodyOf i (accept i s)) ∧ CommandRun i s t := by
  rcases h.exec_cases e with ⟨-, rejected⟩ | ⟨-, done⟩
  · exact absurd ((h.accepted_iff i).2 hw) rejected
  · exact done

/-- An ill-formed one is rejected. -/
theorem State.Inv.exec_illFormed {s t : State} {i : Instr} (h : s.Inv) (hw : i.wellFormed s.cfg = false)
    (e : Machine.exec i s = .next t) : t = Machine.reject s := by
  rcases h.exec_cases e with ⟨rejected, -⟩ | ⟨a, -⟩
  · exact rejected
  · exact absurd ((h.accepted_iff i).1 a) (by rw [hw]; exact Bool.false_ne_true)

/-! ## A command word written at IDLE -/

/-- With reset released an idle machine runs the command its CMD register is given (R21). -/
theorem hostCommand_ok {s : State} {w : Word} {i : Instr} (hs : s.seq = .idle) (hr : s.inReset = false)
    (hd : decode w = .ok i) : hostCommand w s = exec i s := by
  simp only [hostCommand, hr, not_busy hs, hd, Bool.false_eq_true, reduceIte]

/-- With reset released a word that encodes no command is rejected, whether OWC is idle or not (R104, R240). -/
theorem hostCommand_error {s : State} {w : Word} {c : RejectCause} (hr : s.inReset = false) (hd : decode w = .error c) :
    hostCommand w s = .next (reject s) := by
  simp only [hostCommand, hr, hd, Bool.false_eq_true, reduceIte, ite_self]

theorem hostAccess_command {s : State} {w : Word} {i : Instr} (hs : s.seq = .idle) (hr : s.inReset = false)
    (hd : decode w = .ok i) : hostAccess (.write 0 4 w) s = exec i s := by
  simp only [hostAccess, supported, Nat.zero_mod, decide_true, Bool.and_self, reduceIte, hostCommand_ok hs hr hd]

theorem commandOf_write_cmd {w : Word} {i : Instr} (size : Nat) (hd : decode w = .ok i) :
    commandOf (.write 0 size w) = some i := by
  simp only [commandOf, hd, reduceIte]

/-- An action that starts a command is a write of that command's word to CMD. -/
theorem eq_write_of_commandOf {act : HostAct} {i : Instr} (h : commandOf act = some i) :
    ∃ size w, act = .write 0 size w ∧ decode w = .ok i := by
  cases act with
  | read off size => cases h
  | reset a => cases h
  | write off size w =>
    simp only [commandOf] at h
    split at h
    · next h0 =>
      split at h
      · next hd =>
        cases h
        exact ⟨size, w, by rw [h0], hd⟩
      · cases h
    · cases h

/-! ## What a host read shows -/

theorem append_bits_injective {n m : Nat} {a b : BitVec n} {c d : BitVec m} (h : a ++ c = b ++ d) : a = b ∧ c = d :=
  ⟨by simpa only [BitVec.extractLsb'_append_eq_left] using congrArg (BitVec.extractLsb' m n) h,
    by simpa only [BitVec.extractLsb'_append_eq_right] using congrArg (BitVec.extractLsb' 0 m) h⟩

theorem zextByte_injective {a b : Byte} (h : zextByte a = zextByte b) : a = b := by
  simpa only [zextByte, BitVec.truncate_eq_setWidth, BitVec.setWidth_setWidth_of_le _ (by decide : 8 ≤ 32), BitVec.setWidth_eq]
    using congrArg (BitVec.setWidth 8) h

/-- A word of the window is its four bytes. -/
theorem windowWord_injective {a : Nat} {s t : State} (h : windowWord a s = windowWord a t) :
    memRead a s = memRead a t ∧ memRead (a + 1) s = memRead (a + 1) t ∧ memRead (a + 2) s = memRead (a + 2) t ∧
      memRead (a + 3) s = memRead (a + 3) t := by
  obtain ⟨h321, h0⟩ := append_bits_injective h
  obtain ⟨h32, h1⟩ := append_bits_injective h321
  obtain ⟨h3, h2⟩ := append_bits_injective h32
  exact ⟨h0, h1, h2, h3⟩

/-- A read in the window returns its word of the registry (R67). -/
theorem regRead_window (a : Nat) (s : State) : regRead (0x100 + a) s = windowWord a s := by
  unfold regRead
  rw [if_neg (by omega), if_neg (by omega), if_neg (by omega), if_neg (by omega), if_pos (by omega), Nat.add_sub_cancel_left]

theorem isBusy_eq (s : State) : isBusy s = decide (s.seq ≠ .idle) := by
  unfold isBusy
  cases s.seq <;> simp

theorem isSpu_eq (s : State) : isSpu s = decide (s.drv = .high) := by
  unfold isSpu
  cases s.drv <;> rfl

/-- The bits of a STATUS word (R22). -/
theorem statusWord_getLsbD (s : State) (j : Nat) :
    (statusWord s).getLsbD j = if j = 0 then isBusy s else if j = 1 then s.ill else if j = 2 then isSpu s else false := by
  unfold statusWord
  simp only [BitVec.getLsbD_append, BitVec.getLsbD_ofBool, BitVec.getLsbD_zero]
  match j with
  | 0 => simp
  | 1 => simp
  | 2 => simp
  | j + 3 => simp

theorem statusWord_busy (s : State) : (statusWord s).getLsbD 0 = isBusy s := statusWord_getLsbD s 0
theorem statusWord_ill (s : State) : (statusWord s).getLsbD 1 = s.ill := statusWord_getLsbD s 1
theorem statusWord_spu (s : State) : (statusWord s).getLsbD 2 = isSpu s := statusWord_getLsbD s 2

/-- In a state of the invariant SPU tells the driver. -/
theorem State.Inv.drv_eq_of_isSpu {s t : State} (h : s.Inv) (g : t.Inv) (e : isSpu s = isSpu t) : t.drv = s.drv := by
  rw [isSpu_eq, isSpu_eq] at e
  rcases h.drvOk with hs | ⟨hs, -⟩ <;> rcases g.drvOk with ht | ⟨ht, -⟩ <;> simp_all

/-! ## The step on a command word -/

/-- Settles O7: the write to CMD is accepted after its gap, and what lands meanwhile is served from the state of acceptance. -/
theorem stepRunsTheDecodedCommand : Obligations.StepRunsTheDecodedCommand := by
  unfold Obligations.StepRunsTheDecodedCommand
  intro s e rest w i hs hr hh ha hd
  have starts : (if s.inReset then none else commandOf e.act) = some i := by
    rw [hr, ha]; exact commandOf_write_cmd 4 hd
  have access : hostAccess e.act (idleFor (gapOf e.arrival) { s with host := rest }) =
      exec i (idleFor (gapOf e.arrival) { s with host := rest }) := by
    rw [ha]; exact hostAccess_command ((idleFor_seq _ _).trans hs) ((idleFor_inReset _ _).trans hr) hd
  have run : step s = serveHost e { s with host := rest } := by simp only [step, serveNext, hh]
  simp only [serveHost, starts, access] at run
  exact run

/-- A word of a row of opcode_table.json is decoded by the decoder. -/
theorem decode_of_decodeTableWord {nbits w : Nat} {i : Instr} (h : decodeTableWord nbits w = some i) :
    decode (BitVec.ofNat 32 (w % 2 ^ nbits)) = .ok i := by
  unfold decodeTableWord at h
  split at h
  · split at h
    · next hd => rw [hd, Option.some.inj h]
    · cases h
  · cases h

/-- The reset input released leaves a state of the invariant. -/
theorem State.Inv.release {s : State} (h : s.Inv) : State.Inv { s with inReset := false } :=
  ⟨h.cfgOk, h.memWf, h.memIn, h.countLe, h.lastdevOk, h.seqIdle, h.drvOk, h.tickIdle, fun e => absurd e Bool.false_ne_true⟩

theorem idleFor_zero (s : State) : idleFor 0 s = s := rfl

/-- Settles O8: the placed word is the only action of the host, so nothing lands while its command runs. -/
theorem stepOfAPlacedCommandIsExec : Obligations.StepOfAPlacedCommandIsExec := by
  unfold Obligations.StepOfAPlacedCommandIsExec
  intro s nbits w i h hh hd
  have start : ({ s.withFetchWord nbits w with host := [] } : State) = { s with inReset := false } := by
    simp only [State.withFetchWord, placeCommand, ← hh, ← h.seqIdle]
  rw [stepRunsTheDecodedCommand (s.withFetchWord nbits w) _ _ _ i rfl rfl (congrArg _ hh) rfl (decode_of_decodeTableWord hd)]
  simp only [gapOf, idleFor_zero, start]
  cases e : exec i { s with inReset := false } with
  | next t =>
    have host : t.host = [] := (h.release.exec_frame e).host.trans hh
    simp only [serveBusy, ← host]
  | fault f => rfl
  | refused r => rfl

/-! ## Every step keeps the invariant -/

/-- The same build-time parameters, and the same identities and scratchpads on the line. -/
structure SameDevices (s t : State) : Prop where
  cfg : t.cfg = s.cfg
  devices : t.bus.env.devices = s.bus.env.devices

theorem SameDevices.refl (s : State) : SameDevices s s := ⟨rfl, rfl⟩

theorem SameDevices.trans {s t u : State} (h : SameDevices s t) (g : SameDevices t u) : SameDevices s u :=
  ⟨g.cfg.trans h.cfg, g.devices.trans h.devices⟩

theorem CommandFrame.sameDevices {s t : State} (h : CommandFrame s t) : SameDevices s t := ⟨h.cfg, h.devices⟩

/-- Responders that are as R90 says stay so where identities and scratchpads do. -/
theorem SameDevices.wf {s t : State} (h : SameDevices s t) (w : s.bus.env.wf s.cfg = true) : t.bus.env.wf t.cfg = true := by
  rw [h.cfg]; exact Env.wf_of_devices h.devices w

theorem idleFor_devices (n : Nat) (s : State) : SameDevices s (idleFor n s) :=
  ⟨idleFor_cfg n s, congrArg Env.devices (idleFor_env n s)⟩

theorem hostRead_devices (off : Nat) (s : State) : SameDevices s (hostRead off s) := by
  unfold hostRead
  split <;> exact ⟨rfl, rfl⟩

theorem hostWrite_devices (off : Nat) (w : Word) (s : State) : SameDevices s (hostWrite off w s) := by
  unfold hostWrite
  split
  · exact .refl s
  · split <;> exact ⟨rfl, rfl⟩

theorem State.Inv.hostCommand_devices {s t : State} {w : Word} (h : s.Inv) (e : hostCommand w s = .next t) :
    SameDevices s t := by
  by_cases hr : s.inReset = true
  · simp only [hostCommand, hr, reduceIte] at e
    cases e
    exact .refl s
  · have hr : s.inReset = false := by simpa using hr
    cases hd : decode w with
    | error c =>
      rw [hostCommand_error hr hd] at e
      cases e
      exact ⟨rfl, rfl⟩
    | ok i =>
      rw [hostCommand_ok h.seqIdle hr hd] at e
      exact (h.exec_frame e).sameDevices

/-- An action of the host at IDLE changes no parameter, no identity and no scratchpad. -/
theorem State.Inv.hostAccess_devices {s t : State} {act : HostAct} (h : s.Inv) (e : Machine.hostAccess act s = .next t) :
    SameDevices s t := by
  cases act with
  | read off size =>
    simp only [Machine.hostAccess] at e
    split at e
    · cases e; exact hostRead_devices off s
    · cases e
  | write off size w =>
    simp only [Machine.hostAccess] at e
    split at e
    · split at e
      · exact h.hostCommand_devices e
      · cases e; exact hostWrite_devices off w s
    · cases e
  | reset asserted =>
    simp only [Machine.hostAccess] at e
    cases e
    exact ⟨setReset_cfg asserted s, congrArg (fun b : Bus => b.env.devices) (setReset_bus asserted s)⟩

/-- An access served while `op` runs changes no parameter and nothing of the line's other side. -/
theorem SameDevices.busyAccess {s0 t v : State} {op : Instr} {act : HostAct} (d : SameDevices s0 t)
    (hn : ∀ a, act ≠ .reset a) (e : hostAccess act (busyView op t) = .next v) :
    SameDevices s0 { v with seq := t.seq, drv := t.drv } := by
  rw [hostAccess_busy (busyView_busy op t) hn e]
  exact ⟨d.cfg, d.devices⟩

/-- A reset in the middle of an operation unsettles the responders, with their identities and scratchpads (R272). -/
theorem cutByReset_devices {s0 t : State} (d : SameDevices s0 t) (n : Nat) (rest : List HostEvent) :
    SameDevices s0 (cutByReset s0 t n rest) :=
  ⟨d.cfg, by simp only [cutByReset, unsettle_devices, lineAfter_devices]⟩

/-- The actions that land while an operation runs change no parameter, no identity and no scratchpad. -/
theorem serveBusy_devices {op : Instr} {s0 : State} {dur : Nat} {q : List HostEvent} {el : Nat} {t u : State}
    (d : SameDevices s0 t) (e : serveBusy op s0 dur q el t = .next u) : SameDevices s0 u := by
  induction q generalizing el t with
  | nil =>
    simp only [serveBusy] at e
    cases e
    exact ⟨d.cfg, d.devices⟩
  | cons ev rest ih =>
    simp only [serveBusy] at e
    split at e
    · cases e
      exact ⟨d.cfg, d.devices⟩
    · split at e
      · split at e
        · cases e; exact cutByReset_devices d _ rest
        · exact ih d e
        · split at e
          · next hv => exact ih (d.busyAccess (by simp) hv) e
          · cases e
          · cases e
        · split at e
          · next hv => exact ih (d.busyAccess (by simp) hv) e
          · cases e
          · cases e
      · cases e
        exact ⟨d.cfg, d.devices⟩

/-- All the host's next action can do that answers a next state: it is served alone, or it is a command with what lands
while that runs. -/
theorem serveHost_cases {e : HostEvent} {s u : State} (h : serveHost e s = .next u) :
    hostAccess e.act (idleFor (gapOf e.arrival) s) = .next u ∨
      ∃ op t dur, s.inReset = false ∧ commandOf e.act = some op ∧
        hostAccess e.act (idleFor (gapOf e.arrival) s) = .next t ∧
        serveBusy op (idleFor (gapOf e.arrival) s) dur s.host 0 t = .next u := by
  simp only [serveHost] at h
  split at h
  · exact .inl h
  · next op hop =>
    split at hop
    · cases hop
    · next hr =>
      split at h
      · next t ht => exact .inr ⟨op, t, _, by simpa using hr, hop, ht, h⟩
      · cases h
      · cases h

/-- The next state a command's action answers is that of the command. -/
theorem exec_of_commandOf {s t : State} {act : HostAct} {i : Instr} (hs : s.seq = .idle) (hr : s.inReset = false)
    (hc : commandOf act = some i) (e : hostAccess act s = .next t) : exec i s = .next t := by
  obtain ⟨size, w, rfl, hd⟩ := eq_write_of_commandOf hc
  simp only [hostAccess, reduceIte, hostCommand_ok hs hr hd] at e
  split at e
  · exact e
  · cases e

/-- Whatever the host's next action is, it keeps the invariant and the devices on the line. -/
theorem State.Inv.serveHost {e : HostEvent} {s u : State} (h : s.Inv) (hu : Machine.serveHost e s = .next u) :
    u.Inv ∧ SameDevices s u := by
  have h1 := h.idleFor (gapOf e.arrival)
  have d1 := idleFor_devices (gapOf e.arrival) s
  rcases serveHost_cases hu with ha | ⟨op, t, dur, hr, hop, ha, hb⟩
  · exact ⟨h1.hostAccess ha, d1.trans (h1.hostAccess_devices ha)⟩
  · have hr1 := (idleFor_inReset (gapOf e.arrival) s).trans hr
    have frame := h1.exec_frame (exec_of_commandOf h1.seqIdle hr1 hop ha)
    exact ⟨(h1.hostAccess ha).serveBusy (frame.inReset.trans hr1) hb, d1.trans (serveBusy_devices frame.sameDevices hb)⟩

/-- Settles O54: a step is the host's next action, which keeps the invariant and every identity and scratchpad; whether the
responders are as R90 says depends on those alone. -/
theorem everyStepKeepsTheInvariant : Obligations.EveryStepKeepsTheInvariant := by
  unfold Obligations.EveryStepKeepsTheInvariant
  intro s t h e
  simp only [step, serveNext] at e
  split at e
  · cases e
    exact ⟨h, id⟩
  · next ev rest _ =>
    obtain ⟨inv, same⟩ := (h.setOutside s.bus rest s.readLog).serveHost e
    exact ⟨inv, fun w => same.wf w⟩

/-! ## Dead registers -/

theorem SameLive.isBusy {s t : State} (h : SameLive s t) : isBusy t = isBusy s := by
  unfold Machine.isBusy; rw [h.seq]

theorem SameLive.reject {s t : State} (h : SameLive s t) : SameLive (reject s) (reject t) :=
  ⟨h.1, rfl, h.3, h.4, h.5, h.6, h.7, h.8, h.9, h.10, h.11, h.12⟩

theorem SameLive.accept {s t : State} (h : SameLive s t) (op : Instr) : SameLive (accept op s) (accept op t) :=
  ⟨h.1, h.2, h.3, h.4, h.5, h.6, rfl, h.8, h.9, h.10, h.11, h.12⟩

theorem SameLive.complete {s t : State} (h : SameLive s t) : SameLive (complete s) (complete t) :=
  ⟨h.1, h.2, h.3, h.4, h.5, h.6, rfl, h.8, h.9, h.10, h.11, h.12⟩

theorem SameLive.setResult {s t : State} (h : SameLive s t) {v w : Word} (e : w = v) :
    SameLive (setResult v s) (setResult w t) :=
  ⟨h.1, h.2, e, h.4, h.5, h.6, h.7, h.8, h.9, h.10, h.11, h.12⟩

theorem SameLive.getTemperatureBody {s t : State} (h : SameLive s t) (k : Byte) :
    SameLive (getTemperatureBody k s) (getTemperatureBody k t) := by
  unfold Machine.getTemperatureBody
  rw [h.count, h.bus]
  split
  · refine h.setResult ?_
    unfold idByte cacheByte
    rw [h.cfg, h.memRead, h.memRead, h.memRead]
  · exact ⟨h.1, h.2, rfl, rfl, h.5, h.6, h.7, h.8, rfl, h.10, h.11, h.12⟩

theorem SameLive.processBody {s t : State} (h : SameLive s t) (hsp : 2 ≤ s.cfg.spLen.toNat) :
    SameLive (processBody s) (processBody t) := by
  obtain ⟨answer, after⟩ := (h.readAll hsp).checkPresence
  rw [processBody_eq, processBody_eq, answer]
  split
  · exact after.startConversion.setResult (congrArg zextByte after.startConversion.count)
  · exact after.setResult (congrArg zextByte after.count)

/-- No operation depends on a datapath register it finds (R45). -/
theorem SameLive.bodyOf {s t : State} (h : SameLive s t) (hsp : 2 ≤ s.cfg.spLen.toNat) (i : Instr) :
    SameLive (bodyOf i s) (bodyOf i t) := by
  cases i with
  | checkPresence => exact h.checkPresence.2.setResult (congrArg zextBit h.checkPresence.1)
  | writeBit v => exact h.writeBit v
  | readBit => exact h.readBit.2.setResult (congrArg zextBit h.readBit.1)
  | sendByte b => exact h.sendByte b
  | readByte => exact h.readByte.2.setResult (congrArg zextByte h.readByte.1)
  | clear => exact h.clearRegistry
  | select k => exact h.selectDevice k
  | count => exact h.setResult (congrArg zextByte h.count)
  | searchPass k last => exact (h.searchPass k last).2.setResult (congrArg zextByte (h.searchPass k last).1)
  | discover => exact h.discover.setResult (congrArg zextByte h.discover.count)
  | readAll => exact h.readAll hsp
  | startConversion => exact h.startConversion
  | getTemperature k => exact h.getTemperatureBody k
  | process => exact h.processBody hsp
  | crc8Update c b => exact h.setResult rfl

/-- A command whose operation does not depend on the datapath does not either, accepted or rejected. -/
theorem SameLive.issue {s t : State} (h : SameLive s t) {op : Instr} {body : State → State}
    (hb : SameLive (body (Machine.accept op s)) (body (Machine.accept op t))) :
    SameOutcome (issue op body s) (issue op body t) := by
  unfold Machine.issue
  rw [h.isBusy]
  split
  · exact h.reject
  · exact hb.complete

theorem SameLive.issueWithin {s t : State} (h : SameLive s t) {op : Instr} {body : State → State} {p q : Bool} (e : q = p)
    (hb : SameLive (body (Machine.accept op s)) (body (Machine.accept op t))) :
    SameOutcome (issueWithin p op body s) (issueWithin q op body t) := by
  unfold Machine.issueWithin
  rw [h.isBusy, e]
  split
  · exact h.reject
  · split
    · exact hb.complete
    · rfl

theorem SameLive.issueSlot {s t : State} (h : SameLive s t) (k : Byte) {op : Instr} {body : State → State}
    (hb : SameLive (body (Machine.accept op s)) (body (Machine.accept op t))) :
    SameOutcome (issueSlot k op body s) (issueSlot k op body t) := by
  unfold Machine.issueSlot
  rw [h.isBusy, h.cfg]
  split
  · exact h.reject
  · split
    · exact hb.complete
    · exact h.reject

/-- Two states that differ in the datapath registers alone give, for every command, outcomes that differ in them alone. -/
theorem SameLive.exec {s t : State} (h : SameLive s t) (hsp : 2 ≤ s.cfg.spLen.toNat) (i : Instr) :
    SameOutcome (exec i s) (exec i t) := by
  have body := (h.accept i).bodyOf hsp i
  cases i with
  | checkPresence => exact h.issue body
  | writeBit v => exact h.issue body
  | readBit => exact h.issue body
  | sendByte b => exact h.issue body
  | readByte => exact h.issue body
  | clear => exact h.issue body
  | select k => exact h.issueSlot k body
  | count => exact h.issue body
  | searchPass k last => exact h.issueSlot k body
  | discover => exact h.issueWithin (by rw [h.cfg]) body
  | readAll => exact h.issueWithin (by rw [h.cfg, h.count]) body
  | startConversion => exact h.issue body
  | getTemperature k => exact h.issueWithin (by rw [h.cfg, h.count]) body
  | process => exact h.issueWithin (by rw [h.cfg, h.count]) body
  | crc8Update c b => exact h.issue body

theorem SameLive.regRead {s t : State} (h : SameLive s t) (off : Nat) : regRead off s = regRead off t := by
  rw [h.eq]; rfl

/-- Every register a host read shows is told by the reads, and so is every registry byte. -/
theorem State.Inv.eq_of_regRead {s t : State} (h : s.Inv) (g : t.Inv)
    (e : ∀ off, off % 4 = 0 → regRead off s = regRead off t) :
    t.ill = s.ill ∧ t.result = s.result ∧ t.count = s.count ∧ t.lastdev = s.lastdev ∧ t.drv = s.drv ∧
      ∀ a, memRead a t = memRead a s := by
  have status : statusWord s = statusWord t := e 0x04 rfl
  have ill : s.ill = t.ill := by rw [← statusWord_ill, status, statusWord_ill]
  have spu : isSpu s = isSpu t := by rw [← statusWord_spu, status, statusWord_spu]
  refine ⟨ill.symm, (e 0x08 rfl).symm, zextByte_injective (e 0x0C rfl).symm, zextByte_injective (e 0x10 rfl).symm,
    h.drv_eq_of_isSpu g spu, fun a => ?_⟩
  have word := e (0x100 + 4 * (a / 4)) (by omega)
  rw [regRead_window, regRead_window] at word
  obtain ⟨b0, b1, b2, b3⟩ := windowWord_injective word
  obtain ha | ha | ha | ha : a = 4 * (a / 4) ∨ a = 4 * (a / 4) + 1 ∨ a = 4 * (a / 4) + 2 ∨ a = 4 * (a / 4) + 3 := by omega
  · rw [ha]; exact b0.symm
  · rw [ha]; exact b1.symm
  · rw [ha]; exact b2.symm
  · rw [ha]; exact b3.symm

/-- Settles O60: no operation depends on a datapath register it finds, and no read shows one; the other way round, the reads
tell everything else that is live. -/
theorem datapathRegistersAreDead : Obligations.DatapathRegistersAreDead := by
  unfold Obligations.DatapathRegistersAreDead
  refine ⟨fun s s' hc h => ⟨fun i => ?_, fun off => h.regRead off⟩, fun s s' h g e => h.eq_of_regRead g e⟩
  exact h.exec (Nat.le_trans (by decide) (Config.wf_spLen hc)) i

/-! ## STATUS -/

theorem hostAccess_read_status (s : State) :
    hostAccess (.read 0x04 4) s = .next { s with readLog := s.readLog ++ [(0x04, statusWord s)] } := by
  have read : hostRead 0x04 s = { s with readLog := s.readLog ++ [(0x04, statusWord s)] } := by
    simp [hostRead, drawnWhileBusy, regRead]
  simp [hostAccess, supported, read]

theorem hostAccess_write_status {s : State} (w : Word) (hr : s.inReset = false) :
    hostAccess (.write 0x04 4 w) s = .next { s with ill := if w.getLsbD 1 then false else s.ill } := by
  have write : hostWrite 0x04 w s = { s with ill := if w.getLsbD 1 then false else s.ill } := by
    simp only [hostWrite, hr, Bool.false_eq_true, reduceIte, writeStatus]
    cases w.getLsbD 1 <;> simp
  simp [hostAccess, supported, write]

/-- STATUS as it is read while an operation runs: BUSY 1, SPU 0 (log 4). -/
theorem statusWord_busyView (op : Instr) (t : State) :
    statusWord (busyView op t) = 0#29 ++ 0#1 ++ BitVec.ofBool t.ill ++ 1#1 := rfl

/-- One STATUS read that lands before the last tick of an operation is served while BUSY; one at that tick or later waits. -/
theorem serveBusy_read_status (op : Instr) (s0 t : State) (dur d : Nat) :
    serveBusy op s0 dur [⟨.timed d, .read 0x04 4⟩] 0 t =
      if d < dur then
        .next { t with host := [], readLog := t.readLog ++ [(0x04, 0#29 ++ 0#1 ++ BitVec.ofBool t.ill ++ 1#1)] }
      else .next { t with host := [⟨.timed (d - dur), .read 0x04 4⟩] } := by
  simp only [serveBusy, Nat.zero_add, hostAccess_read_status, statusWord_busyView]
  rfl

/-- Settles O14: the bits of a STATUS word, its write, what leaves and what sets ILL, and a read that lands while a command
runs, on both sides of its last tick. -/
theorem statusBitsAndTheirWrite : Obligations.StatusBitsAndTheirWrite := by
  unfold Obligations.StatusBitsAndTheirWrite
  refine ⟨fun s => ⟨hostAccess_read_status s, ?_, statusWord_ill s, ?_, fun j hj => ?_⟩,
    fun s w hr => hostAccess_write_status w hr, fun i s t h hw e => ?_, fun w s c hr hd => hostCommand_error hr hd,
    fun s t w i g d h hr hh hd e => ?_⟩
  · rw [statusWord_busy, isBusy_eq]
  · rw [statusWord_spu, isSpu_eq]
  · rw [statusWord_getLsbD, if_neg (by omega), if_neg (by omega), if_neg (by omega)]
  · obtain ⟨-, run⟩ := h.exec_wellFormed hw e
    obtain ⟨new, o⟩ := run.op
    exact o.ill
  · have frame := ((h.setOutside s.bus [⟨.timed d, .read 0x04 4⟩] s.readLog).idleFor g).exec_frame e
    have log : t.readLog = s.readLog := by rw [frame.readLog, idleFor_readLog]
    have clock : s.bus.clock + g ≤ t.bus.clock := by simpa only [idleFor_clock] using frame.clock
    rw [stepRunsTheDecodedCommand s _ _ w i h.seqIdle hr hh rfl hd]
    simp only [gapOf, e, serveBusy_read_status, idleFor_clock, log]
    have before : d < t.bus.clock - (s.bus.clock + g) ↔ s.bus.clock + g + d < t.bus.clock := by omega
    have left : d - (t.bus.clock - (s.bus.clock + g)) = s.bus.clock + g + d - t.bus.clock := by omega
    simp only [before, left]

/-! ## Which registers and registry bytes a command may change -/

/-- Settles O55: `CommandRun` names the writers of COUNT and LASTDEV; a rejected command writes neither, and CLEAR is never
rejected. -/
theorem writersOfCountAndLastdev : Obligations.WritersOfCountAndLastdev := by
  unfold Obligations.WritersOfCountAndLastdev
  intro i s t h e
  rcases h.exec_cases e with ⟨rfl, rejected⟩ | ⟨-, ht, run⟩
  · refine ⟨fun c => absurd rfl c, h.countLe, ?_, fun c => absurd rfl c⟩
    rintro rfl
    exact absurd ((h.accepted_iff _).2 rfl) rejected
  · refine ⟨run.count.resolve_left, ?_, ?_, run.lastdev.resolve_left⟩
    · rw [(h.exec_frame e).cfg]; exact run.countLe h.countLe
    · rintro rfl
      rw [ht]; rfl

/-! The registry addresses of a footprint, slot by slot (R61). -/

theorem isIdOf_idAddr {k l : Byte} {j : Nat} (hj : j < 8) (h : isIdOf k (idAddr l j)) : l = k := by
  obtain ⟨n, hn, e⟩ := h
  unfold idAddr slotBase at e
  exact BitVec.eq_of_toNat_eq (by omega)

theorem isCacheOf_cacheAddr {k l : Byte} {j : Nat} (hj : j < 2) (h : isCacheOf k (cacheAddr l j)) : l = k := by
  obtain ⟨n, hn, e⟩ := h
  unfold cacheAddr slotBase at e
  exact BitVec.eq_of_toNat_eq (by omega)

theorem not_isCacheOf_idAddr {k l : Byte} {j : Nat} (hj : j < 8) : ¬ isCacheOf k (idAddr l j) := by
  rintro ⟨n, hn, e⟩
  unfold idAddr cacheAddr slotBase at e
  omega

theorem not_isIdOf_cacheAddr {k l : Byte} {j : Nat} (hj : j < 2) : ¬ isIdOf k (cacheAddr l j) := by
  rintro ⟨n, hn, e⟩
  unfold idAddr cacheAddr slotBase at e
  omega

/-- The commands whose footprint holds an identity byte (R36). -/
theorem footprint_idAddr {c : Config} {count : Byte} {i : Instr} {k : Byte} {j : Nat} (hj : j < 8)
    (h : footprint c count i (idAddr k j)) : i = .clear ∨ i = .discover ∨ ∃ last, i = .searchPass k last := by
  cases i with
  | clear => exact .inl rfl
  | discover => exact .inr (.inl rfl)
  | searchPass l last =>
    obtain rfl := isIdOf_idAddr hj h
    exact .inr (.inr ⟨last, rfl⟩)
  | readAll =>
    obtain ⟨l, -, -, hl⟩ := h
    exact absurd hl (not_isCacheOf_idAddr hj)
  | process =>
    obtain ⟨l, -, -, hl⟩ := h
    exact absurd hl (not_isCacheOf_idAddr hj)
  | _ => exact h.elim

/-- The commands whose footprint holds a cache byte, and the slots whose it may be (R36). -/
theorem footprint_cacheAddr {c : Config} {count : Byte} {i : Instr} {k : Byte} {j : Nat} (hj : j < 2)
    (h : footprint c count i (cacheAddr k j)) : (i = .readAll ∨ i = .process) ∧ k < count := by
  have below : isCacheIn 0 count.toNat (cacheAddr k j) → k < count := by
    rintro ⟨l, -, hl, hc⟩
    obtain rfl := isCacheOf_cacheAddr hj hc
    exact BitVec.lt_def.2 (by omega)
  cases i with
  | readAll => exact ⟨.inl rfl, below h⟩
  | process => exact ⟨.inr rfl, below h⟩
  | searchPass l last => exact absurd h (not_isIdOf_cacheAddr hj)
  | clear =>
    obtain ⟨l, -, hl⟩ := h
    exact absurd hl (not_isIdOf_cacheAddr hj)
  | discover =>
    obtain ⟨l, -, hl⟩ := h
    exact absurd hl (not_isIdOf_cacheAddr hj)
  | _ => exact h.elim

/-- A registry byte a command changes is in its footprint. -/
theorem State.Inv.exec_footprint {s t : State} {i : Instr} {a : Nat} (h : s.Inv) (e : Machine.exec i s = .next t)
    (changed : memRead a t ≠ memRead a s) : footprint s.cfg s.count i a := by
  rcases h.exec_cases e with ⟨rfl, -⟩ | ⟨-, -, run⟩
  · exact absurd rfl changed
  · obtain ⟨new, o⟩ := run.op
    exact Classical.byContradiction fun outside => changed (o.other a outside)

/-- Settles O56: a byte a command changes is in its footprint, which holds identity bytes for CLEAR, DISCOVER and SEARCH_PASS
only, and cache bytes for READ_ALL and PROCESS only. -/
theorem writersOfTheRegistry : Obligations.WritersOfTheRegistry := by
  unfold Obligations.WritersOfTheRegistry
  intro i s t h e
  exact ⟨fun k j hj changed => footprint_idAddr hj (h.exec_footprint e changed),
    fun k j hj changed => footprint_cacheAddr hj (h.exec_footprint e changed)⟩

/-! ## What a command leaves in RESULT -/

theorem clearRegistry_result (s : State) : (clearRegistry s).result = s.result := by rw [clearRegistry_eq]

/-- GET_TEMPERATURE of a device below COUNT (R207, R208). -/
theorem getTemperatureBody_below {k : Byte} {s : State} (hk : k < s.count) :
    getTemperatureBody k s = setResult (decodeTemp s.cfg (idByte k 0 s) (cacheByte k 0 s) (cacheByte k 1 s)) s := if_pos hk

/-- DISCOVER and PROCESS put the COUNT register they leave into RESULT (R23, R190, R212). -/
theorem discoverBody_result (s : State) : (discoverBody s).result = zextByte (discoverBody s).count := rfl
theorem processBody_result (s : State) : (processBody s).result = zextByte (processBody s).count := by
  rw [processBody_eq, setResult_result, setResult_count]

theorem hostCommand_error_result {s t : State} {w : Word} {c : RejectCause} (hd : decode w = .error c)
    (e : hostCommand w s = .next t) : t.result = s.result := by
  cases hr : s.inReset with
  | true =>
    simp only [hostCommand, hr, reduceIte] at e
    cases e; rfl
  | false =>
    rw [hostCommand_error hr hd] at e
    cases e; rfl

/-- Settles O57: an accepted command's RESULT is read off its operation, one command at a time; a rejection leaves RESULT. -/
theorem commandsAndResult : Obligations.CommandsAndResult := by
  unfold Obligations.CommandsAndResult
  refine ⟨fun i s t h hw e => ?_, fun w s t c hd e => hostCommand_error_result hd e, fun i s t h hw e => ?_⟩
  · obtain ⟨rfl, -⟩ := h.exec_wellFormed hw e
    have hsp : 2 ≤ s.cfg.spLen.toNat := Nat.le_trans (by decide) (Config.wf_spLen h.cfgOk)
    simp only [complete_result, complete_count, complete_lastdev, complete_bus]
    refine ⟨?_, ?_, ?_, ?_, ?_, ?_, ?_, ?_⟩
    · rintro (⟨v, rfl⟩ | ⟨b, rfl⟩ | rfl | ⟨k, rfl⟩ | rfl | rfl)
      · exact (writeBit_same v (accept _ s)).result
      · exact (sendByte_run b (accept _ s)).same.result
      · exact clearRegistry_result (accept _ s)
      · exact (selectDevice_run k (accept _ s)).same.result
      · obtain ⟨_, -, -, -, -, -, -, -, result, -⟩ := readAll_run (accept .readAll s) h.countLe hsp h.memWf
        exact result
      · obtain ⟨-, -, -, -, result, -⟩ := startConversion_run (fun _ => False) (accept .startConversion s)
        exact result
    · rintro rfl
      exact ⟨_, (checkPresence_run (accept .checkPresence s)).events, rfl⟩
    · rintro rfl
      exact ⟨_, (readBit_run (accept .readBit s)).events, rfl⟩
    · rintro rfl
      exact ⟨_, (readByte_run (accept .readByte s)).events, rfl⟩
    · rintro (rfl | rfl | rfl)
      · rfl
      · exact discoverBody_result _
      · exact processBody_result _
    · rintro ⟨k, last, rfl⟩
      have hk : k < s.cfg.cap := of_decide_eq_true hw
      obtain ⟨_, -, -, -, lastdev, -⟩ := searchPass_run k last (accept (.searchPass k last) s) hk h.memWf
      exact congrArg zextByte lastdev.symm
    · rintro k rfl hk
      exact congrArg State.result (getTemperatureBody_below (s := accept (.getTemperature k) s) hk)
    · rintro c b rfl
      rfl
  · rw [h.exec_illFormed hw e]; rfl

/-! ## Reset -/

/-- Every registry byte reads 0x00 after reset (R46). -/
theorem memRead_resetWith (c : Config) (a : Nat) : memRead a (State.resetWith c) = 0x00#8 := ite_self _

/-- Settles O18: the registers by definition of the reset state, the registry bytes because none is listed. -/
theorem resetValues : Obligations.ResetValues := by
  unfold Obligations.ResetValues
  intro c
  exact ⟨rfl, rfl, rfl, rfl, rfl, rfl, rfl, fun _ _ => memRead_resetWith c _, fun _ _ => memRead_resetWith c _,
    rfl, rfl, rfl, rfl, rfl, rfl, rfl, rfl, rfl, rfl, rfl, rfl, rfl, rfl, rfl, rfl, rfl, rfl⟩

theorem resetWithDevices_wf {c : Config} (h : c.wf = true) (rids : List (BitVec 64)) :
    (resetWithDevices c rids).bus.env.wf c = true := by
  refine List.all_eq_true.2 fun r hr => ?_
  obtain ⟨rid, -, rfl⟩ := List.mem_map.1 hr
  exact newResponder_wf c (Nat.lt_of_lt_of_le (by decide) (Config.wf_spLen h)) rid []

/-- Settles O53: reset leaves a state of the invariant whatever stands on the line, and new responders are as R90 says. -/
theorem invariantHoldsAtReset : Obligations.InvariantHoldsAtReset := by
  unfold Obligations.InvariantHoldsAtReset
  exact ⟨fun c h => .afterReset h Bus.start [] [], fun c rids h => ⟨.afterReset h _ [] [], resetWithDevices_wf h rids⟩, rfl,
    .afterReset (by decide) Bus.start [] []⟩

end Sys2Proof.Machine

/-! SUPPORT. The statements of 20_memory.md: the registry byte memory, the positions of an identity, the gap between commands,
the host's register space, the level of the line, and a presence check of reference responders. -/

namespace Sys2Proof.Machine

/-! ## The registry byte memory -/

theorem implemented_iff (c : Config) (a : Nat) : implemented c a = true ↔ a < 16 * c.cap.toNat ∧ a % 16 < 10 := by
  simp only [implemented, Bool.and_eq_true, decide_eq_true_eq]

/-- An address without storage reads 0 (R61). -/
theorem memRead_unimplemented {s : State} {a : Nat} (h : ¬ (a < 16 * s.cfg.cap.toNat ∧ a % 16 < 10)) :
    memRead a s = 0x00#8 := by
  rw [← implemented_iff] at h
  exact if_neg h

/-- An address without storage takes no write (R61). -/
theorem memWrite_unimplemented {s : State} {a : Nat} (v : Byte) (h : ¬ (a < 16 * s.cfg.cap.toNat ∧ a % 16 < 10)) :
    memWrite a v s = s := by
  rw [← implemented_iff] at h
  exact if_neg h

/-- Settles O32: read after write where there is storage, nothing where there is none, and the frame of a write. -/
theorem registryByteReadsAsLastWritten : Obligations.RegistryByteReadsAsLastWritten := by
  unfold Obligations.RegistryByteReadsAsLastWritten
  intro s a v w
  exact ⟨fun h => memRead_memWrite_same a v s w ((implemented_iff s.cfg a).2 h),
    fun h => ⟨memRead_unimplemented h, memWrite_unimplemented v h⟩,
    fun b hb => memRead_memWrite_other a b v s hb, memWrite_wf a v s w⟩

/-! ## The positions of an identity -/

/-- The byte of a position: `p >> 3` in the words of R63, the quotient by 8 in the model. -/
theorem shiftRight_three (p : Nat) : p >>> 3 = p / 8 := Nat.shiftRight_eq_div_pow p 3

/-- The bit of a position in its byte: `p & 7` in the words of R63, the remainder by 8 in the model. -/
theorem and_seven (p : Nat) : p &&& 7 = p % 8 := Nat.and_two_pow_sub_one_eq_mod p 3

/-- Settles O33: the bits of an identity after a bit write are those of `idBit_setIdBit`, its bytes those of one byte write. -/
theorem identityBitPositions : Obligations.IdentityBitPositions := by
  unfold Obligations.IdentityBitPositions
  intro s k p b w hk hp
  rw [shiftRight_three, and_seven]
  refine ⟨bitOf_getLsbD _ _, ?_, fun q _ hne => ?_, fun a ha => memRead_memWrite_other _ a _ s ha,
    (setIdBit_run k p b s hp).eq⟩
  · rw [idBit_setIdBit k p p b s w hk hp, if_pos rfl]
  · rw [idBit_setIdBit k p q b s w hk hp, if_neg hne]

/-! ## The gap between two commands -/

/-- All that a gap of at least one tick does (R82, R113). -/
theorem idleFor_pos {n : Nat} (s : State) (h : 0 < n) :
    idleFor n s = { s with bus := { s.bus with clock := s.bus.clock + n, wave := s.bus.wave ++ [.hold s.drv n] } } :=
  if_neg (Nat.ne_of_gt h)

/-- Settles O11: the gap itself, and the driver as the invariant has it between commands. -/
theorem gapBetweenCommands : Obligations.GapBetweenCommands := by
  unfold Obligations.GapBetweenCommands
  intro s n h hn
  exact ⟨idleFor_pos s hn, h.drvOk⟩

/-! ## Host accesses, one rule each -/

/-- The only accesses there are (R65). -/
theorem supported_iff (off size : Nat) : supported off size = true ↔ size = 4 ∧ off % 4 = 0 := by
  simp only [supported, Bool.and_eq_true, decide_eq_true_eq]

/-- An aligned read of 32 bits is the model's `hostRead`. -/
theorem hostAccess_read {off : Nat} (s : State) (h : off % 4 = 0) :
    hostAccess (.read off 4) s = .next (hostRead off s) := if_pos ((supported_iff off 4).2 ⟨rfl, h⟩)

/-- An aligned write of 32 bits anywhere but at CMD is the model's `hostWrite`. -/
theorem hostAccess_write {off : Nat} (w : Word) (s : State) (h : off % 4 = 0) (h0 : off ≠ 0x00) :
    hostAccess (.write off 4 w) s = .next (hostWrite off w s) :=
  (if_pos ((supported_iff off 4).2 ⟨rfl, h⟩)).trans (if_neg h0)

/-- A write to CMD issues a command or a rejection (R21, R68). -/
theorem hostAccess_write_cmd (w : Word) (s : State) : hostAccess (.write 0x00 4 w) s = hostCommand w s := rfl

/-- Outside CMD and STATUS no write has an effect (R66 to R68). -/
theorem hostAccess_write_ignored {off : Nat} (w : Word) (s : State) (h : off % 4 = 0) (h0 : off ≠ 0x00) (h4 : off ≠ 0x04) :
    hostAccess (.write off 4 w) s = .next s := by
  rw [hostAccess_write w s h h0, hostWrite, if_neg h4, ite_self]

/-- A read at IDLE logs the value of its offset and changes nothing else (R68). -/
theorem hostAccess_read_idle {s : State} {off : Nat} (hs : s.seq = .idle) (h : off % 4 = 0) :
    hostAccess (.read off 4) s = .next { s with readLog := s.readLog ++ [(off, regRead off s)] } := by
  rw [hostAccess_read s h, hostRead, not_busy hs, Bool.false_and, if_neg Bool.false_ne_true]

/-- A read while BUSY at an offset of R69 logs a free value. -/
theorem hostAccess_read_drawn {s : State} {off : Nat} (hb : isBusy s = true) (h : off % 4 = 0)
    (hd : drawnWhileBusy s.cfg off = true) :
    hostAccess (.read off 4) s = .next { s with
      readLog := s.readLog ++ [(off, Config.freeRead s.bus.draws)]
      bus := { s.bus with draws := s.bus.draws + 1 } } := by
  rw [hostAccess_read s h, hostRead, hb, hd, Bool.and_self, if_pos rfl]

/-- With reset released a command word written while BUSY is rejected (R69, R240). -/
theorem hostCommand_busy {s : State} (w : Word) (hr : s.inReset = false) (hb : isBusy s = true) :
    hostCommand w s = .next (reject s) := by
  rw [hostCommand, hr, hb, if_neg Bool.false_ne_true, if_pos rfl]

/-! ## What the offsets read at IDLE -/

/-- A reserved offset reads 0 (R66). -/
theorem regRead_reserved {off : Nat} (s : State) (low : 0x14 ≤ off) (high : off ≤ 0xFC) : regRead off s = 0#32 := by
  unfold regRead
  rw [if_neg (by omega), if_neg (by omega), if_neg (by omega), if_neg (by omega), if_neg (by omega)]

/-- Settles O12: the read rule at IDLE with the value of each offset, and the writes that are ignored. -/
theorem registerOffsetsReadAsStated : Obligations.RegisterOffsetsReadAsStated := by
  unfold Obligations.RegisterOffsetsReadAsStated
  refine ⟨fun s hs => ⟨hostAccess_read_idle hs rfl, hostAccess_read_idle hs rfl, hostAccess_read_idle hs rfl,
    hostAccess_read_idle hs rfl, hostAccess_read_idle hs rfl⟩, fun s off hs low high h => ?_, fun s off w low high h => ?_⟩
  · rw [hostAccess_read_idle hs h, regRead_reserved s low high]
  · exact hostAccess_write_ignored w s h (by omega) (by omega)

/-- A read of the window at IDLE logs its word of the registry (R67). -/
theorem hostAccess_read_window {s : State} {a : Nat} {v : Word} (hs : s.seq = .idle) (h : a % 4 = 0)
    (hv : windowWord a s = v) :
    hostAccess (.read (0x100 + a) 4) s = .next { s with readLog := s.readLog ++ [(0x100 + a, v)] } := by
  rw [hostAccess_read_idle hs (by omega), regRead_window, hv]

/-- Two bytes under two zero bytes are the two bytes zero-extended (R67). -/
theorem leWord_zero_high (b0 b1 : Byte) : leWord b0 b1 0x00#8 0x00#8 = (b1 ++ b0 : BitVec 16).zeroExtend 32 :=
  (BitVec.append_assoc ..).trans (BitVec.setWidth_eq_append (by decide : 16 ≤ 32)).symm

/-- The window's word over a slot's two cache bytes and the two bytes without storage after them (R61, R67). -/
theorem windowWord_cache (k : Byte) (s : State) :
    windowWord (slotBase k + 8) s = (cacheByte k 1 s ++ cacheByte k 0 s : BitVec 16).zeroExtend 32 := by
  have byte2 : memRead (slotBase k + 8 + 2) s = 0x00#8 := memRead_unimplemented (by unfold slotBase; omega)
  have byte3 : memRead (slotBase k + 8 + 3) s = 0x00#8 := memRead_unimplemented (by unfold slotBase; omega)
  rw [windowWord, byte2, byte3]
  exact leWord_zero_high (cacheByte k 0 s) (cacheByte k 1 s)

/-- The window's word over four bytes without storage (R61, R67). -/
theorem windowWord_unimplemented {s : State} {a : Nat}
    (h : ∀ j, j < 4 → ¬ (a + j < 16 * s.cfg.cap.toNat ∧ (a + j) % 16 < 10)) : windowWord a s = 0#32 := by
  have byte0 : memRead a s = 0x00#8 := memRead_unimplemented (h 0 (by decide))
  rw [windowWord, byte0, memRead_unimplemented (h 1 (by decide)), memRead_unimplemented (h 2 (by decide)),
    memRead_unimplemented (h 3 (by decide))]
  rfl

/-- Settles O13: the four words of a slot, the words beyond the registry, and the writes that are ignored. -/
theorem windowIsAnImageOfTheRegistry : Obligations.WindowIsAnImageOfTheRegistry := by
  unfold Obligations.WindowIsAnImageOfTheRegistry
  refine ⟨fun s k hs _ => ⟨?_, ?_, ?_, ?_⟩, fun s off hs high h => ?_, fun s off w low h => ?_⟩
  · exact hostAccess_read_window hs (by omega) rfl
  · exact hostAccess_read_window (a := 16 * k.toNat + 4) hs (by omega) rfl
  · exact hostAccess_read_window (a := 16 * k.toNat + 8) hs (by omega) (windowWord_cache k s)
  · exact hostAccess_read_window (a := 16 * k.toNat + 12) hs (by omega) (windowWord_unimplemented fun j hj => by omega)
  · obtain ⟨a, rfl⟩ : ∃ a, off = 0x100 + a := ⟨off - 0x100, by omega⟩
    exact hostAccess_read_window hs (by omega) (windowWord_unimplemented fun j hj => by omega)
  · exact hostAccess_write_ignored w s h (by omega) (by omega)

/-! ## Side effects, and accesses while BUSY -/

/-- A write of 0 to STATUS bit 1 changes nothing, reset asserted or not (R22). -/
theorem hostWrite_status_zero {w : Word} (s : State) (h : w.getLsbD 1 = false) : hostWrite 0x04 w s = s := by
  have status : writeStatus w s = s := by rw [writeStatus, h, Bool.not_false, Bool.and_true]
  rw [hostWrite, if_pos rfl, status, ite_self]

/-- Settles O15: a read logs what `regRead` says, which the log does not enter; the writes one by one. -/
theorem hostAccessesHaveTheStatedSideEffects : Obligations.HostAccessesHaveTheStatedSideEffects := by
  unfold Obligations.HostAccessesHaveTheStatedSideEffects
  refine ⟨fun s off hs h => ⟨regRead off s, hostAccess_read_idle hs h, hostAccess_read_idle hs h⟩,
    fun s w => hostAccess_write_cmd w s, fun s w hr hw => ?_, fun s w hw => ?_,
    fun s off w h h0 h4 => hostAccess_write_ignored w s h h0 h4⟩
  · rw [hostAccess_write_status w hr, hw, if_pos rfl]
  · rw [hostAccess_write w s rfl (by decide), hostWrite_status_zero s hw]

/-- The offsets of R69 whose read is free: every register but STATUS, and the window. -/
theorem drawnWhileBusy_iff (c : Config) (off : Nat) :
    drawnWhileBusy c off = true ↔
      off = 0x00 ∨ off = 0x08 ∨ off = 0x0C ∨ off = 0x10 ∨ (0x100 ≤ off ∧ off < 0x100 + 16 * c.cap.toNat) := by
  simp only [drawnWhileBusy, Bool.or_eq_true, Bool.and_eq_true, decide_eq_true_eq, or_assoc]

/-- Settles O16: STATUS as at IDLE, the free reads, and the rejected command. -/
theorem hostAccessesWhileBusy : Obligations.HostAccessesWhileBusy := by
  unfold Obligations.HostAccessesWhileBusy
  intro s hr hb
  refine ⟨hostAccess_read_status s, fun off h => ?_, fun w => ?_, fun w => hostAccess_write_status w hr⟩
  · exact hostAccess_read_drawn hb (by omega) ((drawnWhileBusy_iff s.cfg off).2 (by omega))
  · exact (hostAccess_write_cmd w s).trans (hostCommand_busy w hr hb)

/-- Settles O17: the access is none of the supported ones. -/
theorem unsupportedAccessIsRefused : Obligations.UnsupportedAccessIsRefused := by
  unfold Obligations.UnsupportedAccessIsRefused
  intro s off size w h
  have unsupported : ¬ supported off size = true := by
    rw [supported_iff]
    omega
  exact ⟨if_neg unsupported, if_neg unsupported⟩

/-! ## The line -/

/-- A released line reads 0 exactly when some responder pulls it low (R77). -/
theorem lineLevel_rel (low : Bool) (free : Bit) : lineLevel .rel low free = BitVec.ofBool (!low) := by
  cases low <;> rfl

/-- Settles O24: the table and the two driver outputs by definition, the two samples by what each operation returns. -/
theorem lineLevelTable : Obligations.LineLevelTable := by
  unfold Obligations.LineLevelTable
  refine ⟨fun low free => ⟨rfl, rfl, rfl, rfl, rfl⟩, fun d => ⟨rfl, rfl⟩, fun s free => ⟨?_, ?_⟩⟩
  · rw [readBit_eq, lineLevel_rel]
  · rw [checkPresence_eq, lineLevel_rel]
    cases (envReset s.bus.env s.bus.draws).low <;> rfl

/-! ## A presence check of reference responders -/

/-- What CHECK_PRESENCE makes of RESULT and of the line's other side (R140, R91). -/
theorem exec_checkPresence {s : State} (hs : s.seq = .idle) :
    ∃ t, exec .checkPresence s = .next t ∧ t.result = zextBit (BitVec.ofBool (envReset s.bus.env s.bus.draws).low) ∧
      t.bus.env = (envReset s.bus.env s.bus.draws).env := by
  refine ⟨_, exec_accepted ⟨hs, trivial⟩, ?_, ?_⟩ <;>
    simp only [bodyOf, checkPresenceBody, checkPresence_eq, complete_result, complete_bus, setResult_result, setResult_bus,
      accept_bus]

/-- The RESULT of a presence check: 1 exactly when there is a responder (R91). -/
theorem zextBit_present (rs : List Responder) :
    zextBit (BitVec.ofBool !rs.isEmpty) = if rs = [] then 0#32 else 1#32 := by
  cases rs <;> rfl

/-- Settles O25: the line's answer to the presence check of settled and of unsettled responders. -/
theorem presenceCheckResetsTheResponders : Obligations.PresenceCheckResetsTheResponders := by
  unfold Obligations.PresenceCheckResetsTheResponders
  refine ⟨fun s rs hs he => ?_, fun s rs hs he => ?_⟩
  · obtain ⟨t, run, result, env⟩ := exec_checkPresence hs
    rw [he] at result env
    exact ⟨t, run, result.trans (zextBit_present rs), env⟩
  · obtain ⟨t, run, result, env⟩ := exec_checkPresence hs
    rw [he] at result env
    exact ⟨t, settle s.bus.draws rs, run, result.trans (zextBit_present rs), env, settle_devices _ rs, settle_mode _ rs⟩

end Sys2Proof.Machine

/-! SUPPORT. The statements of 30_encoding.md: the command word put together and taken apart, the words CMD accepts, and the
deviation values of a search pass. -/

namespace Sys2Proof.Machine

/-! ## The word an encoder writes -/

/-- The decoder reads an operation and its operands back from the three fields the encoder gives them (R103). -/
theorem decodeOp_fields (i : Instr) : decodeOp i.opcode i.operandA i.operandB = .ok i := by
  cases i with
  | writeBit v =>
    have lowBit : (v.zeroExtend 8).extractLsb' 0 1 = v := by
      rcases bit_cases v with rfl | rfl <;> rfl
    exact congrArg (fun b => Except.ok (Instr.writeBit b)) lowBit
  | _ => rfl

/-- Settles O1: the encoder's word is one of fields, and the fields tell the command. -/
theorem encodedCommandDecodes : Obligations.EncodedCommandDecodes := by
  unfold Obligations.EncodedCommandDecodes
  intro i
  rw [encode, decode_packWord, decodeOp_fields]

/-- Settles O3: each code is an arm of the decoder, on the fields of the word. -/
theorem commandTakesOnlyTheOperandsItUses : Obligations.CommandTakesOnlyTheOperandsItUses := by
  unfold Obligations.CommandTakesOnlyTheOperandsItUses
  intro a b
  simp only [decode_packWord]
  exact ⟨rfl, rfl, rfl, rfl, rfl, rfl, rfl, rfl, rfl, rfl, rfl, rfl, rfl, rfl, rfl⟩

/-- Settles O4: nine of the words are the encoder's; the CHECK_PRESENCE has a B that its code ignores. -/
theorem wordsOfTheSpecDecode : Obligations.WordsOfTheSpecDecode := by
  unfold Obligations.WordsOfTheSpecDecode
  exact ⟨encodedCommandDecodes (.sendByte 0xCC#8), encodedCommandDecodes (.searchPass 1#8 3#8),
    encodedCommandDecodes (.crc8Update 0x00#8 0x50#8), encodedCommandDecodes (.writeBit 1#1),
    encodedCommandDecodes (.writeBit 0#1), (commandTakesOnlyTheOperandsItUses 0x00#8 0xAB#8).1,
    encodedCommandDecodes (.getTemperature 1#8), encodedCommandDecodes (.select 3#8), encodedCommandDecodes .discover,
    encodedCommandDecodes .process⟩

/-! ## What a word decodes to -/

/-- The codes of R103. -/
theorem opcode_range (i : Instr) : 1 ≤ i.opcode.toNat ∧ i.opcode.toNat ≤ 0x0F := by
  cases i <;> simp [Instr.opcode]

/-- The decoder on an OP field: a command of that code, its slot operand the A field, or no code of R103 (R104). -/
theorem decodeOp_cases (op a b : Byte) :
    (∃ i, decodeOp op a b = .ok i ∧ i.opcode = op ∧ (i.opcode = 0x07#8 ∨ i.opcode = 0x09#8 → i.operandA = a)) ∨
      (decodeOp op a b = .error .opcode ∧ ¬ (1 ≤ op.toNat ∧ op.toNat ≤ 0x0F)) := by
  unfold decodeOp
  split
  case h_16 =>
    refine .inr ⟨rfl, fun ⟨low, high⟩ => ?_⟩
    interval_cases op.toNat <;> contradiction
  all_goals
    next code =>
    exact .inl ⟨_, rfl, BitVec.eq_of_toNat_eq code.symm, by simp [Instr.opcode, Instr.operandA]⟩

/-- A word that decodes has `Z` 0, the command's code, and in A the slot of a command that takes one (R100, R103). -/
theorem fields_of_decode {w : Word} {i : Instr} (h : decode w = .ok i) :
    zField w = 0#8 ∧ i.opcode = opField w ∧ (i.opcode = 0x07#8 ∨ i.opcode = 0x09#8 → i.operandA = aField w) := by
  unfold decode at h
  split at h
  case isTrue hz =>
    rcases decodeOp_cases (opField w) (aField w) (bField w) with ⟨j, hj, code, slot⟩ | ⟨he, -⟩
    · obtain rfl : j = i := Except.ok.inj (hj.symm.trans h)
      exact ⟨hz, code, slot⟩
    · cases he.symm.trans h
  case isFalse => cases h

/-- A word with `Z` 0 and one of the codes decodes (R102 (2), (3)). -/
theorem decode_of_code {w : Word} (hz : zField w = 0#8) (code : 1 ≤ (opField w).toNat ∧ (opField w).toNat ≤ 0x0F) :
    ∃ i, decode w = .ok i := by
  rcases decodeOp_cases (opField w) (aField w) (bField w) with ⟨i, hi, -⟩ | ⟨-, hn⟩
  · exact ⟨i, (if_pos hz).trans hi⟩
  · exact absurd code hn

/-- Settles O2: the mask leaves the code exactly when `Z` is 0 and OP is the code. -/
theorem maskAndMatchSelectTheOperation : Obligations.MaskAndMatchSelectTheOperation := by
  unfold Obligations.MaskAndMatchSelectTheOperation
  intro w op low high
  rw [mask_eq_iff]
  constructor
  · rintro ⟨hz, rfl⟩
    obtain ⟨i, hd⟩ := decode_of_code hz ⟨low, high⟩
    obtain ⟨-, opcode, -⟩ := fields_of_decode hd
    exact ⟨i, hd, opcode⟩
  · rintro ⟨i, hd, rfl⟩
    obtain ⟨hz, opcode, -⟩ := fields_of_decode hd
    exact ⟨hz, opcode.symm⟩

/-! ## The words CMD accepts -/

/-- Only SELECT and SEARCH_PASS have an operand that can be ill-formed, their slot (R102 (4)). -/
theorem wellFormed_iff (c : Config) (i : Instr) :
    i.wellFormed c = true ↔ (i.opcode = 0x07#8 ∨ i.opcode = 0x09#8 → i.operandA < c.cap) := by
  cases i <;> simp [Instr.wellFormed, Instr.opcode, Instr.operandA]

/-- Conditions (2) to (4) of R102 on the fields of a word. -/
def MeetsConditions (c : Config) (w : Word) : Prop :=
  zField w = 0#8 ∧ (1 ≤ (opField w).toNat ∧ (opField w).toNat ≤ 0x0F) ∧
    ((opField w = 0x07#8 ∨ opField w = 0x09#8) → aField w < c.cap)

/-- The conditions on the fields say that the word decodes to a well-formed command. -/
theorem meetsConditions_iff (c : Config) (w : Word) :
    MeetsConditions c w ↔ ∃ i, decode w = .ok i ∧ i.wellFormed c = true := by
  constructor
  · rintro ⟨hz, code, slot⟩
    obtain ⟨i, hd⟩ := decode_of_code hz code
    obtain ⟨-, opcode, operand⟩ := fields_of_decode hd
    refine ⟨i, hd, (wellFormed_iff c i).2 fun h => ?_⟩
    rw [operand h]
    exact slot (opcode ▸ h)
  · rintro ⟨i, hd, hw⟩
    obtain ⟨hz, opcode, operand⟩ := fields_of_decode hd
    refine ⟨hz, opcode ▸ opcode_range i, fun h => ?_⟩
    rw [← opcode] at h
    rw [← operand h]
    exact (wellFormed_iff c i).1 hw h

/-- A command whose slot does not exist is rejected, whether OWC is idle or not (R102 (4), R240). -/
theorem issueSlot_missing {k : Byte} {s : State} (h : ¬ k < s.cfg.cap) (op : Instr) (body : State → State) :
    issueSlot k op body s = .next (reject s) := by
  rw [issueSlot, if_neg h, ite_self]

/-- The command of `exec` with such a slot: SELECT or SEARCH_PASS, every other command being well-formed. -/
theorem exec_of_illFormed {i : Instr} {s : State} (h : ¬ i.wellFormed s.cfg = true) : exec i s = .next (reject s) := by
  cases i with
  | select k => exact issueSlot_missing (fun hk => h (decide_eq_true hk)) _ _
  | searchPass k last => exact issueSlot_missing (fun hk => h (decide_eq_true hk)) _ _
  | _ => exact absurd rfl h

/-- Settles O6: a word of a well-formed command runs it, one of an ill-formed command or of none is rejected, and so is every
word while BUSY. -/
theorem wordIsAcceptedExactlyOnTheFourConditions : Obligations.WordIsAcceptedExactlyOnTheFourConditions := by
  unfold Obligations.WordIsAcceptedExactlyOnTheFourConditions
  refine ⟨fun w s h hr => ⟨fun meets => ?_, fun fails => ?_⟩, fun w s hr hb => hostCommand_busy w hr hb⟩
  · obtain ⟨i, hd, hw⟩ := (meetsConditions_iff s.cfg w).1 meets
    obtain ⟨t, runs, run⟩ := exec_run ((h.accepted_iff i).2 hw) (Nat.le_trans (by decide) (Config.wf_spLen h.cfgOk)) h.memWf
    obtain ⟨new, o⟩ := run.op
    obtain ⟨-, opcode, -⟩ := fields_of_decode hd
    exact ⟨i, t, hd, opcode, hw, hostCommand_ok h.seqIdle hr hd, runs, o.ill, o.seq.trans h.seqIdle⟩
  · cases hd : decode w with
    | error c => exact hostCommand_error hr hd
    | ok i =>
      have illFormed : ¬ i.wellFormed s.cfg = true := fun hw => fails ((meetsConditions_iff s.cfg w).2 ⟨i, hd, hw⟩)
      exact (hostCommand_ok h.seqIdle hr hd).trans (exec_of_illFormed illFormed)

/-! ## The deviation values of a pass -/

/-- What an accepted SEARCH_PASS makes of RESULT and LASTDEV (R180, R184). -/
theorem exec_searchPass {s : State} {k : Byte} (last : Byte) (hs : s.seq = .idle) (hk : k < s.cfg.cap)
    (w : Memory.wf s.mem = true) :
    ∃ t, exec (.searchPass k last) s = .next t ∧ t.result = t.lastdev.zeroExtend 32 ∧
      t.lastdev = (searchPass k last (accept (.searchPass k last) s)).1 := by
  obtain ⟨xs, -, -, -, lastdev, -⟩ := searchPass_run k last (accept (.searchPass k last) s) hk w
  refine ⟨_, exec_accepted ⟨hs, hk⟩, ?_, lastdev⟩
  exact congrArg zextByte lastdev.symm

/-- The legal deviation values of each variant (R126). -/
theorem legalDeviation_iff (c : Config) (d : Byte) :
    legalDeviation c.variant d = true ↔ d.toNat < 64 + c.base ∨ d = sentinel := by
  unfold legalDeviation Config.base
  cases c.variant <;> simp only [Bool.or_eq_true, decide_eq_true_eq, Nat.lt_succ_iff, Nat.add_zero]

/-- Settles O36: the value is legal, and one that is neither 0 nor the sentinel is beyond `last` under SOURCE. -/
theorem deviationValuesOfAPass : Obligations.DeviationValuesOfAPass := by
  unfold Obligations.DeviationValuesOfAPass
  intro s k last hs hk w
  obtain ⟨t, runs, result, lastdev⟩ := exec_searchPass last hs hk w
  have legal := searchPass_legal k last (accept (.searchPass k last) s) hk w
  have value := searchPass_value k last (accept (.searchPass k last) s) hk w
  rw [← lastdev, accept_cfg] at legal value
  rw [legalDeviation_iff] at legal
  have range : t.lastdev = 0#8 ∨ (1 ≤ t.lastdev.toNat ∧ t.lastdev.toNat < 64 + s.cfg.base) ∨ t.lastdev = sentinel := by
    rcases Nat.eq_zero_or_pos t.lastdev.toNat with zero | pos
    · exact .inl (BitVec.eq_of_toNat_eq zero)
    · exact .inr (legal.imp_left fun below => ⟨pos, below⟩)
  refine ⟨t, runs, result, fun source => ⟨?_, fun _ => ?_⟩, fun standard => ?_⟩
  · rw [Config.base, source] at range
    exact range.imp_right (.imp_left (.imp_right Nat.le_of_lt_succ))
  · rcases value with zero | collision | ⟨-, -, -, beyond⟩
    · exact .inl zero
    · exact .inr (.inl collision)
    · exact .inr (.inr (beyond source))
  · rw [Config.base, standard] at range
    exact range.imp_right (.imp_left (.imp_right Nat.le_of_lt_succ))

end Sys2Proof.Machine

/-! SUPPORT. The statements of 40_bus_timing.md: CHECK_PRESENCE, WRITE_BIT and READ_BIT as commands, whole next state. -/

namespace Sys2Proof.Machine

/-! ## A command whose operation does not look at SEQ -/

/-- The end of an operation undoes its acceptance (R21, R40). -/
theorem complete_accept {s : State} (op : Instr) (hs : s.seq = .idle) : complete (accept op s) = s := by
  rw [complete, accept, ← hs]

/-- An accepted command answers what its operation makes of the idle state, when the operation carries SEQ through. -/
theorem exec_eq_bodyOf {i : Instr} {s : State} (a : Accepted i s) (through : bodyOf i (accept i s) = accept i (bodyOf i s))
    (keeps : (bodyOf i s).seq = s.seq) : exec i s = .next (bodyOf i s) := by
  rw [exec_accepted a, through, complete_accept i (keeps.trans a.1)]

/-! ## The three time slots carry SEQ through -/

theorem checkPresence_accept (op : Instr) (s : State) :
    checkPresence (accept op s) = ((checkPresence s).1, accept op (checkPresence s).2) := by
  simp only [checkPresence_eq, accept]

theorem writeBit_accept (v : Bit) (op : Instr) (s : State) : writeBit v (accept op s) = accept op (writeBit v s) := by
  simp only [writeBit_eq, accept]

theorem readBit_accept (op : Instr) (s : State) :
    readBit (accept op s) = ((readBit s).1, accept op (readBit s).2) := by
  simp only [readBit_eq, accept]

/-! ## The commands -/

/-- CHECK_PRESENCE is the presence check of the idle state, its answer in RESULT (R140, R23). -/
theorem exec_checkPresence_eq {s : State} (hs : s.seq = .idle) :
    exec .checkPresence s = .next (setResult (zextBit (checkPresence s).1) (checkPresence s).2) := by
  refine exec_eq_bodyOf ⟨hs, trivial⟩ ?_ (checkPresence_same s).seq
  rw [bodyOf, checkPresenceBody, checkPresence_accept]
  rfl

/-- WRITE_BIT is the write slot of the idle state (R143). -/
theorem exec_writeBit_eq {s : State} (v : Bit) (hs : s.seq = .idle) : exec (.writeBit v) s = .next (writeBit v s) :=
  exec_eq_bodyOf ⟨hs, trivial⟩ (writeBit_accept v _ s) (writeBit_same v s).seq

/-- READ_BIT is the read slot of the idle state, its answer in RESULT (R146, R23). -/
theorem exec_readBit_eq {s : State} (hs : s.seq = .idle) :
    exec .readBit s = .next (setResult (zextBit (readBit s).1) (readBit s).2) := by
  refine exec_eq_bodyOf ⟨hs, trivial⟩ ?_ (readBit_same s).seq
  rw [bodyOf, readBitBody, readBit_accept]
  rfl

/-- Settles O21: the presence check by `checkPresence_eq`, and what it shows for each level at its sample. -/
theorem checkPresenceResult : Obligations.CheckPresenceResult := by
  unfold Obligations.CheckPresenceResult
  intro s hs
  rw [exec_checkPresence_eq hs, checkPresence_eq]
  cases (envReset s.bus.env s.bus.draws).low <;> rfl

/-- Settles O22: the write slot by `writeBit_eq`, whose duration and waveform are `Config.tW` and `writeWave`. -/
theorem writeBitResult : Obligations.WriteBitResult := by
  unfold Obligations.WriteBitResult
  intro s v hs
  rw [exec_writeBit_eq v hs, writeBit_eq, Config.tW, writeWave]

/-- Settles O23: the read slot by `readBit_eq`, and what it shows for each level at its sample. -/
theorem readBitResult : Obligations.ReadBitResult := by
  unfold Obligations.ReadBitResult
  intro s hs
  rw [exec_readBit_eq hs, readBit_eq]
  cases (envRead s.bus.env s.bus.draws).low <;> rfl

end Sys2Proof.Machine

/-! SUPPORT. The statements of 41_byte_framing.md: SEND_BYTE and READ_BYTE as commands, and a byte read back over a loop-back
line. -/

namespace Sys2Proof.Machine

/-! ## The two byte operations carry SEQ through -/

theorem sendBits_accept (n : Nat) (op : Instr) (s : State) : sendBits n (accept op s) = accept op (sendBits n s) := by
  induction n generalizing s with
  | zero => rfl
  | succ n ih =>
    rw [sendBits, writeBit_accept, sendBits, ← ih]
    rfl

theorem sendByte_accept (b : Byte) (op : Instr) (s : State) : sendByte b (accept op s) = accept op (sendByte b s) :=
  sendBits_accept 8 op (onDp (fun d => { d with sr := b, bitcnt := 0#4 }) s)

theorem readBits_accept (n : Nat) (op : Instr) (s : State) : readBits n (accept op s) = accept op (readBits n s) := by
  induction n generalizing s with
  | zero => rfl
  | succ n ih =>
    simp only [readBits, readBit_accept, ← ih]
    rfl

theorem readByte_accept (op : Instr) (s : State) :
    readByte (accept op s) = ((readByte s).1, accept op (readByte s).2) := by
  have loop := readBits_accept 8 op (onDp (fun d => { d with sr := 0#8, bitcnt := 0#4 }) s)
  exact congrArg (fun t : State => (t.dp.sr, t)) loop

/-! ## The commands -/

/-- SEND_BYTE is `SendByte` of the idle state (R160). -/
theorem exec_sendByte_eq {s : State} (b : Byte) (hs : s.seq = .idle) : exec (.sendByte b) s = .next (sendByte b s) :=
  exec_eq_bodyOf ⟨hs, trivial⟩ (sendByte_accept b _ s) (sendByte_run b s).same.seq

/-- READ_BYTE is `ReadByte` of the idle state, the byte in RESULT (R161, R23). -/
theorem exec_readByte_eq {s : State} (hs : s.seq = .idle) :
    exec .readByte s = .next (setResult (zextByte (readByte s).1) (readByte s).2) := by
  refine exec_eq_bodyOf ⟨hs, trivial⟩ ?_ (readByte_run s).same.seq
  rw [bodyOf, readByteBody, readByte_accept]
  rfl

/-! ## Slots and bits of a byte -/

/-- A run of at least one time slot ends with the driver released. -/
theorem LineRun.drv_rel {s t : State} {new : List BusEvent} (r : LineRun s t new) (h : new ≠ []) : t.drv = .rel :=
  r.drv.trans (if_neg h)

/-- With RESULT put back, a write to RESULT is no part of what `SameOutsideLine` compares. -/
theorem SameOutsideLine.setResult {s t : State} (h : SameOutsideLine s t) (w : Word) :
    SameOutsideLine s { setResult w t with result := s.result } :=
  { h with result := rfl }

/-- A byte is its eight bits put together, bit 7 first (R71). -/
theorem append_bitOf (b : Byte) :
    (bitOf b 7 ++ bitOf b 6 ++ bitOf b 5 ++ bitOf b 4 ++ bitOf b 3 ++ bitOf b 2 ++ bitOf b 1 ++ bitOf b 0 : BitVec 8) = b := by
  unfold bitOf
  simp (disch := rfl) only [BitVec.extractLsb'_append_extractLsb'_eq_extractLsb']
  exact BitVec.extractLsb'_eq_self

/-- A loop-back line answers the write slots of a byte with the script of that byte (R162). -/
theorem map_echo_txEvents (b : Byte) : (txEvents b).map echo = byteScript b := List.map_map

/-! ## The statements -/

/-- Settles O26: the events, the clock and the driver by `sendByte_run`, the line's other side by `sendByte_env`. -/
theorem sendByteResult : Obligations.SendByteResult := by
  unfold Obligations.SendByteResult
  intro s b hs
  have run := sendByte_run b s
  obtain ⟨env, draws⟩ := sendByte_env b s
  refine ⟨_, exec_sendByte_eq b hs, run.events, ?_, draws, env, run.drv_rel (List.cons_ne_nil _ _), run.same,
    sendByte_regs b s⟩
  rw [run.clock, txEvents_ticks]

/-- Settles O27: `readByte_run` for the byte read, whose bits are the levels sampled; `readByte_oracle` on a scripted line. -/
theorem readByteResult : Obligations.ReadByteResult := by
  unfold Obligations.ReadByteResult
  intro s hs
  have run := readByte_run s
  refine ⟨_, bitOf (readByte s).1 0, bitOf (readByte s).1 1, bitOf (readByte s).1 2, bitOf (readByte s).1 3,
    bitOf (readByte s).1 4, bitOf (readByte s).1 5, bitOf (readByte s).1 6, bitOf (readByte s).1 7, exec_readByte_eq hs,
    run.events, ?_, fun b rest script => ?_, ?_, run.drv_rel (List.cons_ne_nil _ _), ?_, readByte_regs s⟩
  · rw [append_bitOf]
    rfl
  · obtain ⟨byte, env, draws⟩ := readByte_oracle script
    exact ⟨congrArg zextByte byte, env, draws⟩
  · exact run.clock.trans (congrArg (s.bus.clock + ·) (rxEvents_ticks s.cfg (readByte s).1))
  · exact run.same.setResult _

/-- Settles O28: the events of the SEND_BYTE are `TX(b)`, so the loop-back line answers with the script of `b`. -/
theorem loopBackReturnsTheByteSent : Obligations.LoopBackReturnsTheByteSent := by
  unfold Obligations.LoopBackReturnsTheByteSent
  intro s t u b rest hs sent hu line
  obtain rfl : sendByte b s = t := Host.Outcome.next.inj ((exec_sendByte_eq b hs).symm.trans sent)
  rw [(sendByte_run b s).events, List.drop_left, map_echo_txEvents] at line
  obtain ⟨byte, -, -⟩ := readByte_oracle line
  exact ⟨_, exec_readByte_eq hu, congrArg zextByte byte⟩

end Sys2Proof.Machine

/-! SUPPORT. The statements of 42_registry.md: CLEAR, SELECT and COUNT as commands, and the reference responders a select frame
addresses. -/

namespace Sys2Proof.Machine

/-! ## CLEAR -/

/-- Every identity byte of an existing slot reads 0 after `Clear` (R170). -/
theorem clearRegistry_idByte {s : State} {k : Byte} {j : Nat} (w : Memory.wf s.mem = true) (hk : k < s.cfg.cap) (hj : j < 8) :
    idByte k j (clearRegistry s) = 0x00#8 :=
  clearSlots_read s.cfg.cap.toNat (Nat.le_of_lt_succ s.cfg.cap.isLt) s w (Nat.le_refl _) k (BitVec.lt_def.1 hk) j hj

/-- `Clear` leaves every other registry byte as it was, the caches among them (R170). -/
theorem clearRegistry_other {s : State} {a : Nat} (h : ¬ isId s.cfg a) : memRead a (clearRegistry s) = memRead a s :=
  (clearSlots_run s.cfg.cap.toNat (Nat.le_of_lt_succ s.cfg.cap.isLt) s).other a fun ⟨k, hk, ha⟩ =>
    h ⟨k, BitVec.lt_def.2 hk, ha⟩

/-- Settles O29: the whole state by `clearRegistry_eq`, the registry byte by byte. -/
theorem clearResult : Obligations.ClearResult := by
  unfold Obligations.ClearResult
  intro s hs w
  have whole : complete (clearRegistry (accept .clear s)) =
      { s with count := 0#8, mem := (clearRegistry (accept .clear s)).mem } := by
    conv_lhs => rw [clearRegistry_eq, complete, ← hs]
    rfl
  refine ⟨_, exec_accepted ⟨hs, trivial⟩, whole, fun k hk j hj => ?_, fun a outside => ?_⟩
  · exact clearRegistry_idByte (s := accept .clear s) w hk hj
  · exact clearRegistry_other (s := accept .clear s) fun ⟨k, hk, j, hj, ha⟩ => outside k j hk hj ha

/-! ## SELECT -/

theorem sendId_accept (k : Byte) (n : Nat) (op : Instr) (s : State) : sendId k n (accept op s) = accept op (sendId k n s) := by
  induction n generalizing s with
  | zero => rfl
  | succ n ih =>
    rw [sendId, sendByte_accept, sendId, ← ih]
    rfl

theorem selectDevice_accept (k : Byte) (op : Instr) (s : State) :
    selectDevice k (accept op s) = accept op (selectDevice k s) := by
  rw [selectDevice, sendByte_accept, selectDevice, ← sendId_accept]
  rfl

/-- SELECT of an existing slot is `Select` of the idle state (R172). -/
theorem exec_select_eq {s : State} {k : Byte} (hs : s.seq = .idle) (hk : k < s.cfg.cap) :
    exec (.select k) s = .next (selectDevice k s) :=
  exec_eq_bodyOf ⟨hs, hk⟩ (selectDevice_accept k _ s) (selectDevice_run k s).same.seq

/-- The select frame byte by byte (R120). -/
theorem selectEvents_eq (k : Byte) (s : State) :
    selectEvents k s = txEvents s.cfg.cmdMatch ++ txEvents (idByte k 0 s) ++ txEvents (idByte k 1 s) ++
      txEvents (idByte k 2 s) ++ txEvents (idByte k 3 s) ++ txEvents (idByte k 4 s) ++ txEvents (idByte k 5 s) ++
      txEvents (idByte k 6 s) ++ txEvents (idByte k 7 s) := by
  simp only [selectEvents, identity, List.range, List.range.loop, List.map_cons, List.map_nil, List.flatMap_cons,
    List.flatMap_nil, List.append_nil, List.append_assoc]

/-- Settles O30: the frame, its duration and what it leaves by `selectDevice_run`, the datapath by `selectDevice_dp`. -/
theorem selectResult : Obligations.SelectResult := by
  unfold Obligations.SelectResult
  intro s k hs hk
  have run := selectDevice_run k s
  refine ⟨_, exec_select_eq hs hk, ?_, ?_, run.drv_rel (List.cons_ne_nil _ _), run.same, selectDevice_dp k s⟩
  · rw [run.events, selectEvents_eq]
  · rw [run.clock, selectEvents_ticks]

/-- Settles O34: every responder takes the match command, then compares the 64 identity bits (`selectDevice_responders`). -/
theorem selectAddressesTheDeviceOfItsSlot : Obligations.SelectAddressesTheDeviceOfItsSlot := by
  unfold Obligations.SelectAddressesTheDeviceOfItsSlot
  intro s k rs hs hk distinct line present
  exact ⟨_, exec_select_eq hs hk, selectDevice_responders k s rs distinct line present⟩

/-! ## COUNT -/

/-- Settles O31: the operation of COUNT carries SEQ through and writes RESULT only. -/
theorem countResult : Obligations.CountResult := by
  unfold Obligations.CountResult
  intro s hs
  exact exec_eq_bodyOf (i := .count) ⟨hs, trivial⟩ rfl rfl

end Sys2Proof.Machine

/-! SUPPORT. The statements of 43_rom_search.md: SEARCH_PASS and DISCOVER as commands, how a discovery can end, and discoveries
of no, one and two reference responders. -/

namespace Sys2Proof.Machine

/-! ## An operation as a command -/

/-- What an operation does from the accepted state is what its command does from the idle one (R21, R40). -/
theorem OpRun.command {touch : Nat → Prop} {op : Instr} {s t : State} {new : List BusEvent}
    (o : OpRun touch (accept op s) t new) (hs : s.seq = .idle) (w : Word) : OpRun touch s (complete (setResult w t)) new :=
  { o.trans (OpRun.setRegs touch t w t.count t.lastdev) with
    seq := hs.symm, events := o.events, clock := o.clock, wave := o.wave, line := o.line }

/-- The fields an operation may change. -/
theorem OpRun.eq {touch : Nat → Prop} {s t : State} {new : List BusEvent} (o : OpRun touch s t new) :
    t = { s with
      result := t.result, count := t.count, lastdev := t.lastdev, mem := t.mem, drv := t.drv, dp := t.dp, bus := t.bus } := by
  conv_rhs => rw [← o.cfg, ← o.inReset, ← o.ill, ← o.seq, ← o.host, ← o.readLog]

/-- The events an operation adds to the history. -/
theorem OpRun.drop_events {touch : Nat → Prop} {s t : State} {new : List BusEvent} (o : OpRun touch s t new) :
    t.bus.events.drop s.bus.events.length = new := by
  rw [o.events, List.drop_left]

/-- On a scripted line every sample of an operation is the script's, in order. -/
theorem OpRun.answered {touch : Nat → Prop} {s t : State} {new : List BusEvent} (o : OpRun touch s t new) {script : List Bool}
    (h : s.bus.env = .oracle script) : Answered script (t.bus.events.drop s.bus.events.length) t.bus.env := by
  rw [o.drop_events]
  exact o.line.answered h

/-! ## The samples of a search pass on a scripted line -/

/-- What the line answered to the two reads of a position, as a pair of a script: true where a responder pulled low. -/
def Position.pulls (x : Position) : Bool × Bool := (decide (x.ba = 0#1), decide (x.bb = 0#1))

/-- A sample reads 0 exactly when a responder pulls low. -/
theorem bit_eq_of_pulls (v : Bit) : v = BitVec.ofBool (!decide (v = 0#1)) := by
  rcases bit_cases v with rfl | rfl <;> rfl

theorem heard_txEvents (b : Byte) : (txEvents b).flatMap heard = [] := by
  simp [txEvents, heard]

theorem heard_positions (xs : List Position) :
    (xs.flatMap Position.events).flatMap heard = pairScript (xs.map Position.pulls) := by
  rw [pairScript, List.flatMap_assoc, List.flatMap_map]
  rfl

/-- Pairs heard on a line with a script of pairs are the script's. -/
theorem Answered.pair {pairs zs : List (Bool × Bool)} {rest : List Bool} {new : List BusEvent} {env : Env}
    (h : Answered (pairScript pairs ++ rest) new env) (hz : new.flatMap heard = pairScript zs) {i : Nat} (hi : i < zs.length)
    (hp : i < pairs.length) : zs[i] = pairs[i] := by
  have sample : ∀ j, j < 2 * zs.length → j < 2 * pairs.length →
      (pairScript zs ++ [])[j]? = (pairScript pairs ++ rest)[j]? := fun j h1 h2 => by
    rw [List.append_nil, ← hz]
    refine h.get ?_ ?_
    · rwa [hz, pairScript_length]
    · rw [List.length_append, pairScript_length]
      omega
  obtain ⟨z1, z2⟩ := pairScript_get zs [] hi
  obtain ⟨p1, p2⟩ := pairScript_get pairs rest hp
  have first := sample (2 * i) (by omega) (by omega)
  have second := sample (2 * i + 1) (by omega) (by omega)
  rw [z1, p1] at first
  rw [z2, p2] at second
  exact Prod.ext (Option.some.inj first) (Option.some.inj second)

/-- The pairs of a complete pass, or of one aborted by a pair of ones, are the first pairs of the script. -/
theorem Answered.positions {pairs : List (Bool × Bool)} {rest : List Bool} {new : List BusEvent} {env : Env}
    {xs : List Position} {ends : List (Bool × Bool)} (h : Answered (pairScript pairs ++ rest) new env)
    (hz : new.flatMap heard = pairScript (xs.map Position.pulls ++ ends)) :
    (∀ i (h : i < xs.length) (h' : i < pairs.length),
      (xs[i]).ba = BitVec.ofBool (!(pairs[i]).1) ∧ (xs[i]).bb = BitVec.ofBool (!(pairs[i]).2)) ∧
    ∀ (h : 0 < ends.length) (h' : xs.length < pairs.length), pairs[xs.length] = ends[0] := by
  refine ⟨fun i hi hp => ?_, fun he hp => ?_⟩
  · have pair := h.pair hz (i := i) (by simp; omega) hp
    rw [List.getElem_append_left (by simpa using hi), List.getElem_map] at pair
    rw [← pair]
    exact ⟨bit_eq_of_pulls _, bit_eq_of_pulls _⟩
  · have pair := h.pair hz (i := xs.length) (by simp; omega) hp
    rw [← pair, List.getElem_append_right (by simp)]
    simp

/-- The samples of a complete pass. -/
theorem heard_pass (b : Byte) (xs : List Position) :
    (txEvents b ++ xs.flatMap Position.events).flatMap heard = pairScript (xs.map Position.pulls ++ []) := by
  rw [List.flatMap_append, heard_txEvents, heard_positions, List.append_nil, List.nil_append]

/-- The samples of a pass aborted by a pair of ones. -/
theorem heard_abortedPass (b : Byte) (xs : List Position) :
    (txEvents b ++ (xs.flatMap Position.events ++ [BusEvent.r 1#1, BusEvent.r 1#1])).flatMap heard =
      pairScript (xs.map Position.pulls ++ [(false, false)]) := by
  rw [← List.append_assoc, List.flatMap_append, heard_pass, List.append_nil, pairScript, pairScript, List.flatMap_append]
  rfl

/-- SEARCH_PASS of an existing slot is `SearchPass` of the accepted state, the value it returns in RESULT (R180, R23). -/
theorem exec_searchPass_eq {s : State} {k : Byte} (last : Byte) (hs : s.seq = .idle) (hk : k < s.cfg.cap) :
    exec (.searchPass k last) s =
      .next (complete (setResult (zextByte (searchPass k last (accept (.searchPass k last) s)).1)
        (searchPass k last (accept (.searchPass k last) s)).2)) :=
  exec_accepted (i := .searchPass k last) ⟨hs, hk⟩

/-- Settles O35: `searchPass_run` for the positions, their bits and the two ends; the frame and the script by the operation's
footprint, the samples of either end being pairs. -/
theorem searchPassResult : Obligations.SearchPassResult := by
  unfold Obligations.SearchPassResult
  intro s k last hs hk w
  obtain ⟨xs, follows, bits, ends, lastdev, -, count, -, drv⟩ := searchPass_run k last (accept (.searchPass k last) s) hk w
  have regs := searchPass_regs k last (accept (.searchPass k last) s)
  have runs := exec_searchPass_eq last hs hk
  generalize searchPass k last (accept (.searchPass k last) s) = d at *
  obtain ⟨v, u⟩ := d
  simp only at *
  subst lastdev
  obtain ⟨new, stop, o, samples, ends⟩ : ∃ new stop, OpRun (isIdOf k) s (complete (setResult (zextByte u.lastdev) u)) new ∧
      new.flatMap heard = pairScript (xs.map Position.pulls ++ stop) ∧
      ((xs.length = 64 ∧ u.lastdev = devAfter s.cfg last 0 0#8 xs ∧
          new = txEvents s.cfg.cmdSearch ++ xs.flatMap Position.events) ∨
        (xs.length < 64 ∧ u.lastdev = sentinel ∧ stop = [(false, false)] ∧
          new = txEvents s.cfg.cmdSearch ++ (xs.flatMap Position.events ++ [.r 1#1, .r 1#1]))) := by
    rcases ends with ⟨length, o, value⟩ | ⟨length, o, value⟩
    · exact ⟨_, [], o.command hs _, heard_pass _ xs, .inl ⟨length, value, rfl⟩⟩
    · exact ⟨_, _, o.command hs _, heard_abortedPass _ xs, .inr ⟨length, value, rfl, rfl⟩⟩
  refine ⟨_, xs, runs, follows, bits, ?_, rfl, ?_, regs, o.wf w, fun a outside => o.other a fun ⟨j, hj, ha⟩ => outside j hj ha,
    fun script line => o.answered line, fun pairs rest line => ?_⟩
  · rcases ends with ⟨length, value, rfl⟩ | ⟨length, value, -, rfl⟩
    · exact .inl ⟨length, value, o.events⟩
    · exact .inr ⟨length, value, o.events⟩
  · have whole := o.eq
    rwa [complete_count, setResult_count, count, complete_drv, setResult_drv, drv] at whole
  · obtain ⟨completed, aborted⟩ := (o.line.answered line).positions samples
    refine ⟨completed, fun short within => ?_⟩
    rcases ends with ⟨length, -⟩ | ⟨-, -, rfl, -⟩
    · omega
    · exact aborted Nat.zero_lt_one within

/-! ## DISCOVER over any line -/

/-- DISCOVER is `Discover` of the accepted state, the COUNT it leaves in RESULT (R190, R23). -/
theorem exec_discover_eq {s : State} (h : s.Inv) :
    exec .discover s = .next (complete (setResult (zextByte (discover (accept .discover s)).count)
      (discover (accept .discover s)))) :=
  exec_accepted (i := .discover) ⟨h.seqIdle, Config.wf_cap h.cfgOk⟩

/-- The first pass of a discovery is seeded with zeros (R170, R190). -/
theorem seedBits_discoverStart {s : State} (hc : 0 < s.cfg.cap.toNat) (w : Memory.wf s.mem = true) :
    seedBits (discoverStart s) = List.replicate 64 0#1 := by
  obtain ⟨-, -, npass, -, zero⟩ := discoverStart_run s w
  refine List.eq_replicate_iff.2 ⟨by simp [seedBits], fun b hb => ?_⟩
  obtain ⟨q, hq, rfl⟩ := List.mem_map.1 hb
  rw [npass, if_pos rfl, idBit, zero 0#8 (BitVec.lt_def.2 hc) (q / 8) (by have := List.mem_range.1 hq; omega),
    bitOf_getLsbD, BitVec.getLsbD_zero]
  rfl

/-- How a discovery ended is read off COUNT, LASTDEV and the identities. -/
theorem DiscoveryEnd.Holds.command {c : Config} {n : Nat} {last : Byte} {seed : List Bit} {ps : List (List Position)}
    {t : State} {e : DiscoveryEnd} (h : e.Holds c n last seed ps t) (w : Word) :
    e.Holds c n last seed ps (complete (setResult w t)) := by
  cases e <;> exact h

/-- An identity byte of a slot at or beyond `n` is none of the first `n` slots'. -/
theorem not_isIdIn_idAddr {n j : Nat} {k : Byte} (hn : n ≤ k.toNat) (hj : j < 8) : ¬ isIdIn 0 n (idAddr k j) := by
  rintro ⟨i, l, -, hi, hl, e⟩
  unfold idAddr slotBase at e
  omega

/-- Settles O37: `discover_run` from a cleared registry for the passes and the end; the frame and the script by the footprint of
the whole operation. -/
theorem discoverResult : Obligations.DiscoverResult := by
  unfold Obligations.DiscoverResult
  intro s h
  have cap : 0 < s.cfg.cap.toNat := Config.wf_cap h.cfgOk
  have regs := discover_regs (accept .discover s)
  have runs := exec_discover_eq h
  obtain ⟨start, lastdev, npass, -, zero⟩ := discoverStart_run (accept .discover s) h.memWf
  have seed := seedBits_discoverStart (s := accept .discover s) cap h.memWf
  obtain ⟨ps, e, passes, op, ids, ends, -, drv, -⟩ := discover_run (accept .discover s) cap h.memWf
  generalize discover (accept .discover s) = u at *
  rw [start.cfg, lastdev, seed] at passes ends
  rw [start.cfg] at op
  simp only [npass, BitVec.toNat_ofNat, Nat.zero_mod, Nat.zero_add, accept_cfg] at op ids ends passes
  have slots : ps.length + e.slots ≤ s.cfg.cap.toNat := by simpa using ends.slots
  have whole : OpRun (isId s.cfg) s (complete (setResult (zextByte u.count) u))
      (ps.flatMap (passEvents s.cfg) ++ e.events s.cfg) :=
    ((start.mono fun a ha => isIdIn_isId (by simp) ha).trans
      (op.mono fun a ha => isIdIn_isId (by simpa using slots) ha)).command h.seqIdle _
  refine ⟨_, ps, e, runs, passes, ids, ends.command _, whole.events, rfl, fun k hk beyond j hj => ?_, fun a outside => ?_, ?_, regs,
    fun script line => whole.answered line⟩
  · exact (op.other _ (not_isIdIn_idAddr beyond hj)).trans (zero k hk j hj)
  · exact whole.other a fun ⟨k, hk, j, hj, ha⟩ => outside k j hk hj ha
  · have eq := whole.eq
    rwa [complete_drv, setResult_drv, drv] at eq

/-! ## How a discovery can end -/

/-- Settles O38: each end as `DiscoverResult` has it, the deviation value of its last pass in the range of R126. -/
theorem discoveryOutcomeTable : Obligations.DiscoveryOutcomeTable := by
  unfold Obligations.DiscoveryOutcomeTable
  intro s h
  obtain ⟨t, ps, e, runs, passes, -, ends, events, -⟩ := discoverResult s h
  refine ⟨t, ps, e, runs, events, passesFrom_length passes, ?_⟩
  cases e with
  | noMore =>
    obtain ⟨-, count, nonempty, lastdev, -⟩ := ends
    rw [Nat.zero_add] at count
    exact ⟨count, by rw [count]; exact List.length_pos_iff.2 nonempty, lastdev⟩
  | capacity =>
    obtain ⟨full, count, nonempty, lastdev, nonzero, -⟩ := ends
    rw [lastdev] at nonzero ⊢
    exact ⟨count, by rw [count, ← full, Nat.zero_add], lastAfter_range passes nonempty nonzero⟩
  | collision xs =>
    obtain ⟨below, count, lastdev, -, length, -⟩ := ends
    exact ⟨BitVec.lt_def.2 (by rw [count]; exact below), by rw [count, Nat.zero_add], lastdev, length⟩
  | absent =>
    obtain ⟨-, count, lastdev, nonzero⟩ := ends
    rw [lastdev]
    exact ⟨count, by rintro rfl; rfl, fun nonempty => lastAfter_range passes nonempty (nonzero nonempty)⟩

/-- Under SOURCE the deviation value grows from pass to pass, so there are at most 64 passes, and at most 63 where a further one
can follow (R185, R192). -/
theorem passesFrom_source {c : Config} (hv : c.variant = .source) {last : Byte} {seed : List Bit} {ps : List (List Position)}
    (h : passesFrom c last seed ps) (hl : last.toNat ≤ 63) :
    last.toNat + ps.length ≤ 64 ∧ ((ps ≠ [] → lastAfter c last ps ≠ 0#8) → last.toNat + ps.length ≤ 63) := by
  induction ps generalizing last seed with
  | nil => exact ⟨Nat.le_succ_of_le hl, fun _ => hl⟩
  | cons p ps ih =>
    obtain ⟨length, -, nonzero, rest⟩ := h
    rw [List.length_cons]
    by_cases more : devAfter c last 0 0#8 p = 0#8
    · obtain rfl : ps = [] := Classical.byContradiction fun nonempty => nonzero nonempty more
      exact ⟨Nat.succ_le_succ hl, fun goesOn => absurd more (goesOn (List.cons_ne_nil p []))⟩
    · obtain ⟨grows, range⟩ := devAfter_source hv last p length more
      obtain ⟨all, further⟩ := ih rest range
      refine ⟨by omega, fun goesOn => ?_⟩
      have := further fun _ => goesOn (List.cons_ne_nil p ps)
      omega

/-- Settles O40: the bound on the complete passes, and one less where a pass was aborted after them. -/
theorem sourceDiscoveryRunsAtMost64Passes : Obligations.SourceDiscoveryRunsAtMost64Passes := by
  unfold Obligations.SourceDiscoveryRunsAtMost64Passes
  intro s h source
  obtain ⟨t, ps, e, runs, passes, -, ends, events, -⟩ := discoverResult s h
  obtain ⟨all, further⟩ := passesFrom_source source passes (Nat.zero_le _)
  refine ⟨t, ps, e, runs, events, passesFrom_length passes, ?_⟩
  cases e with
  | collision xs =>
    obtain ⟨-, -, -, nonzero, -⟩ := ends
    have fewer : ps.length ≤ 63 := by simpa using further nonzero
    exact Nat.succ_le_succ fewer
  | _ => simpa [DiscoveryEnd.slots] using all

/-! ## The first presence check of a discovery -/

theorem checkPresence_fst (s : State) : (checkPresence s).1 = BitVec.ofBool (envReset s.bus.env s.bus.draws).low := by
  rw [checkPresence_eq]

theorem checkPresence_env (s : State) : (checkPresence s).2.bus.env = (envReset s.bus.env s.bus.draws).env := by
  rw [checkPresence_eq]

/-- What `Discover` does before its loop has no bus activity (R170, R190). -/
theorem discoverStart_bus (s : State) : (discoverStart s).bus = s.bus := by
  rw [discoverStart, onDp_bus, setLastdev_bus, clearRegistry_eq]

/-- A discovery begins with one iteration of its loop. -/
theorem discover_eq_loop {s : State} (hc : 0 < s.cfg.cap.toNat) :
    ∃ fuel, discover s = discoverLoop (fuel + 1) 0#8 (discoverStart s) := by
  refine ⟨s.cfg.cap.toNat - 1, ?_⟩
  rw [Nat.sub_add_cancel hc]
  rfl

/-! ## A line where nobody answers -/

/-- A discovery whose first presence check samples high ends there (R193). -/
theorem discover_silent {s : State} (hc : 0 < s.cfg.cap.toNat) (h : (checkPresence (discoverStart s)).1 = 0#1) :
    discover s = setCount 0#8 (checkPresence (discoverStart s)).2 := by
  obtain ⟨fuel, loop⟩ := discover_eq_loop hc
  rw [loop, discoverLoop_succ, if_pos h]

/-- Settles O39: the registry cleared, one presence check, COUNT 0. -/
theorem discoveryOnASilentLine : Obligations.DiscoveryOnASilentLine := by
  unfold Obligations.DiscoveryOnASilentLine
  intro s h silent
  obtain ⟨start, lastdev, -, -, zero⟩ := discoverStart_run (accept .discover s) h.memWf
  have bus : (discoverStart (accept .discover s)).bus = s.bus := discoverStart_bus _
  have high : (checkPresence (discoverStart (accept .discover s))).1 = 0#1 := by
    rw [checkPresence_fst, bus, silent]
    rfl
  have run := checkPresence_run (discoverStart (accept .discover s))
  have drv := checkPresence_drv (discoverStart (accept .discover s))
  have runs := exec_discover_eq h
  rw [discover_silent (s := accept .discover s) (Config.wf_cap h.cfgOk) high] at runs
  refine ⟨_, runs, rfl, run.same.lastdev.trans lastdev, rfl, fun k hk j hj => ?_, ?_, ?_, drv⟩
  · exact (idByte_same run.same k j).trans (zero k hk j hj)
  · have events := run.events
    rwa [high, bus] at events
  · have clock := run.clock
    rw [bus, start.cfg] at clock
    exact clock

/-! ## A lone reference responder -/

/-- A search pass over a lone responder just after a presence check: no deviation, its identity in the slot, the responder left
awaiting a function command (R91, R92, R183). -/
theorem searchPass_single {s : State} {r : Responder} {k : Byte} (last : Byte) (hk : k < s.cfg.cap)
    (w : Memory.wf s.mem = true) (h : s.bus.env = .responders [r]) (hm : r.mode = .romCmd 0 0#8) :
    (searchPass k last s).1 = 0#8 ∧
      (∀ q, q < 64 → idBit k q (searchPass k last s).2 = r.rid.extractLsb' q 1) ∧
      (searchPass k last s).2.bus.env = .responders [{ r with mode := .funcCmd 0 0#8 }] := by
  have mode : romMode s.cfg s.cfg.cmdSearch = .search 0 .bit := if_pos rfl
  have env := sendByte_romCmd s.cfg.cmdSearch (onDp (fun d => { d with wslot := k, lastin := last, newdev := 0#8 }) s) [r] h
    (by simpa using hm)
  have same := (sendByte_run s.cfg.cmdSearch (onDp (fun d => { d with wslot := k, lastin := last, newdev := 0#8 }) s)).same
  have regs := sendByte_shift s.cfg.cmdSearch (onDp (fun d => { d with wslot := k, lastin := last, newdev := 0#8 }) s)
  unfold searchPass
  generalize sendByte s.cfg.cmdSearch (onDp (fun d => { d with wslot := k, lastin := last, newdev := 0#8 }) s) = m at *
  have wslot : m.dp.wslot = k := by rw [regs]; rfl
  have newdev : m.dp.newdev = 0#8 := by rw [regs]; rfl
  obtain ⟨value, bits, after⟩ := searchFrom_single 64 (onDp (fun d => { d with pos := 0#7 }) m)
    { r with mode := .search 0 .bit } rfl (by simp only [onDp_dp, onDp_cfg, wslot, same.cfg]; exact hk)
    (by rw [onDp_mem, same.mem]; exact w) (env.trans (by rw [onDp_cfg, mode]; rfl)) (by decide) rfl
  refine ⟨value.trans newdev, fun q hq => ?_, after⟩
  have bit := bits q hq
  simp only [onDp_dp, wslot] at bit
  exact bit.trans (if_pos (Nat.zero_le q))

/-- The state in which the first pass of a discovery starts (R190): the registry cleared, the presence check over. -/
theorem firstPass_state {s : State} (hc : 0 < s.cfg.cap.toNat) (w : Memory.wf s.mem = true) :
    (seeded (discoverStart s)).dp.npass = 0#8 ∧ (seeded (discoverStart s)).cfg = s.cfg ∧
      Memory.wf (seeded (discoverStart s)).mem = true ∧
      (seeded (discoverStart s)).bus.env = (envReset s.bus.env s.bus.draws).env ∧
      (seeded (discoverStart s)).bus.clock = s.bus.clock + s.cfg.tP := by
  obtain ⟨start, -, npass, -, -⟩ := discoverStart_run s w
  obtain ⟨seed, regs, -⟩ := seeded_run (discoverStart s) (by rw [npass, start.cfg]; exact BitVec.lt_def.2 hc) (start.wf w)
  refine ⟨by rw [regs]; exact npass, seed.cfg.trans start.cfg, seed.wf (start.wf w), ?_, ?_⟩
  · rw [seeded, (seedSlot_run _).bus, checkPresence_env, discoverStart_bus]
  · rw [seed.clock, discoverStart_bus, start.cfg]
    rfl

/-- A discovery whose presence check is answered and whose first pass finds no deviation ends after that pass (R192). -/
theorem discover_onePass {s : State} (hc : 0 < s.cfg.cap.toNat) (w : Memory.wf s.mem = true)
    (present : (checkPresence (discoverStart s)).1 = 1#1)
    (noDeviation : (searchPass 0#8 0#8 (seeded (discoverStart s))).1 = 0#8) :
    discover s = takeCount (onDp (fun r => { r with npass := r.npass + 1#8 })
      (searchPass 0#8 0#8 (seeded (discoverStart s))).2) := by
  obtain ⟨fuel, loop⟩ := discover_eq_loop hc
  obtain ⟨npass, -⟩ := firstPass_state hc w
  rw [loop, discoverLoop_succ, present, if_neg (by decide), npass]
  simp only [noDeviation, if_neg (show ¬ 0#8 = sentinel by decide), reduceIte]

/-- Settles O41: one pass over the lone responder, which returns 0 and so is the last. -/
theorem loneResponderIsDiscovered : Obligations.LoneResponderIsDiscovered := by
  unfold Obligations.LoneResponderIsDiscovered
  intro s r h line
  have cap : 0 < s.cfg.cap.toNat := Config.wf_cap h.cfgOk
  have present : (checkPresence (discoverStart (accept .discover s))).1 = 1#1 := by
    rw [checkPresence_fst, discoverStart_bus, accept_bus, line]
    rfl
  obtain ⟨npass, cfg, wf, env, clock⟩ := firstPass_state (s := accept .discover s) cap h.memWf
  rw [accept_bus, line] at env
  have once := discover_onePass (s := accept .discover s) cap h.memWf present
  have runs := exec_discover_eq h
  generalize seeded (discoverStart (accept .discover s)) = m at *
  have slot : 0#8 < m.cfg.cap := by rw [cfg]; exact BitVec.lt_def.2 cap
  obtain ⟨value, bits, after⟩ := searchPass_single 0#8 slot wf env rfl
  obtain ⟨xs, -, -, -, lastdev, -, -, passes, -⟩ := searchPass_run 0#8 0#8 m slot wf
  have ticks := searchPass_ticks 0#8 0#8 m slot wf
  rw [once value] at runs
  generalize searchPass 0#8 0#8 m = d at *
  have count : d.2.dp.npass + 1#8 = 1#8 := by rw [passes, npass]; rfl
  refine ⟨_, runs, count, lastdev.trans value, congrArg zextByte count, bits, after, ?_⟩
  rcases ticks with ⟨-, ticks⟩ | ⟨collision, -⟩
  · rw [clock, cfg, Nat.add_assoc] at ticks
    exact ticks
  · rw [value] at collision
    exact absurd collision (by decide)

/-! ## The two-device example -/

/-- What commands one after the other answer, found by running them. -/
theorem exists_execAll_of_any {is : List Instr} {s : State} {p : State → Prop} [DecidablePred p]
    (h : (execAll is s).any (fun t => decide (p t)) = true) : ∃ t, execAll is s = some t ∧ p t := by
  obtain ⟨t, runs, ht⟩ := (Option.any_eq_true _ _).1 h
  exact ⟨t, runs, of_decide_eq_true ht⟩

/-- What one command answers, found by running it. -/
theorem exists_exec_of_any {i : Instr} {s : State} {p : State → Prop} [DecidablePred p]
    (h : (execAll [i] s).any (fun t => decide (p t)) = true) : ∃ t, exec i s = .next t ∧ p t := by
  obtain ⟨t, runs, ht⟩ := exists_execAll_of_any h
  refine ⟨t, ?_, ht⟩
  simp only [execAll] at runs
  split at runs
  · next u hu => rw [hu, Option.some.inj runs]
  · cases runs
  · cases runs

set_option maxRecDepth 100000 in
/-- Settles O42: each of the six runs evaluated. -/
theorem twoDeviceExampleOfTheSource : Obligations.TwoDeviceExampleOfTheSource := by
  unfold Obligations.TwoDeviceExampleOfTheSource
  refine ⟨exists_execAll_of_any ?_, exists_exec_of_any ?_, exists_execAll_of_any ?_, exists_exec_of_any ?_,
    exists_execAll_of_any ?_, exists_exec_of_any ?_⟩
  all_goals decide

end Sys2Proof.Machine

/-! SUPPORT. The statements of 44_read_convert.md: READ_ALL and PROCESS over any line and with a reference responder,
START_CONVERSION and the high drive it leaves, GET_TEMPERATURE. -/

namespace Sys2Proof.Machine

/-! ## READ_ALL over any line -/

/-- An operation whose footprint is the caches of the first `n` slots leaves every other registry byte. -/
theorem OpRun.outside_caches {n : Byte} {s t : State} {new : List BusEvent} (o : OpRun (isCacheIn 0 n.toNat) s t new) {a : Nat}
    (outside : ∀ (k : Byte) (j : Nat), k < n → j < 2 → a ≠ cacheAddr k j) : memRead a t = memRead a s :=
  o.other a fun ⟨k, _, hk, j, hj, ha⟩ => outside k j (BitVec.lt_def.2 (by omega)) hj ha

/-- A scratchpad has a byte for each of the two cache bytes (R5). -/
theorem State.Inv.two_le_spLen {s : State} (h : s.Inv) : 2 ≤ s.cfg.spLen.toNat :=
  Nat.le_trans (by decide) (Config.wf_spLen h.cfgOk)

/-- READ_ALL is `ReadAll` of the accepted state (R200). -/
theorem exec_readAll_eq {s : State} (h : s.Inv) : exec .readAll s = .next (complete (readAll (accept .readAll s))) :=
  exec_accepted (i := .readAll) ⟨h.seqIdle, h.countLe⟩

/-- Settles O43: `readAll_run` of the accepted state, the frame by the footprint of the whole operation. -/
theorem readAllResult : Obligations.ReadAllResult := by
  unfold Obligations.ReadAllResult
  intro s h
  obtain ⟨answers, length, blocks, o, cache, drv, count, lastdev, result, script⟩ :=
    readAll_run (accept .readAll s) h.countLe h.two_le_spLen h.memWf
  have regs := readAll_regs (accept .readAll s)
  have runs := exec_readAll_eq h
  generalize readAll (accept .readAll s) = u at *
  have whole : OpRun (isCacheIn 0 s.count.toNat) s (complete u) (readFrames s 0 answers) := by
    have frames := o.command h.seqIdle u.result
    rwa [readFrames_congr (s := s) (accept_cfg _ s) fun _ _ _ => rfl] at frames
  refine ⟨_, answers, runs, length, blocks, whole.events, cache, fun a => whole.outside_caches, ?_, regs, script⟩
  have eq := whole.eq
  rwa [complete_result, result, complete_count, count, complete_lastdev, lastdev, complete_drv, drv] at eq

/-! ## Blocks that validate -/

/-- A byte folded into itself leaves 0 (R221). -/
theorem crc8Update_self (c : Byte) : crc8Update c c = 0x00#8 := by
  rw [crc8Update, BitVec.xor_self]
  decide

/-- A block followed by its own fold folds to 0 (R221). -/
theorem crcFold_append_fold (c : Byte) (bs : List Byte) : crcFold c (bs ++ [crcFold c bs]) = 0x00#8 := by
  rw [crcFold, List.foldl_append]
  exact crc8Update_self _

/-- Zeros leave the accumulator at 0 (R222). -/
theorem crcFold_zeros (n : Nat) : crcFold 0x00#8 (List.replicate n 0x00#8) = 0x00#8 := by
  induction n with
  | zero => rfl
  | succ n ih => rw [List.replicate_succ, crcFold_cons, crc8Update_self, ih]

/-- The scratchpad R90 describes validates. -/
theorem Responder.wf_crcFold {c : Config} {r : Responder} (h : r.wf c = true) : crcFold 0x00#8 r.pad = 0x00#8 := by
  simp only [Responder.wf, Bool.and_eq_true, decide_eq_true_eq] at h
  rw [h.2, crcFold_append_fold]

/-! ## A line stuck low -/

/-- A block of `n` zero bytes is answered by a presence sample and eight reads a byte, all pulled low (R112, R203). -/
theorem answerScript_zeros (n : Nat) :
    answerScript (some (List.replicate n 0x00#8)) = List.replicate (1 + 8 * n) true := by
  have byte : byteScript 0x00#8 = List.replicate 8 true := by decide
  rw [answerScript, List.flatMap_replicate, byte, List.flatten_replicate_replicate, Nat.add_comm, List.replicate_succ,
    Nat.mul_comm]

set_option maxRecDepth 10000 in
/-- Blocks of 0xFF, of the default length and of the lengths around it (R203, vector V26). -/
theorem crcFold_ones : crcFold 0x00#8 (List.replicate 9 0xFF#8) = 0x63#8 ∧
    ∀ n : Fin 12, 3 ≤ n.val → crcFold 0x00#8 (List.replicate n.val 0xFF#8) ≠ 0x00#8 := by
  decide

/-- Settles O45: on a line stuck low every device answers a block of zeros, which `ReadAllResult` commits. -/
theorem stuckLowLineCommitsZeros : Obligations.StuckLowLineCommitsZeros := by
  unfold Obligations.StuckLowLineCommitsZeros
  obtain ⟨nine, ones⟩ := crcFold_ones
  refine ⟨crcFold_zeros, nine, fun n lower upper => ones ⟨n, Nat.lt_succ_of_le upper⟩ lower, fun s h line => ?_⟩
  · obtain ⟨t, answers, runs, -, -, -, cache, -, -, -, script⟩ := readAllResult s h
    have low : (List.replicate s.count.toNat (some (List.replicate s.cfg.spLen.toNat 0x00#8))).flatMap answerScript ++ [] =
        List.replicate (s.count.toNat * (1 + 8 * s.cfg.spLen.toNat)) true := by
      rw [List.append_nil, List.flatMap_replicate, answerScript_zeros, List.flatten_replicate_replicate]
    obtain ⟨rfl, -⟩ := script (List.replicate s.count.toNat (some (List.replicate s.cfg.spLen.toNat 0x00#8))) []
      List.length_replicate (by simp [List.mem_replicate]) (by rw [low]; exact line)
    have zero : ∀ k : Byte, k < s.count → ∀ j, j < 2 → cacheByte k j t = 0x00#8 := fun k hk j hj => by
      have byte := cache k.toNat (by rw [List.length_replicate]; exact hk) j hj
      rw [List.getElem_replicate, committed, crcFold_zeros, BitVec.ofNat_toNat, BitVec.setWidth_eq] at byte
      simpa [List.getD_replicate] using byte
    exact ⟨t, runs, fun k hk => ⟨zero k hk 0 (by decide), zero k hk 1 (by decide)⟩⟩

/-! ## START_CONVERSION -/

theorem strongPullUp_accept (op : Instr) (s : State) : strongPullUp (accept op s) = accept op (strongPullUp s) := by
  unfold strongPullUp
  rw [accept_cfg]
  split <;> rfl

theorem startConversion_accept (op : Instr) (s : State) : startConversion (accept op s) = accept op (startConversion s) := by
  simp only [startConversion, checkPresence_accept, accept_cfg, sendByte_accept, strongPullUp_accept]
  split <;> rfl

theorem startConversion_same (s : State) : SameOutsideLine s (startConversion s) := by
  obtain ⟨o, -, count, lastdev, result, mem⟩ := startConversion_run (fun _ => False) s
  exact ⟨o.cfg, o.inReset, o.ill, result, count, lastdev, mem, o.seq, o.host, o.readLog⟩

/-- START_CONVERSION is `StartConversion` of the idle state (R204). -/
theorem exec_startConversion_eq {s : State} (hs : s.seq = .idle) : exec .startConversion s = .next (startConversion s) :=
  exec_eq_bodyOf ⟨hs, trivial⟩ (startConversion_accept _ s) (startConversion_same s).seq

/-- Settles O46: the convert frame and the driver by `startConversion_run`, for either sample of the presence check. -/
theorem startConversionResult : Obligations.StartConversionResult := by
  unfold Obligations.StartConversionResult
  intro s hs
  obtain ⟨o, drv, -⟩ := startConversion_run (fun _ => False) s
  have events := o.events
  have clock := o.clock
  rw [convertFrame_ticks, checkPresence_fst] at clock
  rw [checkPresence_fst] at events drv
  refine ⟨_, exec_startConversion_eq hs, fun high => ?_, fun low => ?_, startConversion_same s, startConversion_regs s⟩
  · rw [high] at events drv clock
    have rel : (startConversion s).drv = .rel := drv
    exact ⟨events, rel, by rw [isSpu_eq, rel]; rfl, clock⟩
  · rw [low] at events drv clock
    have driver : (startConversion s).drv = if s.cfg.parasite then .high else .rel := by
      rw [drv]; simp
    refine ⟨?_, driver, ?_, clock⟩
    · rw [events, List.append_assoc]
      rfl
    · rw [isSpu_eq, driver]
      cases s.cfg.parasite <;> rfl

/-! ## GET_TEMPERATURE -/

/-- GET_TEMPERATURE of an index at or beyond COUNT (R209). -/
theorem getTemperatureBody_beyond {k : Byte} {s : State} (hk : ¬ k < s.count) :
    getTemperatureBody k s =
      setResult (Config.freeTemp s.bus.draws) { s with bus := { s.bus with draws := s.bus.draws + 1 } } := if_neg hk

theorem getTemperatureBody_accept (k : Byte) (op : Instr) (s : State) :
    getTemperatureBody k (accept op s) = accept op (getTemperatureBody k s) := by
  by_cases hk : k < s.count
  · rw [getTemperatureBody_below hk, getTemperatureBody_below (s := accept op s) hk]
    rfl
  · rw [getTemperatureBody_beyond hk, getTemperatureBody_beyond (s := accept op s) hk]
    rfl

theorem getTemperatureBody_seq (k : Byte) (s : State) : (getTemperatureBody k s).seq = s.seq := by
  unfold getTemperatureBody
  split <;> rfl

/-- GET_TEMPERATURE is `GetTemperature` of the idle state (R207). -/
theorem exec_getTemperature_eq {s : State} {k : Byte} (a : Accepted (.getTemperature k) s) :
    exec (.getTemperature k) s = .next (getTemperatureBody k s) :=
  exec_eq_bodyOf a (getTemperatureBody_accept k _ s) (getTemperatureBody_seq k s)

/-- The decode is exact: five times a signed 16-bit value, divided by 8 or not, fits 32 bits (R208). -/
theorem decodeTemp_toInt (c : Config) (family lo hi : Byte) :
    (decodeTemp c family lo hi).toInt =
      if family = c.hiresFamily then ((hi ++ lo : BitVec 16).toInt * 5).tdiv 8 else (hi ++ lo : BitVec 16).toInt * 5 := by
  have lower := BitVec.le_toInt (hi ++ lo : BitVec 16)
  have upper := BitVec.toInt_lt (x := (hi ++ lo : BitVec 16))
  unfold decodeTemp rawTemp
  generalize (hi ++ lo : BitVec 16).toInt = raw at *
  simp only
  split
  · have quotient := Int.natAbs_tdiv_le_natAbs (raw * 5) 8
    exact BitVec.toInt_ofInt_eq_self (by decide) (by omega) (by omega)
  · exact BitVec.toInt_ofInt_eq_self (by decide) (by omega) (by omega)

/-- Settles O48: the decode of an index below COUNT, the free value of any other. -/
theorem getTemperatureResult : Obligations.GetTemperatureResult := by
  unfold Obligations.GetTemperatureResult
  refine ⟨fun s k h hk => ?_, fun s k hs hk => ?_⟩
  · refine ⟨_, exec_getTemperature_eq ((h.accepted_iff _).2 rfl), ?_, ?_⟩
    · rw [getTemperatureBody_below hk]
      rfl
    · rw [getTemperatureBody_below hk, setResult_result, decodeTemp_toInt]
  · have beyond : ¬ k < s.count := BitVec.not_lt.2 hk
    rw [exec_getTemperature_eq ⟨hs, fun below => absurd below beyond⟩, getTemperatureBody_beyond beyond]
    rfl

/-! ## PROCESS -/

/-- What PROCESS adds to READ_ALL (R212): its own presence check, and a conversion when that sampled low. -/
def convertIfPresent (s : State) : State :=
  if (checkPresence s).1 = 1#1 then startConversion (checkPresence s).2 else (checkPresence s).2

theorem processBody_convertIfPresent (s : State) :
    processBody s = setResult (zextByte (convertIfPresent (readAll s)).count) (convertIfPresent (readAll s)) := rfl

/-- The check and, by its sample, the convert frame; the line left high when both checks sampled low and PARASITE is 1. -/
theorem convertIfPresent_run (touch : Nat → Prop) (s : State) :
    ∃ p q : Bit, OpRun touch s (convertIfPresent s) (.rst p :: if p = 1#1 then convertFrame s.cfg q else []) ∧
      (convertIfPresent s).drv = (if p = 1#1 ∧ q = 1#1 ∧ s.cfg.parasite = true then .high else .rel) ∧
      SameOutsideLine s (convertIfPresent s) := by
  have check := checkPresence_run s
  refine ⟨(checkPresence s).1, (checkPresence (checkPresence s).2).1, ?_⟩
  unfold convertIfPresent
  by_cases present : (checkPresence s).1 = 1#1
  · obtain ⟨o, drv, -⟩ := startConversion_run touch (checkPresence s).2
    rw [check.same.cfg] at o drv
    simp only [present, reduceIte, true_and] at check ⊢
    exact ⟨(check.op touch).trans o, drv, check.same.trans (startConversion_same _)⟩
  · simp only [present, reduceIte, false_and]
    exact ⟨check.op touch, checkPresence_drv s, check.same⟩

/-- Settles O49: `readAll_run` of the accepted state, then `convertIfPresent_run`, which leaves the registry. -/
theorem processResult : Obligations.ProcessResult := by
  unfold Obligations.ProcessResult
  intro s h
  obtain ⟨answers, length, blocks, read, cache, -, count, lastdev, -⟩ :=
    readAll_run (accept .process s) h.countLe h.two_le_spLen h.memWf
  have regs := processBody_regs (accept .process s)
  have runs : exec .process s = .next (complete (processBody (accept .process s))) :=
    exec_accepted (i := .process) ⟨h.seqIdle, h.countLe⟩
  rw [processBody_convertIfPresent] at regs runs
  obtain ⟨p, q, convert, drv, same⟩ := convertIfPresent_run (isCacheIn 0 s.count.toNat) (readAll (accept .process s))
  rw [read.cfg] at convert drv
  generalize convertIfPresent (readAll (accept .process s)) = u at *
  rw [same.count, count] at runs regs
  have whole := (read.trans convert).command h.seqIdle (zextByte s.count)
  rw [readFrames_congr (s := s) (accept_cfg _ s) fun _ _ _ => rfl] at whole
  refine ⟨_, answers, p, q, runs, length, blocks, whole.events, fun i hi j hj => ?_, fun a => whole.outside_caches, ?_, regs⟩
  · exact (cacheByte_same same _ j).trans (cache i hi j hj)
  · have eq := whole.eq
    rwa [complete_count, setResult_count, same.count, count, complete_lastdev, setResult_lastdev, same.lastdev, lastdev,
      complete_drv, setResult_drv, drv] at eq

/-! ## READ_ALL of a registered reference responder -/

theorem commitCache_bus (s : State) : (commitCache s).bus = s.bus := by
  unfold commitCache
  split <;> simp only [memWrite_bus]

/-- A lone selected responder takes the read command and is ready to send its scratchpad (R93). -/
theorem sendByte_readMem {s : State} {r : Responder} (line : s.bus.env = .responders [r]) (selected : r.mode = .funcCmd 0 0#8) :
    (sendByte s.cfg.cmdReadMem s).bus.env = .responders [{ r with mode := .tx 0 }] := by
  obtain ⟨env, -⟩ := sendByte_env s.cfg.cmdReadMem s
  rw [env, line, foldl_envWrite_responders, List.map_singleton, funcCmd_byte _ _ _ selected, Responder.onFunc, if_pos rfl]

/-- A device's part of READ_ALL with a lone responder of its identity on the line, just after the presence check: the scratchpad
is read (R92, R93, R200). -/
theorem readBlock_lone {s : State} {r : Responder} (distinct : s.cfg.cmdMatch ≠ s.cfg.cmdSearch)
    (line : s.bus.env = .responders [r]) (present : r.mode = .romCmd 0 0#8) (own : holdsIdentity s.dp.devidx s r = true)
    (length : r.pad.length = s.cfg.spLen.toNat) :
    (readBlock s).bus.events =
      s.bus.events ++ (selectEvents s.dp.devidx s ++ (txEvents s.cfg.cmdReadMem ++ r.pad.flatMap rxEvents)) := by
  have select := selectDevice_run s.dp.devidx s
  have selected := selectDevice_responders s.dp.devidx s [r] distinct line (by simpa using present)
  rw [List.map_singleton, own, if_pos rfl] at selected
  unfold readBlock
  generalize selectDevice s.dp.devidx s = a at *
  have command := sendByte_run s.cfg.cmdReadMem a
  have sends := sendByte_readMem selected rfl
  rw [select.same.cfg] at sends
  generalize sendByte s.cfg.cmdReadMem a = b at *
  obtain ⟨events, -⟩ := readScratch_tx s.cfg.spLen.toNat (onDp (fun d => { d with crc := 0#8, byteidx := 0#8 }) b)
    { r with mode := .tx 0 } 0 sends rfl (by rw [Nat.zero_add, length])
  rw [commitCache_bus, events, onDp_bus, command.events, select.events, List.append_assoc, List.append_assoc]
  rfl

theorem holdsIdentity_congr {s t : State} (same : SameOutsideLine s t) (k : Byte) (r : Responder) :
    holdsIdentity k t r = holdsIdentity k s r := by
  simp only [holdsIdentity, idBit_congr same.cfg same.mem]

/-- A device of READ_ALL with a lone responder of its identity on the line puts the read frame of its scratchpad there. -/
theorem readDevice_lone {s : State} {r : Responder} (distinct : s.cfg.cmdMatch ≠ s.cfg.cmdSearch)
    (line : s.bus.env = .responders [r]) (own : holdsIdentity s.dp.devidx s r = true)
    (length : r.pad.length = s.cfg.spLen.toNat) :
    (readDevice s).bus.events = s.bus.events ++ readFrame s.dp.devidx s (some r.pad) := by
  have check := checkPresence_run s
  have present := checkPresence_fst s
  have env := checkPresence_env s
  have dp := checkPresence_dp s
  rw [line] at present env
  unfold readDevice
  simp only
  generalize checkPresence s = p at *
  obtain ⟨v, m⟩ := p
  simp only at *
  obtain rfl : v = 1#1 := present
  have devidx : m.dp.devidx = s.dp.devidx := by rw [dp]
  have events := readBlock_lone (s := m) (r := r.onReset) (by rw [check.same.cfg]; exact distinct) env rfl
    (by rw [devidx, holdsIdentity_congr check.same]; exact own) (by rw [check.same.cfg]; exact length)
  rw [devidx, check.same.cfg, selectEvents_congr check.same.cfg fun k j _ => idByte_same check.same k j] at events
  rw [if_pos rfl, events, check.events, List.append_assoc]
  rfl

/-- With one device registered READ_ALL is that device's part. -/
theorem readAll_one {s : State} (one : s.count = 1#8) :
    readAll s = onDp (fun d => { d with devidx := d.devidx + 1#8 }) (readDevice (onDp (fun d => { d with devidx := 0#8 }) s)) := by
  unfold readAll
  rw [one]
  rfl

/-- The bits of a block determine the block (R71). -/
theorem flatMap_rxEvents_injective {as bs : List Byte} (h : as.flatMap rxEvents = bs.flatMap rxEvents) : as = bs := by
  induction as generalizing bs with
  | nil =>
    cases bs with
    | nil => rfl
    | cons b bs => cases h
  | cons a as ih =>
    cases bs with
    | nil => cases h
    | cons b bs =>
      rw [List.flatMap_cons, List.flatMap_cons] at h
      obtain ⟨byte, rest⟩ := List.append_inj h (by simp [rxEvents, lsbFirst_length])
      have bits : lsbFirst a = lsbFirst b := List.map_injective_iff.2 (fun _ _ e => BusEvent.r.inj e) byte
      rw [lsbFirst_injective bits, ih rest]

/-- A read frame tells what the line answered. -/
theorem readFrame_injective {k : Byte} {s : State} {x y : Option (List Byte)} (h : readFrame k s x = readFrame k s y) : x = y := by
  cases x with
  | none =>
    cases y with
    | none => rfl
    | some b => cases h
  | some a =>
    cases y with
    | none => cases h
    | some b =>
      have block := List.append_cancel_left (List.append_cancel_left (List.cons.inj h).2)
      rw [flatMap_rxEvents_injective block]

/-- Settles O44: the frame on the line is that of the responder's scratchpad, so this is the answer `ReadAllResult` judges. -/
theorem readAllReadsTheRegisteredDevice : Obligations.ReadAllReadsTheRegisteredDevice := by
  unfold Obligations.ReadAllReadsTheRegisteredDevice
  intro s r h distinct line one own length
  obtain ⟨t, answers, runs, answersLength, -, events, cache, -⟩ := readAllResult s h
  rw [one] at answersLength
  obtain ⟨ans, rfl⟩ := List.length_eq_one_iff.1 answersLength
  have read : t.bus.events = s.bus.events ++ readFrame 0#8 s (some r.pad) := by
    obtain rfl : complete (readAll (accept .readAll s)) = t := Host.Outcome.next.inj ((exec_readAll_eq h).symm.trans runs)
    rw [readAll_one (s := accept .readAll s) one]
    exact readDevice_lone (s := onDp (fun d => { d with devidx := 0#8 }) (accept .readAll s)) distinct line own length
  obtain rfl : ans = some r.pad := by
    have frame := List.append_cancel_left (events.symm.trans read)
    rw [readFrames, readFrames, List.append_nil] at frame
    exact readFrame_injective frame
  have byte : ∀ j, j < 2 → cacheByte 0#8 j t =
      if crcFold 0x00#8 r.pad = 0x00#8 then r.pad.getD j 0x00#8 else cacheByte 0#8 j s := fun j hj => by
    simpa [committed] using cache 0 Nat.zero_lt_one j hj
  exact ⟨t, runs, read, byte, fun wf j hj => by rw [byte j hj, if_pos (Responder.wf_crcFold wf)]⟩

/-! ## How long the high drive lasts -/

/-- With no device registered READ_ALL only sets DEVIDX. -/
theorem readAll_none {s : State} (zero : s.count = 0#8) : readAll s = onDp (fun d => { d with devidx := 0#8 }) s := by
  unfold readAll
  rw [zero]
  rfl

/-- The driver, the histories and the clock through the operation of a command with no bus activity (R205). -/
theorem bodyOf_quiet {i : Instr} {s : State} (quiet : noBusActivity s i = true) :
    (bodyOf i s).drv = s.drv ∧ (bodyOf i s).bus.events = s.bus.events ∧ (bodyOf i s).bus.wave = s.bus.wave ∧
      (bodyOf i s).bus.clock = s.bus.clock := by
  cases i with
  | clear =>
    rw [bodyOf, clearRegistry_eq]
    exact ⟨rfl, rfl, rfl, rfl⟩
  | count => exact ⟨rfl, rfl, rfl, rfl⟩
  | getTemperature k =>
    rw [bodyOf, getTemperatureBody]
    split <;> exact ⟨rfl, rfl, rfl, rfl⟩
  | crc8Update c b => exact ⟨rfl, rfl, rfl, rfl⟩
  | readAll =>
    rw [bodyOf, readAll_none (of_decide_eq_true quiet)]
    exact ⟨rfl, rfl, rfl, rfl⟩
  | _ => cases quiet

/-- What a command that begins with a time slot adds to the history: that slot's event, then the others. -/
def BeginsWithSlot (i : Instr) (s : State) : Prop :=
  ∃ t e es, exec i s = .next t ∧ e ≠ .spu ∧ t.bus.events = s.bus.events ++ e :: es

/-- The passes and the end of a discovery begin with a presence check, since one without passes ends by its check (R192). -/
theorem discovery_events_cons {c : Config} {n : Nat} {last : Byte} {seed : List Bit} {ps : List (List Position)} {t : State}
    {e : DiscoveryEnd} (ends : e.Holds c n last seed ps t) :
    ∃ p es, ps.flatMap (passEvents c) ++ e.events c = .rst p :: es := by
  cases ps with
  | cons p ps => exact ⟨_, _, rfl⟩
  | nil =>
    cases e with
    | absent => exact ⟨_, _, rfl⟩
    | collision xs => exact ⟨_, _, rfl⟩
    | noMore =>
      obtain ⟨-, -, nonempty, -⟩ := ends
      exact absurd rfl nonempty
    | capacity =>
      obtain ⟨-, -, nonempty, -⟩ := ends
      exact absurd rfl nonempty

/-- The frames of READ_ALL begin with a presence check. -/
theorem readFrames_cons (s : State) (k : Nat) (ans : Option (List Byte)) (as : List (Option (List Byte))) :
    ∃ p es, readFrames s k (ans :: as) = .rst p :: es := by
  cases ans <;> exact ⟨_, _, rfl⟩

/-- Every well-formed command with bus activity begins with a time slot: the events of each command's own statement. -/
theorem State.Inv.beginsWithSlot {s : State} {i : Instr} (h : s.Inv) (hw : i.wellFormed s.cfg = true)
    (active : noBusActivity s i = false) : BeginsWithSlot i s := by
  cases i with
  | checkPresence => exact ⟨_, _, _, checkPresenceResult s h.seqIdle, by simp, rfl⟩
  | writeBit v => exact ⟨_, _, _, writeBitResult s v h.seqIdle, by simp, rfl⟩
  | readBit => exact ⟨_, _, _, readBitResult s h.seqIdle, by simp, rfl⟩
  | sendByte b =>
    obtain ⟨t, runs, events, -⟩ := sendByteResult s b h.seqIdle
    exact ⟨t, _, _, runs, by simp, events⟩
  | readByte =>
    obtain ⟨t, _, _, _, _, _, _, _, _, runs, events, -⟩ := readByteResult s h.seqIdle
    exact ⟨t, _, _, runs, by simp, events⟩
  | select k =>
    have runs := exec_select_eq h.seqIdle (of_decide_eq_true hw : k < s.cfg.cap)
    exact ⟨_, _, _, runs, by simp, (selectDevice_run k s).events⟩
  | searchPass k last =>
    obtain ⟨t, xs, runs, -, -, ends, -⟩ := searchPassResult s k last h.seqIdle (of_decide_eq_true hw) h.memWf
    rcases ends with ⟨-, -, events⟩ | ⟨-, -, events⟩
    · exact ⟨t, _, _, runs, by simp, events⟩
    · exact ⟨t, _, _, runs, by simp, events⟩
  | discover =>
    obtain ⟨t, ps, e, runs, -, -, ends, events, -⟩ := discoverResult s h
    obtain ⟨p, es, first⟩ := discovery_events_cons ends
    exact ⟨t, .rst p, es, runs, by simp, by rw [events, first]⟩
  | readAll =>
    obtain ⟨t, answers, runs, length, -, events, -⟩ := readAllResult s h
    cases answers with
    | nil => exact absurd (BitVec.eq_of_toNat_eq length.symm) (of_decide_eq_false active)
    | cons ans as =>
      obtain ⟨p, es, first⟩ := readFrames_cons s 0 ans as
      exact ⟨t, .rst p, es, runs, by simp, by rw [events, first]⟩
  | startConversion =>
    have runs := exec_startConversion_eq h.seqIdle
    obtain ⟨o, -⟩ := startConversion_run (fun _ => False) s
    exact ⟨_, _, _, runs, by simp, o.events⟩
  | process =>
    obtain ⟨t, answers, p, q, runs, -, -, events, -⟩ := processResult s h
    cases answers with
    | nil => exact ⟨t, _, _, runs, by simp, events⟩
    | cons ans as =>
      obtain ⟨v, es, first⟩ := readFrames_cons s 0 ans as
      exact ⟨t, .rst v, _, runs, by simp, by rw [events, first]; rfl⟩
  | _ => cases active

/-- The waveform a well-formed command adds is that of the events it adds (R80, R110 to R113). -/
theorem State.Inv.exec_wave {s t : State} {i : Instr} {es : List BusEvent} (h : s.Inv) (hw : i.wellFormed s.cfg = true)
    (e : Machine.exec i s = .next t) (events : t.bus.events = s.bus.events ++ es) :
    t.bus.wave = s.bus.wave ++ es.flatMap (eventWave s.cfg) := by
  obtain ⟨-, run⟩ := h.exec_wellFormed hw e
  obtain ⟨new, o⟩ := run.op
  rw [o.wave, List.append_cancel_left (o.events.symm.trans events)]

/-- Every time slot begins with the line driven low (R110 to R112). -/
theorem eventWave_begins_low (c : Config) {e : BusEvent} (slot : e ≠ .spu) : ∃ n ws, eventWave c e = .hold .low n :: ws := by
  cases e with
  | rst p => exact ⟨_, _, rfl⟩
  | w v =>
    rcases bit_cases v with rfl | rfl <;> exact ⟨_, _, rfl⟩
  | r v => exact ⟨_, _, rfl⟩
  | spu => exact absurd rfl slot

/-- Settles O47: the commands without bus activity one by one; any other begins with a time slot, whose waveform begins low. -/
theorem highDriveLastsUntilTheNextSlot : Obligations.HighDriveLastsUntilTheNextSlot := by
  unfold Obligations.HighDriveLastsUntilTheNextSlot
  refine ⟨fun s i h hw quiet => ?_, fun s i h hw active => ?_, fun s n => idleFor_drv n s, fun s t e => ?_⟩
  · have accepted : noBusActivity (accept i s) i = true := quiet
    exact ⟨_, exec_accepted ((h.accepted_iff i).2 hw), bodyOf_quiet accepted⟩
  · obtain ⟨t, e, es, runs, slot, events⟩ := h.beginsWithSlot hw active
    obtain ⟨n, ws, low⟩ := eventWave_begins_low s.cfg slot
    refine ⟨t, n, ws ++ es.flatMap (eventWave s.cfg), runs, (h.exec_wave hw runs events).trans ?_⟩
    rw [List.flatMap_cons, low, List.cons_append]
  · cases e
    rfl

end Sys2Proof.Machine

/-! SUPPORT. The statements of 45_crc8.md: CRC8_UPDATE as a command, and the checksum step as a linear bijection. -/

namespace Sys2Proof.Machine

/-! ## The shifts of the checksum step as an iteration -/

theorem crcShifts_eq_iterate (n : Nat) : crcShifts n = crcShift^[n] := by
  induction n with
  | zero => rfl
  | succ n ih =>
    funext x
    rw [crcShifts, ih, Function.iterate_succ_apply]

theorem crcShifts_eq_repeat (n : Nat) (x : Byte) : crcShifts n x = Nat.repeat crcShift n x := by
  rw [crcShifts_eq_iterate]
  induction n with
  | zero => rfl
  | succ n ih => rw [Function.iterate_succ_apply', ih, Nat.repeat]

/-- Settles O50: the operation does not look at SEQ, and its shifts are those of `crcShift_eq`. -/
theorem crc8UpdateResult : Obligations.Crc8UpdateResult := by
  unfold Obligations.Crc8UpdateResult
  intro s c b hs
  rw [exec_eq_bodyOf ⟨hs, trivial⟩ rfl rfl, bodyOf, crc8Update, crcShifts_eq_repeat, funext crcShift_eq]
  rfl

/-- Settles O51: a byte folds into itself to 0, so the fold of a block folds into itself to 0. -/
theorem blockWithItsChecksumFoldsToZero : Obligations.BlockWithItsChecksumFoldsToZero := by
  unfold Obligations.BlockWithItsChecksumFoldsToZero
  exact ⟨crc8Update_self, crcFold_append_fold 0x00#8⟩

/-! ## The checksum step is linear and bijective -/

/-- The step from 0 is the shifts alone. -/
theorem crc8Update_zero (x : Byte) : crc8Update 0x00#8 x = crcShifts 8 x := by rw [crc8Update, BitVec.zero_xor]

/-- Only 0 shifts to 0: the polynomial has its top bit set, and a byte shifted right has not. -/
theorem eq_zero_of_crcShift {x : Byte} (h : crcShift x = 0x00#8) : x = 0x00#8 := by
  rw [crcShift_eq] at h
  split at h
  next =>
    have poly : x >>> 1 = 0x8C#8 := BitVec.xor_eq_zero_iff.1 h
    bv_omega
  next even =>
    rw [BitVec.getLsbD, Nat.testBit_zero] at even
    have := of_decide_eq_false (Bool.eq_false_of_not_eq_true even)
    bv_omega

/-- A linear map with no other zero is injective. -/
theorem crcShift_injective : Function.Injective crcShift := fun x y h =>
  BitVec.xor_eq_zero_iff.1 (eq_zero_of_crcShift (by rw [crcShift_xor, h, BitVec.xor_self]))

theorem byte_finite : Finite Byte := .of_injective _ BitVec.toFin_injective

theorem crcShifts_bijective (n : Nat) : Function.Bijective (crcShifts n) := by
  have := byte_finite
  rw [crcShifts_eq_iterate]
  exact crcShift_injective.bijective_of_finite.iterate n

/-- Settles O52: eight shifts are linear and bijective because one is; the stated values by evaluation. -/
theorem checksumStepIsLinearAndBijective : Obligations.ChecksumStepIsLinearAndBijective := by
  unfold Obligations.ChecksumStepIsLinearAndBijective
  have bijective : Function.Bijective (crc8Update 0x00#8) := funext crc8Update_zero ▸ crcShifts_bijective 8
  refine ⟨fun c b => (crc8Update_zero (c ^^^ b)).symm, fun x y => ?_, fun x y h => bijective.injective h,
    bijective.surjective, by decide⟩
  rw [crc8Update_zero, crc8Update_zero, crc8Update_zero, crcShifts_xor]

end Sys2Proof.Machine

/-! SUPPORT. The statements of 60_exceptions.md: rejections and what ends ILL, the step that waits or serves one action, a command
word written while an operation runs, and the reset input with no operation running. -/

namespace Sys2Proof.Machine

/-! ## A step that starts no command -/

/-- An action that starts no command, of itself or because reset is held, is served after its gap. -/
theorem step_of_no_command {s : State} {e : HostEvent} {rest : List HostEvent} (hh : s.host = e :: rest)
    (none_starts : (if s.inReset then none else commandOf e.act) = none) :
    step s = hostAccess e.act (idleFor (gapOf e.arrival) { s with host := rest }) := by
  simp only [step, serveNext, hh, serveHost, none_starts]

/-- Settles O9: the two cases of the host's queue, an action that starts no command being served alone. -/
theorem stepWaitsOrServesTheHost : Obligations.StepWaitsOrServesTheHost := by
  unfold Obligations.StepWaitsOrServesTheHost
  refine ⟨fun s hh => ?_, fun s e rest hh hc => step_of_no_command hh ?_⟩
  · simp only [step, serveNext, hh]
  · rw [hc, ite_self]

/-! ## Rejections -/

/-- With reset released a word that fails the conditions of R102 is rejected, whether OWC is idle or not (R104, R240). -/
theorem hostCommand_of_not_meetsConditions {s : State} {w : Word} (hr : s.inReset = false)
    (fails : ¬ MeetsConditions s.cfg w) : hostCommand w s = .next (reject s) := by
  cases hd : decode w with
  | error c => exact hostCommand_error hr hd
  | ok i =>
    by_cases hs : s.seq = .idle
    · rw [hostCommand_ok hs hr hd]
      exact exec_of_illFormed fun hw => fails ((meetsConditions_iff s.cfg w).2 ⟨i, hd, hw⟩)
    · exact hostCommand_busy w hr (busy_of hs)

/-- The codes outside R103. -/
theorem code_out_of_range {op : Byte} (h : op = 0#8 ∨ 0x0F#8 < op) : ¬ (1 ≤ op.toNat ∧ op.toNat ≤ 0x0F) := by
  rintro ⟨low, high⟩
  bv_omega

/-- A word with `Z` 0 and no code of R103 has the cause OPCODE (R104). -/
theorem decode_of_no_code {w : Word} (hz : zField w = 0#8) (h : ¬ (1 ≤ (opField w).toNat ∧ (opField w).toNat ≤ 0x0F)) :
    decode w = .error .opcode := by
  rcases decodeOp_cases (opField w) (aField w) (bField w) with ⟨i, hi, -⟩ | ⟨error, -⟩
  · obtain ⟨-, code, -⟩ := fields_of_decode ((if_pos hz).trans hi)
    exact absurd (code ▸ opcode_range i) h
  · exact (if_pos hz).trans error

/-! ## What leaves ILL -/

@[simp] theorem hostRead_ill (off : Nat) (s : State) : (hostRead off s).ill = s.ill := by
  unfold hostRead
  split <;> rfl

/-- ILL is set only where reset is released: a held reset keeps it 0 (R270). -/
theorem State.Inv.released_of_ill {s : State} (h : s.Inv) (ill : s.ill = true) : s.inReset = false :=
  Bool.eq_false_of_not_eq_true fun hr => Bool.false_ne_true ((congrArg State.ill (h.resetHeld hr)).symm.trans ill)

/-- A command, accepted or rejected, leaves ILL set (R22, R240). -/
theorem State.Inv.exec_ill {s t : State} {i : Instr} (h : s.Inv) (ill : s.ill = true) (e : Machine.exec i s = .next t) :
    t.ill = true := by
  rcases h.exec_cases e with ⟨rfl, -⟩ | ⟨-, -, run⟩
  · rfl
  · obtain ⟨new, o⟩ := run.op
    exact o.ill.trans ill

/-- So does any word written to CMD. -/
theorem State.Inv.hostCommand_ill {s t : State} {w : Word} (h : s.Inv) (ill : s.ill = true)
    (e : hostCommand w s = .next t) : t.ill = true := by
  have hr := h.released_of_ill ill
  cases hd : decode w with
  | error c =>
    rw [hostCommand_error hr hd] at e
    cases e
    rfl
  | ok i => exact h.exec_ill ill ((hostCommand_ok h.seqIdle hr hd).symm.trans e)

/-- A write outside CMD ends ILL only with a 1 in bit 1 of a write to STATUS (R22). -/
theorem hostWrite_ill {s : State} (off : Nat) (w : Word) (ill : s.ill = true) :
    (hostWrite off w s).ill = true ∨ (off = 0x04 ∧ w.getLsbD 1 = true) := by
  unfold hostWrite
  split
  · exact .inl ill
  · split
    · next status =>
      cases bit : w.getLsbD 1 with
      | true => exact .inr ⟨status, rfl⟩
      | false => exact .inl (by rw [writeStatus, ill, bit]; rfl)
    · exact .inl ill

/-- Of the accesses only the write of 1 to STATUS bit 1 ends ILL, of the levels of the reset input only the asserted one: a held
reset has nothing reported. -/
theorem State.Inv.hostAccess_ill {s t : State} {act : HostAct} (h : s.Inv) (ill : s.ill = true)
    (e : Machine.hostAccess act s = .next t) :
    t.ill = true ∨ act = .reset true ∨ ∃ w : Word, act = .write 0x04 4 w ∧ w.getLsbD 1 = true := by
  cases act with
  | read off size =>
    simp only [Machine.hostAccess] at e
    split at e
    · cases e
      exact .inl ((hostRead_ill off s).trans ill)
    · cases e
  | write off size w =>
    simp only [Machine.hostAccess] at e
    split at e
    · next access =>
      obtain ⟨rfl, -⟩ := (supported_iff off size).1 access
      split at e
      · exact .inl (h.hostCommand_ill ill e)
      · cases e
        rcases hostWrite_ill off w ill with stays | ⟨rfl, bit⟩
        · exact .inl stays
        · exact .inr (.inr ⟨w, rfl, bit⟩)
    · cases e
  | reset asserted =>
    cases asserted with
    | true => exact .inr (.inl rfl)
    | false =>
      cases e
      exact .inl (by rw [setReset_false_idle (h.released_of_ill ill), ill])

/-- Settles O5: each cause but BUSY fails a condition of R102; the order is that of the decoder's two tests. -/
theorem rejectionSetsIllAndNothingElse : Obligations.RejectionSetsIllAndNothingElse := by
  unfold Obligations.RejectionSetsIllAndNothingElse
  refine ⟨fun w s hr cause => ?_, fun w hz => if_neg hz, fun w hz code => decode_of_no_code hz (code_out_of_range code),
    fun act s t h ill e => h.hostAccess_ill ill e⟩
  rcases cause with busy | reserved | code | code | ⟨takesSlot, missing⟩
  · exact hostCommand_busy w hr busy
  · exact hostCommand_of_not_meetsConditions hr fun ⟨hz, _, _⟩ => reserved hz
  · exact hostCommand_of_not_meetsConditions hr fun ⟨_, range, _⟩ => code_out_of_range (.inl code) range
  · exact hostCommand_of_not_meetsConditions hr fun ⟨_, range, _⟩ => code_out_of_range (.inr code) range
  · exact hostCommand_of_not_meetsConditions hr fun ⟨_, _, slot⟩ => BitVec.not_lt.2 missing (slot takesSlot)

/-! ## A command word written while an operation runs -/

/-- A command word that lands before the last tick of an operation does nothing but set ILL (R69, R240 (1)). -/
theorem serveBusy_write_cmd {op : Instr} {t : State} {dur d : Nat} (s0 : State) (w : Word) (hr : t.inReset = false)
    (lands : d < dur) :
    serveBusy op s0 dur [⟨.timed d, .write 0x00 4 w⟩] 0 t = .next { t with ill := true, host := [] } := by
  have rejected : hostAccess (.write 0x00 4 w) (busyView op t) = .next (reject (busyView op t)) :=
    hostCommand_busy w hr (busyView_busy op t)
  simp only [serveBusy, Nat.zero_add, if_pos lands, rejected]
  rfl

/-- Settles O10: the first word runs its command, and the second is served before the command's last tick. -/
theorem busyCommandIsLostWithoutDisturbing : Obligations.BusyCommandIsLostWithoutDisturbing := by
  unfold Obligations.BusyCommandIsLostWithoutDisturbing
  intro s t w w' i g d h hr hh hd e lands
  have frame := ((h.setOutside s.bus [⟨.timed d, .write 0x00 4 w'⟩] s.readLog).idleFor g).exec_frame e
  have released : t.inReset = false := by rw [frame.inReset, idleFor_inReset, hr]
  rw [stepRunsTheDecodedCommand s _ _ w i h.seqIdle hr hh rfl hd]
  simp only [gapOf, e, idleFor_clock]
  exact serveBusy_write_cmd _ w' released (by omega)

/-! ## The reset input with no operation running -/

/-- STATUS reads 0 when OWC is idle, nothing is reported and the driver is released (R22). -/
theorem statusWord_of_idle {s : State} (hs : s.seq = .idle) (ill : s.ill = false) (hd : s.drv = .rel) : statusWord s = 0#32 := by
  rw [statusWord, isSpu, hd, ill, not_busy hs]
  rfl

/-- With no registry byte stored the window reads 0 (R46, R67). -/
theorem windowWord_of_mem_nil {s : State} (h : s.mem = []) (a : Nat) : windowWord a s = 0#32 := by
  have byte : ∀ a, memRead a s = 0x00#8 := fun a => by rw [memRead, h, Memory.read, ite_self]
  rw [windowWord, byte, byte, byte, byte]
  rfl

/-- While reset is held every offset reads 0 (R270). -/
theorem State.Inv.regRead_inReset {s : State} (h : s.Inv) (hr : s.inReset = true) (off : Nat) : regRead off s = 0#32 := by
  rw [h.resetHeld hr]
  unfold regRead
  repeat' split
  · exact statusWord_of_idle rfl rfl rfl
  · rfl
  · rfl
  · rfl
  · exact windowWord_of_mem_nil rfl _
  · rfl

/-- And every write is ignored (R270). -/
theorem hostAccess_write_inReset {s : State} {off : Nat} (w : Word) (hr : s.inReset = true) (h : off % 4 = 0) :
    hostAccess (.write off 4 w) s = .next s := by
  by_cases h0 : off = 0x00
  · subst h0
    rw [hostAccess_write_cmd, hostCommand, if_pos hr]
  · rw [hostAccess_write w s h h0, hostWrite, if_pos hr]

/-- In a state of the invariant releasing reset changes the input and nothing else: OWC has its reset values already (R270). -/
theorem State.Inv.setReset_false_held {s : State} (h : s.Inv) (hr : s.inReset = true) :
    setReset false s = { s with inReset := false } :=
  (Machine.setReset_false_held hr).trans (congrArg (fun x : State => { x with inReset := false }) (h.resetHeld hr)).symm

/-- Settles O19: `setReset` on each level, and, while reset is held, the reset values that the invariant gives. -/
theorem resetKeepsParametersAndResponders : Obligations.ResetKeepsParametersAndResponders := by
  unfold Obligations.ResetKeepsParametersAndResponders
  refine ⟨fun s => rfl, fun s h hr => ⟨fun off aligned => ?_, fun off w aligned => hostAccess_write_inReset w hr aligned, ?_, ?_⟩,
    fun s hr => congrArg Host.Outcome.next (setReset_false_idle hr),
    fun s e rest hr hh => step_of_no_command hh (if_pos hr)⟩
  · rw [hostAccess_read_idle h.seqIdle aligned, h.regRead_inReset hr]
  · exact congrArg Host.Outcome.next (h.resetHeld hr).symm
  · exact congrArg Host.Outcome.next (h.setReset_false_held hr)

end Sys2Proof.Machine

/-! SUPPORT. The statements of 70_reset_and_hazards.md: every accepted command ends after the time of its slots, how long each
command takes, and the reset input asserted while one runs. -/

namespace Sys2Proof.Machine

/-! ## The slots of a command -/

/-- A run from `s` to `t` whose bus events are `new`, the clock and the waveform those of their slots, back to back (R80, R300). -/
structure SlotRun (s t : State) (new : List BusEvent) : Prop where
  events : t.bus.events = s.bus.events ++ new
  clock : t.bus.clock = s.bus.clock + (new.map (eventTicks s.cfg)).sum
  wave : t.bus.wave = s.bus.wave ++ new.flatMap (eventWave s.cfg)

theorem OpRun.slots {touch : Nat → Prop} {s t : State} {new : List BusEvent} (o : OpRun touch s t new) : SlotRun s t new :=
  ⟨o.events, o.clock, o.wave⟩

/-- In a state of the invariant every command takes the time of its slots, a rejected one none. -/
theorem State.Inv.exec_slots {s t : State} {i : Instr} (h : s.Inv) (e : Machine.exec i s = .next t) :
    ∃ new, SlotRun s t new := by
  rcases h.exec_cases e with ⟨rfl, -⟩ | ⟨-, -, run⟩
  · exact ⟨[], (List.append_nil _).symm, rfl, (List.append_nil _).symm⟩
  · obtain ⟨new, o⟩ := run.op
    exact ⟨new, o.slots⟩

/-- Settles O58: a well-formed command is accepted, and its operation carries SEQ through and takes the time of its slots. -/
theorem everyAcceptedCommandEnds : Obligations.EveryAcceptedCommandEnds := by
  unfold Obligations.EveryAcceptedCommandEnds
  intro i s h hw
  obtain ⟨t, runs, run⟩ := exec_run ((h.accepted_iff i).2 hw) h.two_le_spLen h.memWf
  obtain ⟨new, o⟩ := run.op
  exact ⟨t, new, runs, o.seq.trans h.seqIdle, o.events, o.clock, o.wave⟩

/-! ## How long each command takes -/

/-- The duration of a command is that of the events it adds (R300). -/
theorem State.Inv.exec_clock {s t : State} {i : Instr} {es : List BusEvent} (h : s.Inv) (e : Machine.exec i s = .next t)
    (events : t.bus.events = s.bus.events ++ es) : t.bus.clock = s.bus.clock + (es.map (eventTicks s.cfg)).sum := by
  obtain ⟨new, run⟩ := h.exec_slots e
  rw [run.clock, List.append_cancel_left (run.events.symm.trans events)]

/-- A command with no bus activity takes no time (R205, R300). -/
theorem State.Inv.exec_quiet {s : State} {i : Instr} (h : s.Inv) (hw : i.wellFormed s.cfg = true)
    (quiet : noBusActivity s i = true) : ∃ t, Machine.exec i s = .next t ∧ t.bus.clock = s.bus.clock := by
  obtain ⟨t, runs, -, -, -, clock⟩ := highDriveLastsUntilTheNextSlot.1 s i h hw quiet
  exact ⟨t, runs, clock⟩

/-- A complete pass: the search command and 64 positions (R301). -/
theorem completePass_ticks (c : Config) {xs : List Position} (h : xs.length = 64) :
    ((txEvents c.cmdSearch ++ xs.flatMap Position.events).map (eventTicks c)).sum = passTicks c := by
  rw [List.map_append, List.sum_append, txEvents_ticks, positions_ticks, h, passTicks]

/-- An aborted pass: the search command, the positions completed and the pair of ones (R301). -/
theorem abortedPass_ticks (c : Config) (xs : List Position) :
    ((txEvents c.cmdSearch ++ (xs.flatMap Position.events ++ [BusEvent.r 1#1, BusEvent.r 1#1])).map (eventTicks c)).sum =
      abortTicks c xs.length := by
  simp only [List.map_append, List.sum_append, txEvents_ticks, positions_ticks, abortTicks, List.map_cons, List.map_nil,
    List.sum_cons, List.sum_nil, eventTicks]
  omega

/-- PROCESS after its READ_ALL: the presence check, and a conversion when that sampled low (R212, R301). -/
theorem convertIfPresent_ticks (c : Config) (p q : Bit) :
    ((.rst p :: if p = 1#1 then convertFrame c q else []).map (eventTicks c)).sum =
      c.tP + if p = 1#1 then (if q = 1#1 then c.tP + 16 * c.tW else c.tP) else 0 := by
  rw [List.map_cons, List.sum_cons, eventTicks]
  split
  · rw [convertFrame_ticks]
  · rfl

/-- Settles O59: the commands without bus activity take no time, every other one that of the events its own statement gives. -/
theorem durationOfEveryCommand : Obligations.DurationOfEveryCommand := by
  unfold Obligations.DurationOfEveryCommand
  refine ⟨⟨rfl, rfl, rfl, rfl, fun q => ?_⟩, fun s h => ⟨⟨_, checkPresenceResult s h.seqIdle, rfl⟩,
    fun v => ⟨_, writeBitResult s v h.seqIdle, rfl⟩, ⟨_, readBitResult s h.seqIdle, rfl⟩, fun b => ?sendByte, ?readByte,
    h.exec_quiet rfl rfl, h.exec_quiet rfl rfl, fun k => h.exec_quiet rfl rfl, fun c b => h.exec_quiet rfl rfl,
    fun k hk => ?select, fun k last hk => ?searchPass, ?discover, ?readAll, ?startConversion, ?process⟩⟩
  · show 8 * 70 + q * (2 * 70 + 70) + 2 * 70 = 700 + 210 * q
    omega
  case sendByte =>
    obtain ⟨t, runs, -, clock, -⟩ := sendByteResult s b h.seqIdle
    exact ⟨t, runs, clock⟩
  case readByte =>
    refine ⟨_, exec_readByte_eq h.seqIdle, (readByte_run s).clock.trans ?_⟩
    exact congrArg (s.bus.clock + ·) (rxEvents_ticks s.cfg (readByte s).1)
  case select =>
    obtain ⟨t, runs, -, clock, -⟩ := selectResult s k h.seqIdle hk
    exact ⟨t, runs, clock⟩
  case searchPass =>
    obtain ⟨t, xs, runs, -, -, ends, -⟩ := searchPassResult s k last h.seqIdle hk h.memWf
    refine ⟨t, xs, runs, ?_⟩
    rcases ends with ⟨length, -, events⟩ | ⟨length, -, events⟩
    · refine .inl ⟨length, events, ?_⟩
      rw [h.exec_clock runs events, completePass_ticks s.cfg length, passTicks]
    · refine .inr ⟨length, events, ?_⟩
      rw [h.exec_clock runs events, abortedPass_ticks, abortTicks]
  case discover =>
    obtain ⟨t, ps, e, runs, events, lengths, -⟩ := discoveryOutcomeTable s h
    refine ⟨t, ps, e, runs, events, lengths, ?_⟩
    rw [h.exec_clock runs events, List.map_append, List.sum_append, passes_ticks s.cfg ps lengths]
    cases e with
    | noMore => rfl
    | capacity => rfl
    | absent => rfl
    | collision xs =>
      rw [DiscoveryEnd.events, List.map_cons, List.sum_cons, abortedPass_ticks]
      rfl
  case readAll =>
    obtain ⟨t, answers, runs, length, blocks, events, -⟩ := readAllResult s h
    refine ⟨t, answers, runs, events, length, ?_⟩
    rw [h.exec_clock runs events, readFrames_ticks s 0 answers blocks, length]
  case startConversion =>
    obtain ⟨t, runs, absent, present, -⟩ := startConversionResult s h.seqIdle
    refine ⟨t, runs, ?_⟩
    cases low : (envReset s.bus.env s.bus.draws).low with
    | false =>
      obtain ⟨-, -, -, clock⟩ := absent low
      exact clock
    | true =>
      obtain ⟨-, -, -, clock⟩ := present low
      exact clock
  case process =>
    obtain ⟨t, answers, p, q, runs, length, blocks, events, -⟩ := processResult s h
    refine ⟨t, answers, p, q, runs, events, ?_⟩
    rw [h.exec_clock runs events, List.map_append, List.sum_append, readFrames_ticks s 0 answers blocks, length,
      convertIfPresent_ticks]

/-! ## Reset while a command runs -/

/-- The host's coming actions have no part in a gap. -/
theorem idleFor_setHost_bus (n : Nat) (s : State) (q : List HostEvent) :
    (idleFor n { s with host := q }).bus = (idleFor n s).bus := by
  unfold idleFor
  split <;> rfl

/-- Reset asserted before the last tick of an operation ends it there (R272). -/
theorem serveBusy_reset (op : Instr) (s0 t : State) {dur : Nat} (d : Nat) (rest : List HostEvent) (lands : d < dur) :
    serveBusy op s0 dur (⟨.timed d, .reset true⟩ :: rest) 0 t = .next (cutByReset s0 t d rest) := by
  simp only [serveBusy, Nat.zero_add, if_pos lands]

/-- The state a reset cuts a command to, by what the command added to the histories (R270, R272, log 12). -/
theorem cutByReset_eq {s0 t : State} {new : List BusEvent} (frame : CommandFrame s0 t) (run : SlotRun s0 t new) (d : Nat)
    (rest : List HostEvent) : cutByReset s0 t d rest = { State.resetWith s0.cfg with
      inReset := true
      bus :=
        { env := (lineAfter s0.cfg (cutEvents s0.cfg d new) s0.bus.env s0.bus.draws).unsettle
          draws := t.bus.draws
          clock := s0.bus.clock + d
          events := s0.bus.events ++ cutEvents s0.cfg d new
          wave := s0.bus.wave ++ cutWave d (new.flatMap (eventWave s0.cfg)) }
      host := rest
      readLog := s0.readLog } := by
  rw [cutByReset, frame.cfg, frame.readLog, run.events, run.wave, List.drop_left, List.drop_left]

/-- A waveform that lasts longer than `d` is cut to exactly `d` ticks (R272). -/
theorem cutWave_ticks {d : Nat} {ws : List WaveItem} (h : d < (ws.map waveTicks).sum) :
    ((cutWave d ws).map waveTicks).sum = d := by
  rcases Nat.eq_zero_or_pos d with rfl | pos
  · rw [cutWave_zero]
    rfl
  · exact (cutWave_take d ws pos h).2

/-- Settles O20: the reset is the first action served while the command runs, and what it cuts lasts longer than `d` ticks. -/
theorem resetCutsARunningCommandShort : Obligations.ResetCutsARunningCommandShort := by
  unfold Obligations.ResetCutsARunningCommandShort
  intro s t w i g d rest h hr hh hd e lands
  have inv := (h.setOutside s.bus (⟨.timed d, .reset true⟩ :: rest) s.readLog).idleFor g
  obtain ⟨new, run⟩ := inv.exec_slots e
  have frame := inv.exec_frame e
  have longer : d < (new.map (eventTicks s.cfg)).sum := by
    have clock := run.clock
    simp only [idleFor_clock, idleFor_cfg] at clock
    omega
  have waveLonger : d < ((new.flatMap (eventWave s.cfg)).map waveTicks).sum := by rwa [eventWaves_ticks]
  have cut := serveBusy_reset i (idleFor g { s with host := ⟨.timed d, .reset true⟩ :: rest }) t
    (dur := t.bus.clock - (s.bus.clock + g)) d rest (by omega)
  rw [cutByReset_eq frame run] at cut
  have events := run.events
  have wave := run.wave
  simp only [idleFor_cfg, idleFor_env, idleFor_draws, idleFor_clock, idleFor_events, idleFor_readLog, idleFor_setHost_bus]
    at cut events wave
  refine ⟨new, new.flatMap (eventWave s.cfg), events, wave, ?_, cutEvents_take s.cfg d new longer, ?_, fun pos => ?_,
    cutWave_ticks waveLonger, fun rs line => ?_⟩
  · rw [stepRunsTheDecodedCommand s _ _ w i h.seqIdle hr hh rfl hd]
    simp only [gapOf, e, idleFor_clock]
    exact cut
  · rintro rfl
    exact cutWave_zero _
  · exact (cutWave_take d _ pos waveLonger).1
  · rw [line]
    exact lineAfter_unsettled s.cfg _ rs s.bus.draws

end Sys2Proof.Machine
